-- ==== Sys2Proof/Word.lean ====
section
/-! DEFINITION. The word types of RDM-RTC. Rule R10: a byte is 8 bits, bit 0 is the least significant bit of any
value, all values are unsigned. -/

namespace Sys2Proof

/-- One frame-buffer cell, and every one-byte register (R10, R21). -/
abbrev Byte := BitVec 8

/-- A 16-bit value: CMD_VALUE (R23) and the checksum accumulator CSUM (R26). -/
abbrev Word16 := BitVec 16

/-- The command word the host writes to register index 0 (R96). -/
abbrev CmdWord := BitVec 24

/-- The phase register SEQ (R24). -/
abbrev SeqCode := BitVec 4

/-- The 48-bit register OWN_UID, six UID bytes (R31). -/
abbrev Uid := BitVec 48

/-- The byte index IDX (R27). -/
abbrev Index := BitVec 9

/-! A value of the microsecond counter is a W-bit unsigned number (R36). W is a parameter of the block (R8), so such a
value is held as the number itself, a `Nat` below 2^W: `Machine.tickSub` and `Machine.tickSucc` do the modulo-2^W
arithmetic of R11, and `Machine.State.Inv` says that every such register stays below 2^W. DESIGN CHOICE, assumption
log 20. -/

end Sys2Proof
end

