-- ==== Sys2Proof/Config.lean ====
section
/-! DEFINITION. The parameters of the block (R7, R8, R256) and the one free value of the model. -/

namespace Sys2Proof

/-- What the serialiser outside the block puts on the line before byte 0 (R8, D23): the two possibilities R8 names. -/
inductive TxPreamble where
  | nothing
  | breakAndMark
  deriving DecidableEq, Repr

/-- The serialiser's bit rate, bit order and stop bits (R8, D23). -/
structure LineFormat where
  bitRate  : Nat
  lsbFirst : Bool
  stopBits : Nat
  deriving DecidableEq, Repr

/-- The parameters of rule R8, each "an argument of the model (a configuration field) so that a claim can quantify over
it". OFF_PDL and OFF_PD follow MIN_SIZE (`Config.offPdl`, `Config.offPd`). `txPreamble` and `lineFormat` belong to the
serialiser outside the block: "no rule of the block reads them" (R8), so nothing in the model does. Assumption log 1. -/
structure Config where
  /-- OFF_SC: the start code. -/
  offSc        : Nat
  /-- OFF_SSC: the sub-start code. -/
  offSsc       : Nat
  /-- OFF_ML: the message length. -/
  offMl        : Nat
  /-- OFF_DST: the destination UID, 6 bytes. -/
  offDst       : Nat
  /-- OFF_SRC: the source UID, 6 bytes. -/
  offSrc       : Nat
  /-- OFF_TN: the transaction number. -/
  offTn        : Nat
  /-- OFF_RT: the response type ("slot16"). -/
  offRt        : Nat
  /-- OFF_MC: the message count. -/
  offMc        : Nat
  /-- OFF_SUBDEV: the sub-device, 2 bytes. -/
  offSubdev    : Nat
  /-- OFF_CC: the command class. -/
  offCc        : Nat
  /-- OFF_PID: the parameter id, 2 bytes. -/
  offPid       : Nat
  /-- COUNT_WIDTH: the width of PENDING_COUNT in bits. -/
  countWidth   : Nat
  /-- W (TIME_WIDTH): the width of NOW, RX_END_TS, T0 and DLY in bits. -/
  timeWidth    : Nat
  /-- MIN_SIZE: the message length of a frame with no param data. -/
  minSize      : Nat
  /-- FB_SIZE: bytes in the frame buffer. -/
  fbSize       : Nat
  /-- RT_ACK. -/
  rtAck        : Byte
  /-- RT_ACK_TIMER. -/
  rtAckTimer   : Byte
  /-- RT_NACK_REASON. -/
  rtNackReason : Byte
  /-- T_SPACING_US: the minimum responder packet spacing, in ticks. -/
  spacing      : Nat
  /-- T_DIRSW_US: the data-direction-switch settling delay, in ticks. -/
  dirSwitch    : Nat
  /-- PULLUP_OUT: the pull-up argument when the bus goes to OUTPUT. -/
  pullupOut    : Bool
  /-- PULLUP_IN: the pull-up argument when the bus returns to INPUT. -/
  pullupIn     : Bool
  /-- TX_PREAMBLE. -/
  txPreamble   : Option TxPreamble
  /-- LINE_FORMAT. -/
  lineFormat   : Option LineFormat
  deriving DecidableEq, Repr

/-- The defaults of rule R8, which every test vector of 95_test_vectors.md uses. PRESUMED: most are the spec's own
"general knowledge", assumption log 19. -/
def Config.defaults : Config :=
  { offSc := 0, offSsc := 1, offMl := 2, offDst := 3, offSrc := 9, offTn := 15, offRt := 16, offMc := 17,
    offSubdev := 18, offCc := 20, offPid := 21, countWidth := 8,
    timeWidth := 64, minSize := 24, fbSize := 257, rtAck := 0x00#8, rtAckTimer := 0x01#8, rtNackReason := 0x02#8,
    spacing := 176, dirSwitch := 4, pullupOut := false, pullupIn := true,
    txPreamble := none, lineFormat := none }

/-- The rows of rule R8 whose constraint is "fixed": they hold their defaults. `valid` asks less of the offsets, so a
statement under `valid` covers every build with the fixed rows, and others. Assumption log 1. -/
def Config.fixedRows (c : Config) : Bool :=
  decide (c.offSc = 0) && decide (c.offSsc = 1) && decide (c.offMl = 2) && decide (c.offDst = 3) && decide (c.offSrc = 9)
    && decide (c.offTn = 15) && decide (c.offRt = 16) && decide (c.offMc = 17) && decide (c.offSubdev = 18)
    && decide (c.offCc = 20) && decide (c.offPid = 21) && decide (c.countWidth = 8)

/-- The header fields do not overlap: they stand in the order of rule R90, each with its size, and end before
OFF_PDL = MIN_SIZE - 1. With the fixed rows this says MIN_SIZE >= 24. DEDUCED, assumption log 2. -/
def Config.layout (c : Config) : Bool :=
  decide (c.offSc < c.offSsc) && decide (c.offSsc < c.offMl) && decide (c.offMl < c.offDst)
    && decide (c.offDst + 6 ≤ c.offSrc) && decide (c.offSrc + 6 ≤ c.offTn) && decide (c.offTn < c.offRt)
    && decide (c.offRt < c.offMc) && decide (c.offMc < c.offSubdev) && decide (c.offSubdev + 2 ≤ c.offCc)
    && decide (c.offCc < c.offPid) && decide (c.offPid + 2 < c.minSize)

/-- The constraints of rules R8 and R256 on the parameters: three distinct response type codes, W at least 16, a frame
whose fields do not overlap, MIN_SIZE + 2 at most 255, FB_SIZE at least 257, COUNT_WIDTH = 8 (the port is 8 bits, R32),
T_SPACING_US at least 176 and below 2^W, T_DIRSW_US below 2^W. -/
def Config.valid (c : Config) : Bool :=
  decide (c.rtAck ≠ c.rtAckTimer) && decide (c.rtAck ≠ c.rtNackReason) && decide (c.rtAckTimer ≠ c.rtNackReason)
    && decide (16 ≤ c.timeWidth) && c.layout && decide (c.minSize + 2 ≤ 255) && decide (257 ≤ c.fbSize)
    && decide (c.countWidth = 8)
    && decide (176 ≤ c.spacing) && decide (c.spacing < 2 ^ c.timeWidth) && decide (c.dirSwitch < 2 ^ c.timeWidth)

/-- Whether a response type is one of the three the block supports (R94). -/
def Config.supports (c : Config) (rtype : Byte) : Bool :=
  decide (rtype = c.rtAck) || decide (rtype = c.rtAckTimer) || decide (rtype = c.rtNackReason)

/-! The constants of rule R7. -/

/-- UID_SIZE (R7). -/
abbrev Config.uidSize : Nat := 6
/-- CSUM_SIZE (R7). -/
abbrev Config.csumSize : Nat := 2
/-- VALUE_SIZE (R7): bytes of param data in a NACK_REASON or ACK_TIMER response. -/
abbrev Config.valueSize : Nat := 2
/-- CC_STEP (R7): the step from a command class to its response class. -/
abbrev Config.ccStep : Nat := 1

/-! The two offsets that follow MIN_SIZE (R8). -/

/-- OFF_PDL = MIN_SIZE - 1: the param data length. -/
abbrev Config.offPdl (c : Config) : Nat := c.minSize - 1
/-- OFF_PD = MIN_SIZE: the first byte of param data. -/
abbrev Config.offPd (c : Config) : Nat := c.minSize
/-- MIN_SIZE + 2 as a length byte: the message length of a NACK_REASON or ACK_TIMER response (R91, R99). -/
def Config.valueLength (c : Config) : Byte := BitVec.ofNat 8 (c.minSize + Config.valueSize)

/-- The free value: what a host read returns where the spec calls the result unspecified (R203, R210; U1, U8). It has
no body, so nothing can be proved of a value of it; `Machine.State.draws` counts the draws, so that each read gets a
fresh one. DESIGN CHOICE, assumption log 14. -/
opaque Config.freeValue : Nat → BitVec 64

end Sys2Proof
end

