-- ==== Sys2Proof/Syntax.lean ====
section
/-! DEFINITION. The instructions: one constructor per row of spec/opcode_table.json, the four command words of rule R96
and the twelve phases of rule R100. -/

namespace Sys2Proof

/-- An instruction of the block. The first four are words the host writes to CMD (format CMD, 24 bits); the other
twelve are what the sequencer does at each code of SEQ (format SEQ, 4 bits). -/
inductive Instr where
  /-- RESPOND_ACK (R122). The VALUE bits are ignored by the response, but START latches them into CMD_VALUE (R201). -/
  | respondAck (value : Word16)
  /-- RESPOND_ACK_TIMER (R123), with the timer value. -/
  | respondAckTimer (value : Word16)
  /-- RESPOND_NACK (R124), with the reason code. -/
  | respondNack (value : Word16)
  /-- RESPOND_RAW (R125): any response type the first three rows do not match. -/
  | respondRaw (rtype : Byte) (value : Word16)
  /-- IDLE (R120). -/
  | idle
  /-- STAMP (R141). -/
  | stamp
  /-- DISPATCH (R142). -/
  | dispatch
  /-- SWAP (R144). -/
  | swap
  /-- CLASS (R145). -/
  | classAdvance
  /-- CSUM (R146). -/
  | csum
  /-- APPEND (R147). -/
  | append
  /-- GATE (R173). -/
  | gate
  /-- DIR_OUT (R175). -/
  | dirOut
  /-- SEND (R177). -/
  | send
  /-- SETTLE (R180). -/
  | settle
  /-- DIR_IN (R182). -/
  | dirIn
  deriving DecidableEq, Repr

/-- The sequencer's instructions: the twelve phases. -/
def Instr.isPhase : Instr → Bool
  | .respondAck _ => false
  | .respondAckTimer _ => false
  | .respondNack _ => false
  | .respondRaw _ _ => false
  | .idle => true
  | .stamp => true
  | .dispatch => true
  | .swap => true
  | .classAdvance => true
  | .csum => true
  | .append => true
  | .gate => true
  | .dirOut => true
  | .send => true
  | .settle => true
  | .dirIn => true

end Sys2Proof
end

