-- ==== Sys2Proof/WellFormed.lean ====
section
/-! DEFINITION. Which instruction terms are well formed: those that a decoder answers. -/

namespace Sys2Proof

/-- A RESPOND_RAW term is well formed when its type is none of the three supported codes: with one of those "it is the
same word as the corresponding named command and behaves as that command" (R105), so it is spelled as that command.
Every other term is well formed, whatever its operands. -/
def Instr.wf (c : Config) : Instr → Bool
  | .respondAck _ => true
  | .respondAckTimer _ => true
  | .respondNack _ => true
  | .respondRaw rtype _ => !c.supports rtype
  | .idle => true
  | .stamp => true
  | .dispatch => true
  | .swap => true
  | .classAdvance => true
  | .csum => true
  | .append => true
  | .gate => true
  | .dirOut => true
  | .send => true
  | .settle => true
  | .dirIn => true

end Sys2Proof
end

