-- ==== Sys2Proof/Decode.lean ====
section
/-! DEFINITION. The decoder and the encoder of the two formats of spec/opcode_table.json (R96, R100, R113). -/

namespace Sys2Proof

/-! The codes of SEQ (R24, R100). -/

/-- SEQ code 0. -/
@[simp] abbrev SeqCode.idle : SeqCode := 0#4
/-- SEQ code 1. -/
@[simp] abbrev SeqCode.stamp : SeqCode := 1#4
/-- SEQ code 2. -/
@[simp] abbrev SeqCode.dispatch : SeqCode := 2#4
/-- SEQ code 3. -/
@[simp] abbrev SeqCode.swap : SeqCode := 3#4
/-- SEQ code 4. -/
@[simp] abbrev SeqCode.classAdvance : SeqCode := 4#4
/-- SEQ code 5. -/
@[simp] abbrev SeqCode.csum : SeqCode := 5#4
/-- SEQ code 6. -/
@[simp] abbrev SeqCode.append : SeqCode := 6#4
/-- SEQ code 7. -/
@[simp] abbrev SeqCode.gate : SeqCode := 7#4
/-- SEQ code 8. -/
@[simp] abbrev SeqCode.dirOut : SeqCode := 8#4
/-- SEQ code 9. -/
@[simp] abbrev SeqCode.send : SeqCode := 9#4
/-- SEQ code 10. -/
@[simp] abbrev SeqCode.settle : SeqCode := 10#4
/-- SEQ code 11. -/
@[simp] abbrev SeqCode.dirIn : SeqCode := 11#4

/-- An encoded instruction: a command word, or a code of the phase register. The two formats never meet, since a
command word arrives at register index 0 and a phase code stands in SEQ (R24, R96). -/
inductive Code where
  | cmd (w : CmdWord)
  | seq (c : SeqCode)
  deriving DecidableEq, Repr

/-- Why a code is no instruction. -/
inductive DecodeError where
  /-- SEQ codes 12 to 15: "A model has no arm for them" (R102). -/
  | unreachableSeqCode (c : SeqCode)
  deriving DecidableEq, Repr

/-- What the decoder answers. -/
inductive Decoded where
  | ok (i : Instr)
  | rejected (e : DecodeError)
  deriving DecidableEq, Repr

/-- RTYPE, bits [23:16] of a command word (R96). -/
def cmdRtypeField (w : CmdWord) : Byte := w.extractLsb' 16 8

/-- VALUE, bits [15:0] of a command word (R96). -/
def cmdValueField (w : CmdWord) : Word16 := w.extractLsb' 0 16

/-- The command word with the given fields, RTYPE in the high bits (R96). -/
def cmdWordOf (rtype : Byte) (value : Word16) : CmdWord := rtype ++ value

/-- A command word's instruction: the rows of rule R96 tried in order, the last matching everything left. Every 24-bit
word is legal (R101), so this never rejects. -/
def decodeCmd (c : Config) (w : CmdWord) : Instr :=
  if cmdRtypeField w = c.rtAck then .respondAck (cmdValueField w)
  else if cmdRtypeField w = c.rtAckTimer then .respondAckTimer (cmdValueField w)
  else if cmdRtypeField w = c.rtNackReason then .respondNack (cmdValueField w)
  else .respondRaw (cmdRtypeField w) (cmdValueField w)

/-- The phase of a SEQ code (R100); codes 12 to 15 are rejected by name (R102). -/
def decodeSeq (code : SeqCode) : Decoded :=
  match code.toNat with
  | 0 => .ok .idle
  | 1 => .ok .stamp
  | 2 => .ok .dispatch
  | 3 => .ok .swap
  | 4 => .ok .classAdvance
  | 5 => .ok .csum
  | 6 => .ok .append
  | 7 => .ok .gate
  | 8 => .ok .dirOut
  | 9 => .ok .send
  | 10 => .ok .settle
  | 11 => .ok .dirIn
  | _ => .rejected (.unreachableSeqCode code)

/-- The decoder, total on every code of both formats. -/
def decode (c : Config) : Code → Decoded
  | .cmd w => .ok (decodeCmd c w)
  | .seq code => decodeSeq code

/-- The encoder, from the tables of rules R96 and R100. -/
def encode (c : Config) : Instr → Code
  | .respondAck value => .cmd (cmdWordOf c.rtAck value)
  | .respondAckTimer value => .cmd (cmdWordOf c.rtAckTimer value)
  | .respondNack value => .cmd (cmdWordOf c.rtNackReason value)
  | .respondRaw rtype value => .cmd (cmdWordOf rtype value)
  | .idle => .seq SeqCode.idle
  | .stamp => .seq SeqCode.stamp
  | .dispatch => .seq SeqCode.dispatch
  | .swap => .seq SeqCode.swap
  | .classAdvance => .seq SeqCode.classAdvance
  | .csum => .seq SeqCode.csum
  | .append => .seq SeqCode.append
  | .gate => .seq SeqCode.gate
  | .dirOut => .seq SeqCode.dirOut
  | .send => .seq SeqCode.send
  | .settle => .seq SeqCode.settle
  | .dirIn => .seq SeqCode.dirIn

/-- The code that `nbits` bits of the opcode table's numbering are: 24 bits are a command word, 4 bits (one byte when
counted in whole bytes) a SEQ code. Neither format has operand words. -/
def codeOfTableWord (nbits w : Nat) : Option Code :=
  if nbits = 24 then (if w < 2 ^ 24 then some (.cmd (BitVec.ofNat 24 w)) else none)
  else if nbits = 8 ∨ nbits = 4 then (if w < 2 ^ 4 then some (.seq (BitVec.ofNat 4 w)) else none)
  else none

/-- The instruction the decoder reads from a word of the opcode table, under the default response type codes, which are
the table's. -/
def decodeTableWord (nbits w : Nat) : Option Instr :=
  match codeOfTableWord nbits w with
  | some code =>
    match decode Config.defaults code with
    | .ok i => some i
    | .rejected _ => none
  | none => none

end Sys2Proof
end

