-- ==== Sys2Proof/Machine/State.lean ====
section
/-! DEFINITION. The state of the block (R20 to R39, R50), the outside agents' moves (R72) as plain data, the reasons a
step can stop, and the state after reset (R51, R250). -/

namespace Sys2Proof.Machine

/-- The frame buffer FB (R21): the written bytes by offset, strictly rising. An offset that is not listed holds no
value: "a model gives the cell no value until it is written" (R51). Assumption log 13. -/
abbrev Memory := List Host.Cell

/-- The direction register DIR: 0 is INPUT, 1 is OUTPUT (R37, R104). -/
inductive Direction where
  | input
  | output
  deriving DecidableEq, Repr

/-- An event of the observation trace EV (R50), stamped with the value of NOW at which it happens. Assumption log 21. -/
inductive Event where
  /-- The direction register was set to `d` with pull-up `p`. -/
  | dir (t : Nat) (d : Direction) (p : Bool)
  /-- Byte number `k` of this response, value `b`, was handed to the serialiser. -/
  | tx (t : Nat) (k : Nat) (b : Byte)
  /-- The serialiser reported that every byte handed to it has been sent. -/
  | txDone (t : Nat)
  deriving DecidableEq, Repr

/-- A host access: the thirteen of rule R200, and the accesses to a register index that the contract forbids (R40, R210;
U9). `Machine.HostAccess.ofWrite` and `Machine.HostAccess.ofRead` give the access that a register index means. -/
inductive HostAccess where
  /-- START: write CMD (index 0) (R201). -/
  | start (w : CmdWord)
  /-- WR_FB (R202). -/
  | wrFb (off : Nat) (b : Byte)
  /-- RD_FB (R203). -/
  | rdFb (off : Nat)
  /-- WR_UID (index 2) (R204). -/
  | wrUid (u : Uid)
  /-- RD_UID (index 2) (R204). -/
  | rdUid
  /-- WR_RXEND (index 4) (R205). -/
  | wrRxEnd (t : Nat)
  /-- RD_RXEND (index 4) (R205). -/
  | rdRxEnd
  /-- RX_END_CAP (index 7) (R206): the written value is ignored. -/
  | rxEndCap
  /-- SETCNT (index 3) (R207). -/
  | setCnt (c : Byte)
  /-- The read of PENDING_COUNT (index 3) (R207). -/
  | rdCnt
  /-- RD_STATUS (index 1) (R208). -/
  | rdStatus
  /-- RD_NOW (index 5) (R209). -/
  | rdNow
  /-- RD_DIRSTAT (index 6) (R209). -/
  | rdDirstat
  /-- A write to an index the host may not write: 1, 5, 6, or one that does not exist. -/
  | forbiddenWrite (index : Nat)
  /-- A read of an index the host may not read: 0, 7, or one that does not exist. -/
  | forbiddenRead (index : Nat)
  deriving DecidableEq, Repr

/-- What a host read got back: the register index or the FB offset, and the value. -/
inductive HostAnswer where
  | reg (index : Nat) (value : Nat)
  | fb (off : Nat) (b : Byte)
  deriving DecidableEq, Repr

/-- One move of one agent (R72): the interleaving of the agents is a list of these. DESIGN CHOICE, assumption log 3. -/
inductive Move where
  /-- The sequencer executes the phase in SEQ, or one part of it where the phase can hold (R171). -/
  | sequencer
  /-- The clock counts one tick (R36). -/
  | tick
  /-- The host, or the receive path through the same accesses (R6, R206), makes an access. -/
  | host (a : HostAccess)
  /-- The host writes a value to a register index (R40). -/
  | regWrite (index value : Nat)
  /-- The host reads a register index (R40). -/
  | regRead (index : Nat)
  /-- The outside source drives PENDING_COUNT (R32). -/
  | pendingCount (c : Byte)
  /-- The serialiser drives `tx_ready` (R170). -/
  | txReady (level : Bool)
  /-- The serialiser drives `tx_idle` (R170). -/
  | txIdle (level : Bool)
  /-- The reset input is asserted and released (R250, R252). -/
  | reset
  deriving DecidableEq, Repr

/-- The whole state: the parameters the block was built with, the architectural state of rules R20 to R39, the
transmitter's ports (R170), the trace (R50), and the model's own fields, which follow the trace. -/
structure State where
  /-- The parameters (R8), carried so that every statement quantifies over them; no step changes them (R41). -/
  cfg          : Config
  /-- FB (R21). -/
  fb           : Memory
  /-- CMD_RTYPE (R22). -/
  cmdRtype     : Byte
  /-- CMD_VALUE (R23). -/
  cmdValue     : Word16
  /-- SEQ, the phase register and program counter (R24). -/
  seq          : SeqCode
  /-- LEN (R25). -/
  len          : Byte
  /-- CSUM (R26). -/
  csum         : Word16
  /-- IDX (R27). -/
  idx          : Index
  /-- T0 (R28). -/
  t0           : Nat
  /-- DLY (R29). -/
  dly          : Nat
  /-- STATUS (R30): bit 0 BUSY, 1 DONE, 2 SENT, 3 ABORTED. -/
  status       : BitVec 4
  /-- OWN_UID (R31): OWN_UID[0] is bits [47:40]. -/
  ownUid       : Uid
  /-- PENDING_COUNT (R32), an input. -/
  pendingCount : Byte
  /-- RX_END_TS (R33). -/
  rxEndTs      : Nat
  /-- NOW (R36). -/
  now          : Nat
  /-- DIR (R37) and the port `dir` (R170). -/
  dir          : Direction
  /-- PULLUP (R38) and the port `pullup` (R170). -/
  pullup       : Bool
  /-- TX_ACTIVE (R39). -/
  txActive     : Bool
  /-- The port `tx_data` (R170): the byte offered to the serialiser. -/
  txData       : Byte
  /-- The port `tx_valid` (R170): a byte is being offered. -/
  txValid      : Bool
  /-- The port `tx_ready` (R170), an input: the serialiser takes the offered byte now. -/
  txReady      : Bool
  /-- The port `tx_idle` (R170), an input: every byte taken so far has left the line completely. -/
  txIdle       : Bool
  /-- The delay of GATE or SETTLE has begun and is being waited out (R171 to R173, R180). DEDUCED, assumption log 6. -/
  delaying     : Bool
  /-- EV (R50), oldest event first. -/
  trace        : List Event
  /-- The model's own: the agents' moves still to come, next first. DESIGN CHOICE, assumption log 3. -/
  schedule     : List Move
  /-- The model's own: what the host's reads got back, oldest first. DESIGN CHOICE, assumption log 5. -/
  answers      : List HostAnswer
  /-- The model's own: how many free values have been drawn. DESIGN CHOICE, assumption log 14. -/
  draws        : Nat
  deriving DecidableEq, Repr

/-- Why the machine stops with a fault. The hardware has none (R220, R237); this is the model fault of rule R237 (c). -/
inductive Fault where
  /-- `UnwrittenRead`: DISPATCH, SWAP, CLASS, CSUM or SEND reads an FB byte that nothing has written since reset (R80,
  R237; U1, D24); SEND's hand-over also where a tick, or the fall of `tx_ready`, brings it (R178). Safe: the hardware
  goes on with bits no rule names, and the model stops. Assumption log 13. -/
  | unwrittenRead (off : Nat)
  deriving DecidableEq, Repr

/-- Why a step has no meaning. -/
inductive Refusal where
  /-- An instruction that `exec` rejects by name. Safe: the model stops. -/
  | notModelled (mnemonic : String)
  /-- WR_FB or RD_FB at an offset of FB_SIZE or more, which does not exist (R63, R237; U9). Safe: the model stops.
  Assumption log 15. -/
  | noSuchFbOffset (off : Nat)
  /-- A host access to a register index of 8 or more, which does not exist (R40, R237; U9). Safe: the model stops.
  Assumption log 15. -/
  | noSuchRegister (index : Nat)
  /-- The fetch meets SEQ code 12 to 15: "the state is not a state of this block" (R102). Safe: the model stops.
  Assumption log 16. -/
  | unreachableSeqCode (code : SeqCode)
  deriving DecidableEq, Repr

/-- What a meaning, a host access or a step answers. -/
abbrev Result := Host.Outcome State Fault Refusal

/-- The state after reset of a block built with the parameters `c` (R51, R250). Every register the spec leaves
unspecified holds the value of assumption log 11 (DESIGN CHOICE, unsafe); no FB byte has a value (log 13). -/
def State.resetWith (c : Config) : State :=
  { cfg := c, fb := [], cmdRtype := 0#8, cmdValue := 0#16, seq := SeqCode.idle, len := 0#8, csum := 0#16,
    idx := 0#9, t0 := 0, dly := 0, status := 0#4, ownUid := 0#48, pendingCount := 0#8, rxEndTs := 0, now := 0,
    dir := .input, pullup := c.pullupIn, txActive := false, txData := 0#8, txValid := false, txReady := false,
    txIdle := true, delaying := false, trace := [], schedule := [], answers := [], draws := 0 }

/-- The state after reset with the default parameters. -/
def State.reset : State := State.resetWith Config.defaults

end Sys2Proof.Machine
end

