-- ==== Sys2Proof/Machine/Flags.lean ====
section
/-! DEFINITION. The flags of STATUS (R30): their places and every way they are written. No operation of the encoder
sets a flag (R149). -/

namespace Sys2Proof.Machine

/-- BUSY, bit 0 (R30). -/
def State.busy (s : State) : Bool := s.status.getLsbD 0

/-- DONE, bit 1 (R30). -/
def State.done (s : State) : Bool := s.status.getLsbD 1

/-- SENT, bit 2 (R30). -/
def State.sent (s : State) : Bool := s.status.getLsbD 2

/-- ABORTED, bit 3 (R30). -/
def State.aborted (s : State) : Bool := s.status.getLsbD 3

/-- A command start: BUSY <- 1 ; DONE <- 0 ; SENT <- 0 ; ABORTED <- 0 (R201). -/
def statusStarted : BitVec 4 := 0b0001#4

/-- SENT <- 1 ; DONE <- 1 ; BUSY <- 0 (R182); ABORTED keeps its value. -/
def statusSent (v : BitVec 4) : BitVec 4 := (v ||| 0b0110#4) &&& 0b1110#4

/-- ABORTED <- 1 ; DONE <- 1 ; BUSY <- 0 (R142); SENT keeps its value. -/
def statusAborted (v : BitVec 4) : BitVec 4 := (v ||| 0b1010#4) &&& 0b1110#4

end Sys2Proof.Machine
end

