-- ==== Sys2Proof/Machine/Operands.lean ====
section
/-! DEFINITION. The operand forms: byte halves and UID bytes (R10, R31, R65), the arithmetic of time (R11, R174), the
addressing forms of rule R151, and the register views the host reads (R40). -/

namespace Sys2Proof.Machine

/-- hi8(v) = v[15:8] (R10). -/
def hi8 (v : Word16) : Byte := v.extractLsb' 8 8

/-- lo8(v) = v[7:0] (R10). -/
def lo8 (v : Word16) : Byte := v.extractLsb' 0 8

/-- OWN_UID[i], i = 0 to 5: OWN_UID[0] is bits [47:40], OWN_UID[5] bits [7:0] (R31, R40). -/
def uidByte (u : Uid) (i : Nat) : Byte := u.extractLsb' (40 - 8 * i) 8

/-- trunc_W(v): the low W bits (R11). -/
def tickTrunc (w : Nat) (v : Nat) : Nat := v % 2 ^ w

/-- `a -_W b`: subtraction modulo 2^W (R11, R174). -/
def tickSub (w : Nat) (a b : Nat) : Nat := (a % 2 ^ w + (2 ^ w - b % 2 ^ w)) % 2 ^ w

/-- One count of the clock, modulo 2^W (R36). -/
def tickSucc (w : Nat) (a : Nat) : Nat := (a + 1) % 2 ^ w

/-- The value PENDING_COUNT takes from a wider one: its low COUNT_WIDTH bits (R8, R32). -/
def countOf (c : Config) (v : Nat) : Byte := BitVec.ofNat 8 (v % 2 ^ c.countWidth)

/-- zext_9(LEN) (R146, R147). -/
def State.lenIndex (s : State) : Index := s.len.setWidth 9

/-- zext_9(LEN) + 2, the 9-bit transmit count (R99, R177). -/
def State.sendCount (s : State) : Index := s.lenIndex + 2#9

/-- `NOW -_W RX_END_TS`: the ticks elapsed since the end of the inbound frame (R173). -/
def State.elapsed (s : State) : Nat := tickSub s.cfg.timeWidth s.now s.rxEndTs

/-- `NOW -_W T0`: the ticks elapsed since the current delay began (R172). -/
def State.waited (s : State) : Nat := tickSub s.cfg.timeWidth s.now s.t0

/-- The bit of a direction: 0 is INPUT, 1 is OUTPUT (R104). -/
def Direction.bit : Direction → Bool
  | .input => false
  | .output => true

/-- DIRSTAT: [0] DIR, [1] PULLUP (R40). -/
def State.dirstat (s : State) : BitVec 2 := BitVec.ofBool s.pullup ++ BitVec.ofBool s.dir.bit

end Sys2Proof.Machine
end

