-- ==== Sys2Proof/Machine/Ops.lean ====
section
/-! DEFINITION. The named operations over the frame buffer and the registers that the meanings share. The block raises
and takes no exception (R220, R226, R227): there is no trap entry and no return from one; the one error path is the
silent abort, `State.abortCommand`. -/

namespace Sys2Proof.Machine

/-! The frame buffer. -/

/-- The byte at an offset, where one has been written (R12, R51). -/
def Memory.read : Memory → Nat → Option Byte
  | [], _ => none
  | (x, v) :: rest, a => if x = a then some v else Memory.read rest a

/-- `FB[a] <- b` (R12), keeping the offsets strictly rising. -/
def Memory.write : Memory → Nat → Byte → Memory
  | [], a, b => [(a, b)]
  | (x, v) :: rest, a, b =>
    if a < x then (a, b) :: (x, v) :: rest
    else if a = x then (a, b) :: rest
    else (x, v) :: Memory.write rest a b

/-- The canonical form: strictly rising offsets. An unlisted offset reads as no value, which no entry equals. -/
def Memory.wf : Memory → Bool
  | [] => true
  | [_] => true
  | (x, _) :: (y, v) :: rest => decide (x < y) && Memory.wf ((y, v) :: rest)

/-- A phase's read of FB[a]: a byte that nothing has written is the model fault `UnwrittenRead` (R80, R237). -/
def Memory.load (m : Memory) (a : Nat) : Except Fault Byte :=
  match Memory.read m a with
  | some b => .ok b
  | none => .error (.unwrittenRead a)

/-- `MemWrite16BE(a, v)`: the high byte at `a`, the low byte at `a + 1`, in that order (R12, R65). -/
def Memory.write16be (m : Memory) (a : Nat) (v : Word16) : Memory :=
  Memory.write (Memory.write m a (hi8 v)) (a + 1) (lo8 v)

/-- The bytes added to `acc` with `+_16`, `count` of them from offset `off` on, ascending (R146, R148). -/
def Memory.sum (m : Memory) : (count off : Nat) → (acc : Word16) → Except Fault Word16
  | 0, _, acc => .ok acc
  | count + 1, off, acc =>
    match Memory.load m off with
    | .ok b => Memory.sum m count (off + 1) (acc + b.setWidth 16)
    | .error e => .error e

/-- The loop of SWAP from index `i` on, `count` more turns: each old source byte is read before it is overwritten
(R144, R260). -/
def Memory.swapUid (c : Config) (u : Uid) : (count i : Nat) → Memory → Except Fault Memory
  | 0, _, m => .ok m
  | count + 1, i, m =>
    match Memory.load m (c.offSrc + i) with
    | .ok b =>
      Memory.swapUid c u count (i + 1)
        (Memory.write (Memory.write m (c.offDst + i) b) (c.offSrc + i) (uidByte u i))
    | .error e => .error e

/-- The stores of DISPATCH on the NACK_REASON and ACK_TIMER paths, in the order of rule R142. -/
def Memory.storeValueResponse (c : Config) (m : Memory) (rtype : Byte) (value : Word16) : Memory :=
  Memory.write16be
    (Memory.write
      (Memory.write
        (Memory.write m c.offMl c.valueLength)
        c.offRt rtype)
      c.offPdl (BitVec.ofNat 8 Config.valueSize))
    c.offPd value

/-! Registers. -/

/-- `SEQ <- P` (R12). -/
def State.enter (s : State) (phase : SeqCode) : State := { s with seq := phase }

/-- `FB[a] <- b` (R12). -/
def State.storeFb (s : State) (a : Nat) (b : Byte) : State := { s with fb := Memory.write s.fb a b }

/-- `emit E` (R12, R50). -/
def State.emit (s : State) (e : Event) : State := { s with trace := s.trace ++ [e] }

/-- The document's `SetDirection(d, p)`: DIR and PULLUP are written together and the event is recorded (R37, R38,
R175, R182). -/
def State.setLine (s : State) (d : Direction) (p : Bool) : State :=
  State.emit { s with dir := d, pullup := p } (.dir s.now d p)

/-- A phase that goes on with what it read, or faults where it read a byte that has no value. -/
def withRead {α : Type} (r : Except Fault α) (k : α → Result) : Result :=
  match r with
  | .ok a => k a
  | .error e => .fault e

/-- The answer of a meaning with a function applied to the state it gives. -/
def mapNext (f : State → State) : Result → Result
  | .next t => .next (f t)
  | .fault r => .fault r
  | .refused r => .refused r

/-! What a command does at its start, at its abort and at its end. -/

/-- START (R201): while BUSY = 0 the command is latched and starts at STAMP; while BUSY = 1 the write is dropped. The
shared part of the four commands' meanings. -/
def State.startCommand (s : State) (rtype : Byte) (value : Word16) : State :=
  if s.busy then s
  else { s with cmdRtype := rtype, cmdValue := value, status := statusStarted, seq := SeqCode.stamp }

/-- The silent abort (R125, R142, R226). -/
def State.abortCommand (s : State) : State :=
  { s with status := statusAborted s.status, seq := SeqCode.idle }

/-- The end of DISPATCH on the supported types: `LEN <- FB[OFF_ML] ; SEQ <- SWAP` (R142, R143). -/
def latchLength (s : State) : Result :=
  withRead (Memory.load s.fb s.cfg.offMl) fun b => .next (State.enter { s with len := b } SeqCode.swap)

/-! The delay primitive (R172). -/

/-- `T0 <- NOW ; DLY <- n`, and the wait begins: it ends at once when `n` is 0 (R172), going on to `phase`. -/
def State.beginDelay (s : State) (n : Nat) (phase : SeqCode) : State :=
  if n = 0 then State.enter { s with t0 := s.now, dly := 0 } phase
  else { s with t0 := s.now, dly := n, delaying := true }

/-- `wait until (NOW -_W T0) >= DLY` (R172): while the condition is false the sequencer changes no state (R171). -/
def State.awaitDelay (s : State) (phase : SeqCode) : State :=
  if s.dly ≤ s.waited then State.enter { s with delaying := false } phase else s

/-! The byte handshake (R177, R178). -/

/-- `tx_data <- FB[IDX] ; tx_valid <- 1` (R177). -/
def offerByte (s : State) : Result :=
  withRead (Memory.load s.fb s.idx.toNat) fun b => .next { s with txData := b, txValid := true }

/-- The offered byte has been taken: the event, `IDX <- IDX + 1`, and `tx_idle` falls, since it means "the serialiser
holds no byte" (R178; DEDUCED, assumption log 7). -/
def State.byteTaken (s : State) (b : Byte) : State :=
  State.emit { s with idx := s.idx + 1#9, txIdle := false } (.tx s.now s.idx.toNat b)

/-- A byte is transferred: `emit Tx(NOW, IDX, FB[IDX]) ; IDX <- IDX + 1`, and the next byte is offered or, after the
last, `tx_valid <- 0` (R177). -/
def handOver (s : State) : Result :=
  withRead (Memory.load s.fb s.idx.toNat) fun b =>
    if s.idx + 1#9 < s.sendCount then offerByte (State.byteTaken s b)
    else .next { State.byteTaken s b with txValid := false }

/-- `TX_ACTIVE <- 0 ; emit TxDone(NOW) ; SEQ <- SETTLE` (R177), and with it the start of SETTLE's delay: T0 is "the
time at which the transmitter reported the last byte sent" (R28, R74), DLY is T_DIRSW_US (R29). Assumption log 10. -/
def State.sendDone (s : State) : State :=
  State.enter
    (State.emit { s with txActive := false, txValid := false, t0 := s.now, dly := s.cfg.dirSwitch, delaying := true }
      (.txDone s.now))
    SeqCode.settle

/-! What the serialiser's levels bring about by themselves (R178, R45). Assumption log 9. -/

/-- "A byte is transferred in the tick where `tx_valid` = 1 and `tx_ready` = 1" (R178): a tick in which the byte has not
been handed over yet, or a `tx_ready` about to fall, does not pass without it. It is SEND's own hand-over, so `tx_valid`
stays 1 with the next byte offered until IDX is LEN + 2 (R177), and a next byte that has no value stops it (R80). -/
def takeOffered (s : State) : Result :=
  if s.txValid = true ∧ s.txReady = true then handOver s else .next s

/-- "Serialiser: clears TX_ACTIVE through `tx_idle`" (R45): where SEND has handed every byte over, a tick in which
`tx_idle` = 1, or a `tx_idle` about to fall, does not pass without `TxDone`, so its stamp is the time of the report
(R50, R28). -/
def State.seeReport (s : State) : State :=
  if s.txActive = true ∧ s.txValid = false ∧ s.sendCount ≤ s.idx ∧ s.txIdle = true then State.sendDone s else s

/-- A tick ends: what the serialiser's levels have brought about in it, and then NOW counts (R36, R178). -/
def countTick (s : State) : Result :=
  mapNext
    (fun t => { State.seeReport t with now := tickSucc (State.seeReport t).cfg.timeWidth (State.seeReport t).now })
    (takeOffered s)

/-- The serialiser drives `tx_ready` (R170, R178). -/
def driveReady (s : State) (level : Bool) : Result :=
  mapNext (fun t => { t with txReady := level }) (if level then .next s else takeOffered s)

/-- The serialiser drives `tx_idle` (R170, R178). -/
def State.driveIdle (s : State) (level : Bool) : State :=
  { (if level then s else State.seeReport s) with txIdle := level }

end Sys2Proof.Machine
end

