-- ==== Sys2Proof/Machine/Commands.lean ====
section
/-! DEFINITION. The meanings of the four command words (R122 to R125) and of IDLE (R120). A command word's own effect is
START (R201): it latches the type and the value and sets SEQ to STAMP; the rest of the command is the phases, which
read what was latched (R121). -/

namespace Sys2Proof.Machine

/-- RESPOND_ACK (R122, R201): CMD_RTYPE <- RT_ACK ; CMD_VALUE <- word[15:0] ; the command starts. -/
def execRespondAck (value : Word16) (s : State) : Result :=
  .next (State.startCommand s s.cfg.rtAck value)

/-- RESPOND_ACK_TIMER (R123, R201). -/
def execRespondAckTimer (value : Word16) (s : State) : Result :=
  .next (State.startCommand s s.cfg.rtAckTimer value)

/-- RESPOND_NACK (R124, R201). -/
def execRespondNack (value : Word16) (s : State) : Result :=
  .next (State.startCommand s s.cfg.rtNackReason value)

/-- RESPOND_RAW (R125, R201): the type is latched as it stands. -/
def execRespondRaw (rtype : Byte) (value : Word16) (s : State) : Result :=
  .next (State.startCommand s rtype value)

/-- IDLE (R120): "the sequencer takes no step, reads nothing and writes nothing". -/
def execIdle (s : State) : Result := .next s

end Sys2Proof.Machine
end

