-- ==== Sys2Proof/Machine/Encoder.lean ====
section
/-! DEFINITION. The meanings of the frame encoder's phases: STAMP, DISPATCH, SWAP, CLASS, CSUM, APPEND
(41_frame_encoder.md). Each is one step: "each phase is atomic as far as any other agent can tell" (R140). DESIGN
CHOICE, assumption log 8. -/

namespace Sys2Proof.Machine

/-- STAMP (R141). -/
def execStamp (s : State) : Result :=
  .next (State.enter (State.storeFb s s.cfg.offMc s.pendingCount) SeqCode.dispatch)

/-- DISPATCH (R142, R143). -/
def execDispatch (s : State) : Result :=
  if s.cmdRtype = s.cfg.rtAck then latchLength (State.storeFb s s.cfg.offRt s.cfg.rtAck)
  else if s.cmdRtype = s.cfg.rtAckTimer ∨ s.cmdRtype = s.cfg.rtNackReason then
    latchLength { s with fb := Memory.storeValueResponse s.cfg s.fb s.cmdRtype s.cmdValue }
  else .next (State.abortCommand s)

/-- SWAP (R144). -/
def execSwap (s : State) : Result :=
  withRead (Memory.swapUid s.cfg s.ownUid Config.uidSize 0 s.fb) fun m =>
    .next (State.enter { s with fb := m } SeqCode.classAdvance)

/-- CLASS (R145). -/
def execClass (s : State) : Result :=
  withRead (Memory.load s.fb s.cfg.offCc) fun b =>
    .next (State.enter (State.storeFb s s.cfg.offCc (b + BitVec.ofNat 8 Config.ccStep)) SeqCode.csum)

/-- CSUM (R146): the sum from 0 over FB[0 .. LEN-1], and IDX ends at LEN. -/
def execCsum (s : State) : Result :=
  withRead (Memory.sum s.fb s.lenIndex.toNat 0 0#16) fun v =>
    .next (State.enter { s with csum := v, idx := s.lenIndex } SeqCode.append)

/-- APPEND (R147): the offsets are formed in 9 bits. -/
def execAppend (s : State) : Result :=
  .next (State.enter
    (State.storeFb (State.storeFb s s.lenIndex.toNat (hi8 s.csum)) (s.lenIndex + 1#9).toNat (lo8 s.csum))
    SeqCode.gate)

end Sys2Proof.Machine
end

