-- ==== Sys2Proof/Machine/Transmit.lean ====
section
/-! DEFINITION. The meanings of the bus arbiter's and the transmitter's phases: GATE, DIR_OUT, SEND, SETTLE, DIR_IN
(42_bus_timing_tx.md). GATE, SEND and SETTLE can hold (R171): such a phase takes one of its parts a step, and a hold is
a next state in which nothing has changed. DESIGN CHOICE, assumption logs 9 and 10. -/

namespace Sys2Proof.Machine

/-- GATE (R173). On entry NOW is sampled into T0 and the elapsed ticks decide whether a delay begins; where
E >= T_SPACING_US, DLY <- 0 and no wait is taken. -/
def execGate (s : State) : Result :=
  if s.delaying then .next (State.awaitDelay s SeqCode.dirOut)
  else if s.elapsed < s.cfg.spacing then
    .next (State.beginDelay s (s.cfg.spacing - s.elapsed) SeqCode.dirOut)
  else .next (State.beginDelay s 0 SeqCode.dirOut)

/-- DIR_OUT (R175). -/
def execDirOut (s : State) : Result :=
  .next (State.enter (State.setLine s .output s.cfg.pullupOut) SeqCode.send)

/-- SEND (R177). On entry IDX <- 0, TX_ACTIVE <- 1 and byte 0 is offered; then a byte is handed over whenever
`tx_ready` is 1; after byte LEN + 1 the phase ends once `tx_idle` is 1. Where a tick ended first, the transfer and
the next offer, or the report, have happened already (`takeOffered`, `State.seeReport`). No run reaches SEND with bytes
left and nothing offered (`State.Inv`); there it offers FB[IDX], as at the head of the loop. -/
def execSend (s : State) : Result :=
  if s.txActive = false then offerByte { s with idx := 0#9, txActive := true }
  else if s.idx < s.sendCount then
    if s.txValid = false then offerByte s
    else if s.txReady then handOver s
    else .next s
  else if s.txIdle then .next (State.sendDone s)
  else .next { s with txValid := false }

/-- SETTLE (R180): `Delay(T_DIRSW_US)`. After SEND the delay has begun with `TxDone` (`State.sendDone`), which took its
sample of NOW, and SETTLE waits it out; the other branch is the delay from its beginning, as rule R180 writes it.
Assumption log 10. -/
def execSettle (s : State) : Result :=
  if s.delaying then .next (State.awaitDelay s SeqCode.dirIn)
  else .next (State.beginDelay s s.cfg.dirSwitch SeqCode.dirIn)

/-- DIR_IN (R182). -/
def execDirIn (s : State) : Result :=
  .next (State.enter { State.setLine s .input s.cfg.pullupIn with status := statusSent s.status } SeqCode.idle)

end Sys2Proof.Machine
end

