-- ==== Sys2Proof/Machine/Dispatch.lean ====
section
/-! DEFINITION. One arm per instruction. -/

namespace Sys2Proof.Machine

def exec (i : Instr) (s : State) : Host.Outcome State Fault Refusal :=
  match i with
  | .respondAck value => Sys2Proof.Machine.execRespondAck value s
  | .respondAckTimer value => Sys2Proof.Machine.execRespondAckTimer value s
  | .respondNack value => Sys2Proof.Machine.execRespondNack value s
  | .respondRaw rtype value => Sys2Proof.Machine.execRespondRaw rtype value s
  | .idle => Sys2Proof.Machine.execIdle s
  | .stamp => Sys2Proof.Machine.execStamp s
  | .dispatch => Sys2Proof.Machine.execDispatch s
  | .swap => Sys2Proof.Machine.execSwap s
  | .classAdvance => Sys2Proof.Machine.execClass s
  | .csum => Sys2Proof.Machine.execCsum s
  | .append => Sys2Proof.Machine.execAppend s
  | .gate => Sys2Proof.Machine.execGate s
  | .dirOut => Sys2Proof.Machine.execDirOut s
  | .send => Sys2Proof.Machine.execSend s
  | .settle => Sys2Proof.Machine.execSettle s
  | .dirIn => Sys2Proof.Machine.execDirIn s

end Sys2Proof.Machine
end

