-- ==== Sys2Proof/Machine/HostPort.lean ====
section
/-! DEFINITION. The host's accesses (43_host_interface.md) and the register index table (R40). No access traps, faults
or stalls (R210): a forbidden write is dropped, a forbidden read gets an unspecified value, which is a free value here.
An offset or an index that does not exist is refused by name (U9, R237). Assumption logs 14, 15 and 20. -/

namespace Sys2Proof.Machine

/-- The access that writing `value` to a register index is (R40); a value wider than the register loses its upper
bits. -/
def HostAccess.ofWrite (c : Config) (index value : Nat) : HostAccess :=
  match index with
  | 0 => .start (BitVec.ofNat 24 value)
  | 2 => .wrUid (BitVec.ofNat 48 value)
  | 3 => .setCnt (countOf c value)
  | 4 => .wrRxEnd value
  | 7 => .rxEndCap
  | other => .forbiddenWrite other

/-- The access that reading a register index is (R40). -/
def HostAccess.ofRead (index : Nat) : HostAccess :=
  match index with
  | 1 => .rdStatus
  | 2 => .rdUid
  | 3 => .rdCnt
  | 4 => .rdRxEnd
  | 5 => .rdNow
  | 6 => .rdDirstat
  | other => .forbiddenRead other

/-- A host write that is dropped while BUSY = 1 (R72, R202 to R206). -/
def State.idleWrite (s t : State) : State := if s.busy then s else t

/-- What the host gets back is recorded; a read has no other effect (R70). -/
def State.answer (s : State) (a : HostAnswer) : State := { s with answers := s.answers ++ [a] }

/-- An unspecified byte of FB: a fresh free value (R203; U1, U8). -/
def State.answerFreeByte (s : State) (off : Nat) : State :=
  State.answer { s with draws := s.draws + 1 } (.fb off ((Config.freeValue s.draws).setWidth 8))

/-- An unspecified register value: a fresh free value (R210). -/
def State.answerFreeReg (s : State) (index : Nat) : State :=
  State.answer { s with draws := s.draws + 1 } (.reg index (Config.freeValue s.draws).toNat)

/-- RD_FB at an offset that exists (R203): the byte, or an unspecified value while BUSY = 1 or where nothing has been
written since reset. -/
def State.readFbByte (s : State) (off : Nat) : State :=
  if s.busy then State.answerFreeByte s off
  else
    match Memory.read s.fb off with
    | some b => State.answer s (.fb off b)
    | none => State.answerFreeByte s off

/-- What a step has to do: run an instruction in a state, or answer a move that is no instruction. -/
inductive Fetched where
  | run (i : Instr) (s : State)
  | moved (r : Result)

/-- A host access (R200 to R210). A write to CMD brings an instruction; the other accesses are answered here. -/
def hostAccess (a : HostAccess) (s : State) : Fetched :=
  match a with
  | .start w => .run (decodeCmd s.cfg w) s
  | .wrFb off b =>
    .moved (if off < s.cfg.fbSize then .next (State.idleWrite s (State.storeFb s off b)) else .refused (.noSuchFbOffset off))
  | .rdFb off =>
    .moved (if off < s.cfg.fbSize then .next (State.readFbByte s off) else .refused (.noSuchFbOffset off))
  | .wrUid u => .moved (.next (State.idleWrite s { s with ownUid := u }))
  | .rdUid => .moved (.next (State.answer s (.reg 2 s.ownUid.toNat)))
  | .wrRxEnd t => .moved (.next (State.idleWrite s { s with rxEndTs := tickTrunc s.cfg.timeWidth t }))
  | .rdRxEnd => .moved (.next (State.answer s (.reg 4 s.rxEndTs)))
  | .rxEndCap => .moved (.next (State.idleWrite s { s with rxEndTs := s.now }))
  | .setCnt c => .moved (.next { s with pendingCount := c })
  | .rdCnt => .moved (.next (State.answer s (.reg 3 s.pendingCount.toNat)))
  | .rdStatus => .moved (.next (State.answer s (.reg 1 s.status.toNat)))
  | .rdNow => .moved (.next (State.answer s (.reg 5 s.now)))
  | .rdDirstat => .moved (.next (State.answer s (.reg 6 s.dirstat.toNat)))
  | .forbiddenWrite index => .moved (if index < 8 then .next s else .refused (.noSuchRegister index))
  | .forbiddenRead index =>
    .moved (if index < 8 then .next (State.answerFreeReg s index) else .refused (.noSuchRegister index))

end Sys2Proof.Machine
end

