-- ==== Sys2Proof/Machine/Fetch.lean ====
section
/-! DEFINITION. Whose move is next, and which instruction it brings. The block fetches no instruction from memory (R77):
a command word arrives by a host write to CMD, and the sequencer's instruction is the phase whose code SEQ holds
(R24). -/

namespace Sys2Proof.Machine

/-- The sequencer's turn: the phase in SEQ. A code of 12 to 15 is no state of this block (R102). Assumption log 16. -/
def fetchPhase (s : State) : Fetched :=
  match decodeSeq s.seq with
  | .ok i => .run i s
  | .rejected (.unreachableSeqCode code) => .moved (.refused (.unreachableSeqCode code))

/-- The reset input (R250, R252): the reset state of rule R51. NOW "counts from whatever it holds" (R51); the inputs
keep what the outside drives, and the model's own fields go on. DESIGN CHOICE, assumption log 12. -/
def State.resetInput (s : State) : State :=
  { State.resetWith s.cfg with
    now := s.now, pendingCount := s.pendingCount, txReady := s.txReady, txIdle := s.txIdle,
    schedule := s.schedule, answers := s.answers, draws := s.draws }

/-- One move of an agent (R72). -/
def fetchMove (m : Move) (s : State) : Fetched :=
  match m with
  | .sequencer => fetchPhase s
  | .tick => .moved (countTick s)
  | .host a => hostAccess a s
  | .regWrite index value => hostAccess (HostAccess.ofWrite s.cfg index value) s
  | .regRead index => hostAccess (HostAccess.ofRead index) s
  | .pendingCount c => .moved (.next { s with pendingCount := c })
  | .txReady level => .moved (driveReady s level)
  | .txIdle level => .moved (.next (State.driveIdle s level))
  | .reset => .moved (.next (State.resetInput s))

/-- The next move of the schedule; when no outside move is left, it is the sequencer's turn. DESIGN CHOICE, assumption
log 3. -/
def fetch (s : State) : Fetched :=
  match s.schedule with
  | [] => fetchPhase s
  | m :: rest => fetchMove m { s with schedule := rest }

end Sys2Proof.Machine
end

