-- ==== Sys2Proof/Machine/Step.lean ====
section
/-! DEFINITION. One step of the machine: one move of one agent. -/

namespace Sys2Proof.Machine

/-- One step: the next agent's move; where it brings an instruction, that is what `exec` does with it. -/
def step (s : State) : Host.Outcome State Fault Refusal :=
  match fetch s with
  | .run i t => exec i t
  | .moved r => r

/-- The state in which the very next step runs the instruction whose opcode-table word is `w`: a 24-bit command word is
the host's next access, a write to CMD; a SEQ code stands in SEQ and the sequencer moves next. DESIGN CHOICE, assumption
log 4. -/
def State.withFetchWord (s : State) (nbits w : Nat) : State :=
  if nbits = 24 then { s with schedule := .host (.start (BitVec.ofNat 24 w)) :: s.schedule }
  else { s with seq := BitVec.ofNat 4 w, schedule := .sequencer :: s.schedule }

end Sys2Proof.Machine
end

