-- ==== Sys2Proof/Machine/Respond.lean ====
section
/-! DEFINITION. The command as one function: `Respond` of rule R126, written from that rule's own pseudocode over the
frame buffer alone, apart from the phases. -/

namespace Sys2Proof.Machine

/-- The bytes of FB[off .. off+count-1] as they are sent (R66, R126). -/
def Memory.bytes (m : Memory) : (count off : Nat) → Except Fault (List Byte)
  | 0, _ => .ok []
  | count + 1, off =>
    match Memory.load m off with
    | .ok b =>
      match Memory.bytes m count (off + 1) with
      | .ok rest => .ok (b :: rest)
      | .error e => .error e
    | .error e => .error e

/-- `Respond` from `len <- fb[OFF_ML]` on (R126): the swap, the class, the sum, the append and the list of bytes. -/
def respondFrom (c : Config) (fb : Memory) (u : Uid) : Except Fault (Memory × Option (List Byte)) := do
  let len ← Memory.load fb c.offMl
  let fb ← Memory.swapUid c u Config.uidSize 0 fb
  let cc ← Memory.load fb c.offCc
  let fb := Memory.write fb c.offCc (cc + 1#8)
  let sum ← Memory.sum fb len.toNat 0 0#16
  let fb := Memory.write16be fb len.toNat sum
  let sent ← Memory.bytes fb (len.toNat + 2) 0
  return (fb, some sent)

/-- `Respond(fb, t, v, u, c)` (R126): FB when the command returns, and the bytes of its `Tx` events or `none`. -/
def respond (c : Config) (fb : Memory) (t : Byte) (v : Word16) (u : Uid) (count : Byte) :
    Except Fault (Memory × Option (List Byte)) :=
  let fb := Memory.write fb c.offMc count
  if t = c.rtAck then respondFrom c (Memory.write fb c.offRt c.rtAck) u
  else if t = c.rtAckTimer ∨ t = c.rtNackReason then
    respondFrom c
      (Memory.write16be
        (Memory.write (Memory.write (Memory.write fb c.offMl c.valueLength) c.offRt t) c.offPdl 2#8)
        c.offPd v)
      u
  else .ok (fb, none)

/-! The document's testable properties, one definition for each row of rule R127's table. `before` is FB at the start
of the command, `fb` FB when it returns, `tx` the bytes sent. -/

/-- The length `len` of rule R126: the caller's byte on the ACK path, MIN_SIZE + 2 on the others. -/
def responseLength (c : Config) (before : Memory) (t : Byte) : Option Byte :=
  if t = c.rtAck then Memory.read before c.offMl else some c.valueLength

/-- "Checksum correctness" (R127): `{tx[L], tx[L+1]}` is the sum of `tx[0 .. L-1]` modulo 65536, high byte first, and
nothing follows. -/
def ChecksumCorrect (len : Nat) (tx : List Byte) : Prop :=
  ∃ (message : List Byte) (sum : Word16), tx = message ++ [hi8 sum, lo8 sum] ∧ message.length = len ∧
    sum.toNat = (message.map BitVec.toNat).sum % 65536

/-- "UID swap correctness" (R127): `destination_uid` is the original `source_uid`, and `source_uid` is OWN_UID. -/
def UidSwapCorrect (c : Config) (before fb : Memory) (u : Uid) : Prop :=
  ∀ i, i < Config.uidSize → Memory.read fb (c.offDst + i) = Memory.read before (c.offSrc + i) ∧
    Memory.read fb (c.offSrc + i) = some (uidByte u i)

/-- "Command-class advance" (R127): output `command_class` = input `command_class` +_8 1. -/
def CommandClassAdvanced (c : Config) (before fb : Memory) : Prop :=
  ∃ b, Memory.read before c.offCc = some b ∧ Memory.read fb c.offCc = some (b + 1#8)

/-- "Length policy" (R127): an ACK leaves `message_length`; the others set it to MIN_SIZE + 2, `param_data_length` to 2
and `param_data` to VALUE, big-endian. -/
def LengthPolicy (c : Config) (before fb : Memory) (t : Byte) (v : Word16) : Prop :=
  if t = c.rtAck then Memory.read fb c.offMl = Memory.read before c.offMl
  else Memory.read fb c.offMl = some c.valueLength ∧ Memory.read fb c.offPdl = some 2#8 ∧
    Memory.read fb c.offPd = some (hi8 v) ∧ Memory.read fb (c.offPd + 1) = some (lo8 v)

/-- "Silent-abort property" (R127): the trace of the command, between its start in `s` and its return in `t`, has no
event, and the direction line is as it was. -/
def SilentAbort (s t : State) : Prop := t.trace = s.trace ∧ t.dir = s.dir ∧ t.pullup = s.pullup

/-- "Timing property" (R127): an event handed over or a line driven from `s` on comes at least T_SPACING_US ticks after
RX_END_TS. -/
def TimingProperty (s : State) (e : Event) : Prop :=
  match e with
  | .dir u .output _ => s.cfg.spacing ≤ tickSub s.cfg.timeWidth u s.rxEndTs
  | .tx u _ _ => s.cfg.spacing ≤ tickSub s.cfg.timeWidth u s.rxEndTs
  | _ => True

/-- "Direction restoration" (R127): after a non-aborted command has returned, DIR = INPUT. -/
def DirectionRestored (s : State) : Prop := s.busy = false → s.sent = true → s.dir = .input

end Sys2Proof.Machine
end

