-- ==== Sys2Proof/Safety.lean ====
section
/-! DEFINITION. What counts as a legal state (R52 and what it rests on), what a run is, and the views the statements
speak through. -/

namespace Sys2Proof.Machine

/-- The phases in which the line is driven: "DIR = OUTPUT only when SEQ is SEND, SETTLE or DIR_IN" (R52). -/
def State.drivesLine (s : State) : Prop :=
  s.seq = SeqCode.send ∨ s.seq = SeqCode.settle ∨ s.seq = SeqCode.dirIn

/-- The states a block can be in: rule R52, with the facts about the other registers that it rests on. -/
structure State.Inv (s : State) : Prop where
  /-- The parameters are consistent (R256). -/
  cfgValid : s.cfg.valid = true
  /-- The frame buffer keeps its canonical form. -/
  fbWf : Memory.wf s.fb = true
  /-- No byte outside FB has a value (R60). -/
  fbInside : ∀ a, s.cfg.fbSize ≤ a → Memory.read s.fb a = none
  /-- "Codes 12 to 15 are never held" (R24). -/
  seqCode : s.seq.toNat < 12
  /-- R52 (a). -/
  busyIff : s.busy = true ↔ s.seq ≠ SeqCode.idle
  /-- STATUS is 0 after reset, BUSY alone during a command, DONE with exactly one of SENT and ABORTED after it (R30). -/
  statusLegal : s.status = 0b0000#4 ∨ s.status = 0b0001#4 ∨ s.status = 0b0110#4 ∨ s.status = 0b1010#4
  /-- R52 (b), with its converse: the line is driven exactly in those phases. -/
  dirIff : s.dir = .output ↔ s.drivesLine
  /-- PULLUP is the argument of the last `SetDirection` (R38). -/
  pullupEq : s.pullup = if s.dir = .output then s.cfg.pullupOut else s.cfg.pullupIn
  /-- R52 (c). -/
  txActiveSend : s.txActive = true → s.seq = SeqCode.send
  /-- IDX stays within 0 to LEN + 2 while SEND runs (R27). -/
  idxBound : s.txActive = true → s.idx.toNat ≤ s.len.toNat + 2
  /-- A byte is offered only while SEND runs, and it is FB[IDX] (R177). -/
  offered : s.txValid = true →
    s.txActive = true ∧ s.idx.toNat < s.len.toNat + 2 ∧ Memory.read s.fb s.idx.toNat = some s.txData
  /-- `tx_valid` is 1 from SEND's entry until IDX has reached LEN + 2 (R177). -/
  offering : s.txActive = true → s.idx.toNat < s.len.toNat + 2 → s.txValid = true
  /-- Only GATE and SETTLE wait out a delay (R171). -/
  delayPhase : s.delaying = true → s.seq = SeqCode.gate ∨ s.seq = SeqCode.settle
  /-- While GATE waits, T0 and DLY are what it computed on entry (R173). -/
  gateDelay : s.delaying = true → s.seq = SeqCode.gate →
    tickSub s.cfg.timeWidth s.t0 s.rxEndTs < s.cfg.spacing ∧
      s.dly = s.cfg.spacing - tickSub s.cfg.timeWidth s.t0 s.rxEndTs
  /-- SETTLE's delay begins with `TxDone` (R28, R74), and while it waits DLY is T_DIRSW_US (R29, R180). -/
  settleBegun : s.seq = SeqCode.settle → s.delaying = true
  settleDelay : s.seq = SeqCode.settle → s.dly = s.cfg.dirSwitch
  /-- The four time registers hold W-bit values (R28, R29, R33, R36). -/
  nowBound : s.now < 2 ^ s.cfg.timeWidth
  rxEndBound : s.rxEndTs < 2 ^ s.cfg.timeWidth
  t0Bound : s.t0 < 2 ^ s.cfg.timeWidth
  dlyBound : s.dly < 2 ^ s.cfg.timeWidth

/-- The time stamp of an event (R50). -/
def Event.time : Event → Nat
  | .dir t _ _ => t
  | .tx t _ _ => t
  | .txDone t => t

/-- Byte number and value of a `Tx` event. -/
def Event.txByte : Event → Option (Nat × Byte)
  | .tx _ k b => some (k, b)
  | _ => none

/-- The bytes "written to the bus" (R50): number and value of the `Tx` events of a list, in order. -/
def sentBytes (evs : List Event) : List (Nat × Byte) := evs.filterMap Event.txByte

/-- The stamps of the trace never decrease, and none is ahead of NOW (R50). -/
def State.TraceInTime (s : State) : Prop :=
  s.trace.Pairwise (fun e f => e.time ≤ f.time) ∧ ∀ e ∈ s.trace, e.time ≤ s.now

/-- The first events of a response (R183): `Dir(t, OUTPUT, PULLUP_OUT)`, then the `Tx` events number 0 to n - 1, each
with the byte FB holds at its number: ascending, "with none skipped or repeated" (R177). -/
def State.ResponseEvents (s : State) (n : Nat) (evs : List Event) : Prop :=
  ∃ (t : Nat) (sent : List Event), evs = Event.dir t .output s.cfg.pullupOut :: sent ∧ sent.length = n ∧
    ∀ k, k < n → ∃ u b, sent[k]? = some (Event.tx u k b) ∧ Memory.read s.fb k = some b

/-- What a command has added to the trace, `before` being the trace at its start (R183): nothing up to DIR_OUT; in SEND
the first events of the response; from SETTLE on all of them and `TxDone`; when it has returned, `Dir` back to INPUT as
well, or, after an abort, nothing. -/
structure State.CommandTrace (before : List Event) (s : State) : Prop where
  untilDirOut : 1 ≤ s.seq.toNat → s.seq.toNat ≤ 8 → s.trace = before
  sending : s.seq = SeqCode.send →
    ∃ evs, s.trace = before ++ evs ∧ s.ResponseEvents (if s.txActive then s.idx.toNat else 0) evs
  settling : s.seq = SeqCode.settle ∨ s.seq = SeqCode.dirIn →
    ∃ evs t, s.trace = before ++ evs ++ [Event.txDone t] ∧ s.ResponseEvents (s.len.toNat + 2) evs
  returned : s.seq = SeqCode.idle → s.sent = true →
    ∃ evs t u, s.trace = before ++ evs ++ [Event.txDone t, Event.dir u .input s.cfg.pullupIn] ∧
      s.ResponseEvents (s.len.toNat + 2) evs
  abortedSilently : s.seq = SeqCode.idle → s.aborted = true → s.trace = before

/-- The packet spacing (R174, R183): while GATE waits, the ticks before and after its sample add up to the elapsed
ticks; from DIR_OUT to DIR_IN at least T_SPACING_US ticks have elapsed since RX_END_TS. -/
def State.SpacingKept (s : State) : Prop :=
  (s.seq = SeqCode.gate → s.delaying = true → s.elapsed = tickSub s.cfg.timeWidth s.t0 s.rxEndTs + s.waited) ∧
    (s.seq = SeqCode.dirOut ∨ s.drivesLine → s.cfg.spacing ≤ s.elapsed)

/-- The settling delay (R28, R74, R180, R183): in SETTLE and DIR_IN the last event is `TxDone`, and T0 is its stamp; at
DIR_IN at least T_DIRSW_US ticks have passed since. -/
def State.SettlingKept (s : State) : Prop :=
  s.seq = SeqCode.settle ∨ s.seq = SeqCode.dirIn →
    (∃ evs, s.trace = evs ++ [Event.txDone s.t0]) ∧ (s.seq = SeqCode.dirIn → s.cfg.dirSwitch ≤ s.waited)

/-- `k` steps, stopping at the first fault or refusal: `Host.Core.run` of this machine, at the model's own types. -/
def runSteps : Nat → State → Result
  | 0, s => .next s
  | k + 1, s =>
    match step s with
    | .next t => runSteps k t
    | .fault r => .fault r
    | .refused r => .refused r

/-- Running instructions one after another from a state, each on the state the one before answered. -/
def execAll : List Instr → State → Result
  | [], s => .next s
  | i :: rest, s =>
    match exec i s with
    | .next t => execAll rest t
    | .fault r => .fault r
    | .refused r => .refused r

/-- The six encoder phases in the order of the document's steps 1 to 5 (R140). -/
def encoderPhases : List Instr := [.stamp, .dispatch, .swap, .classAdvance, .csum, .append]

/-- The bytes FB[0 .. n-1] have all been written. -/
def State.written (s : State) (n : Nat) : Prop := ∀ a, a < n → ∃ b, Memory.read s.fb a = some b

/-! Fairness: what the block assumes of its surroundings, "and a model states as fairness" (R171, R236). A moving world
is a sequence of moves without end; its first `k` moves are a schedule. -/

/-- The first `k` moves of a sequence without end, as a schedule. -/
def firstMoves (moves : Nat → Move) (k : Nat) : List Move := (List.range k).map moves

/-- How many of the `n` moves from number `k` on are ticks. -/
def ticksAmong (moves : Nat → Move) (k n : Nat) : Nat := ((List.range n).filter fun j => moves (k + j) = .tick).length

/-- A move inside the contract (R63, R237): no access to an FB offset or a register index that does not exist. -/
def Move.inContract (c : Config) : Move → Bool
  | .host (.wrFb off _) => decide (off < c.fbSize)
  | .host (.rdFb off) => decide (off < c.fbSize)
  | .host (.forbiddenWrite index) => decide (index < 8)
  | .host (.forbiddenRead index) => decide (index < 8)
  | .regWrite index _ => decide (index < 8)
  | .regRead index => decide (index < 8)
  | _ => true

/-- The moves of the agents that a hold waits for, and of the sequencer: no host, no reset, no other input. -/
def Move.ofTheBlock : Move → Bool
  | .sequencer => true
  | .tick => true
  | .txReady _ => true
  | .txIdle _ => true
  | _ => false

/-- The fairness assumptions of rules R171 and R236 on the clock and the serialiser, and that the sequencer runs. The
model's own step takes none of them: a statement that rests on them names this structure. Assumption log 23. -/
structure Fair (c : Config) (moves : Nat → Move) : Prop where
  /-- "the clock always ticks again" (R171). -/
  clock : ∀ k, ∃ n, k ≤ n ∧ moves n = .tick
  /-- "the serialiser takes every offered byte" (R171): it raises `tx_ready` again and again. -/
  takes : ∀ k, ∃ n, k ≤ n ∧ moves n = .txReady true
  /-- "and finishes it after a finite time" (R171): it raises `tx_idle` again and again. -/
  finishes : ∀ k, ∃ n, k ≤ n ∧ moves n = .txIdle true
  /-- The sequencer moves again before NOW has gone once round, so that a delay that is over is not missed: the
  comparator "watches NOW continuously" (R74). -/
  sequencer : ∀ k, ∃ n, moves (k + n) = .sequencer ∧
    ticksAmong moves k n + max c.spacing c.dirSwitch ≤ 2 ^ c.timeWidth
  /-- Reset does not abandon the command (R252). -/
  noReset : ∀ n, moves n ≠ .reset
  /-- The host keeps to offsets and indices that exist (R63). -/
  contract : ∀ n, (moves n).inContract c = true

end Sys2Proof.Machine
end

