-- ==== Sys2Proof/Certificates/Slice0/Obligations.lean ====
section
/-! DEFINITION. The statements for the provers. The frame offsets are parameters (R8), so they are written as fields of
`cfg`; a number in a statement is a constant of the block (R7), a SEQ code, a register index or a width. A statement of
the form "the next state is `s` with these fields changed" is the frame of the instruction as well: every field not named
keeps its value. -/

open Sys2Proof Sys2Proof.Machine

/-! Encodings. -/

/-- R96, R100: no bit of an encoding is dropped. -/
def Obligations.DecodeOfEncodeIsTheInstruction : Prop :=
  ∀ (c : Config) (i : Instr), c.valid = true → i.wf c = true → decode c (encode c i) = .ok i

/-- R96, R100, R105: every code that decodes is the encoding of the one well-formed instruction it decodes to. -/
def Obligations.EncodeOfDecodeIsTheCode : Prop :=
  ∀ (c : Config) (code : Code) (i : Instr), decode c code = .ok i → encode c i = code ∧ i.wf c = true

/-- R96: the four rows of the CMD format, each with its match and mask, over every 24-bit word; the last row matches
everything left, so no word is illegal (R101). -/
def Obligations.CommandWordsFollowTheRowsOfTheTable : Prop :=
  ∀ w : CmdWord,
    (w &&& 0xFF0000#24 = 0x000000#24 → decode Config.defaults (.cmd w) = .ok (.respondAck (w.setWidth 16))) ∧
    (w &&& 0xFF0000#24 = 0x010000#24 → decode Config.defaults (.cmd w) = .ok (.respondAckTimer (w.setWidth 16))) ∧
    (w &&& 0xFF0000#24 = 0x020000#24 → decode Config.defaults (.cmd w) = .ok (.respondNack (w.setWidth 16))) ∧
    (w &&& 0xFF0000#24 ≠ 0x000000#24 → w &&& 0xFF0000#24 ≠ 0x010000#24 → w &&& 0xFF0000#24 ≠ 0x020000#24 →
      decode Config.defaults (.cmd w) = .ok (.respondRaw ((w >>> 16).setWidth 8) (w.setWidth 16)))

/-- R96, R98, R100, R102 (95_test_vectors.md Part 3): words and codes written out from the tables. -/
def Obligations.WrittenOutWordsDecode : Prop :=
  decodeTableWord 24 0x00FFFF = some (.respondAck 0xFFFF#16) ∧
  decodeTableWord 24 0x01000A = some (.respondAckTimer 10#16) ∧
  decodeTableWord 24 0x020001 = some (.respondNack 1#16) ∧
  decodeTableWord 24 0x030000 = some (.respondRaw 0x03#8 0#16) ∧
  decodeTableWord 24 0xFF1234 = some (.respondRaw 0xFF#8 0x1234#16) ∧
  decodeTableWord 8 0b0000 = some .idle ∧ decodeTableWord 8 0b0001 = some .stamp ∧
  decodeTableWord 8 0b0010 = some .dispatch ∧ decodeTableWord 8 0b0011 = some .swap ∧
  decodeTableWord 8 0b0100 = some .classAdvance ∧ decodeTableWord 8 0b0101 = some .csum ∧
  decodeTableWord 8 0b0110 = some .append ∧ decodeTableWord 8 0b0111 = some .gate ∧
  decodeTableWord 8 0b1000 = some .dirOut ∧ decodeTableWord 8 0b1001 = some .send ∧
  decodeTableWord 8 0b1010 = some .settle ∧ decodeTableWord 8 0b1011 = some .dirIn ∧
  decodeTableWord 8 0b1100 = none ∧ decodeTableWord 8 0b1101 = none ∧
  decodeTableWord 8 0b1110 = none ∧ decodeTableWord 8 0b1111 = none

/-- R10, R31, R40, R67: OWN_UID is its six bytes, OWN_UID[0] in the highest bits, and a 16-bit value is its two
halves. -/
def Obligations.WideValuesAreTheirBytes : Prop :=
  (∀ u : Uid,
    uidByte u 0 ++ uidByte u 1 ++ uidByte u 2 ++ uidByte u 3 ++ uidByte u 4 ++ uidByte u 5 = u) ∧
  (∀ v : Word16, hi8 v ++ lo8 v = v)

/-! The step. -/

/-- R24, R72, R77, R201: a step whose next move brings an instruction is `exec` of it: the phase in SEQ when the
sequencer moves, or has the only move left; the decoded command word when the host writes CMD, by name or at index 0.
That the next agent is the head of `schedule` is the model's choice (assumption log 3). -/
def Obligations.StepRunsTheFetchedInstruction : Prop :=
  ∀ (s : State) (rest : List Move),
    (∀ i, s.schedule = [] → decodeSeq s.seq = .ok i → step s = exec i s) ∧
    (∀ i, s.schedule = .sequencer :: rest → decodeSeq s.seq = .ok i → step s = exec i { s with schedule := rest }) ∧
    (∀ w, s.schedule = .host (.start w) :: rest → step s = exec (decodeCmd s.cfg w) { s with schedule := rest }) ∧
    (∀ v, s.schedule = .regWrite 0 v :: rest →
      step s = exec (decodeCmd s.cfg (BitVec.ofNat 24 v)) { s with schedule := rest })

/-- R102: a SEQ code of 12 to 15 is no phase: the sequencer's move is refused by name (assumption log 16). -/
def Obligations.UnreachableSeqCodesAreRefused : Prop :=
  ∀ s : State, s.schedule = [] → 12 ≤ s.seq.toNat → step s = .refused (.unreachableSeqCode s.seq)

/-- A word of the opcode table, placed by `withFetchWord`, is what the next step runs. How a word is placed is the
model's choice (assumption log 4). -/
def Obligations.PlacedTableWordRunsNext : Prop :=
  ∀ (s : State) (nbits w : Nat) (i : Instr), s.cfg = Config.defaults → decodeTableWord nbits w = some i →
    step (s.withFetchWord nbits w) = exec i (if nbits = 24 then s else { s with seq := BitVec.ofNat 4 w })

/-! Reset and the invariant. -/

/-- R250, with the table of R51: what reset leaves, at power-up and when the reset input interrupts a run (R252). No
byte of FB has a value; NOW counts on; PENDING_COUNT is an input. That reset is one instantaneous move, and what it
keeps, is the model's choice (assumption log 12). Nothing is said of the registers that reset leaves unspecified (log
11). -/
def Obligations.ResetLeavesTheStatedValues : Prop :=
  (∀ c : Config, (State.resetWith c).seq = 0#4 ∧ (State.resetWith c).status = 0#4 ∧ (State.resetWith c).dir = .input ∧
    (State.resetWith c).pullup = c.pullupIn ∧ (State.resetWith c).txActive = false ∧
    (State.resetWith c).txValid = false ∧ (State.resetWith c).trace = [] ∧
    ∀ a, Memory.read (State.resetWith c).fb a = none) ∧
  (∀ (s : State) (rest : List Move), s.schedule = .reset :: rest → ∃ t, step s = .next t ∧
    t.seq = 0#4 ∧ t.status = 0#4 ∧ t.dir = .input ∧ t.pullup = s.cfg.pullupIn ∧ t.txActive = false ∧
    t.txValid = false ∧ t.trace = [] ∧ (∀ a, Memory.read t.fb a = none) ∧
    t.now = s.now ∧ t.pendingCount = s.pendingCount ∧ t.schedule = rest)

/-- The reset state meets the invariant, whatever consistent parameters the block is built with. -/
def Obligations.ResetMeetsTheInvariant : Prop :=
  ∀ c : Config, c.valid = true → (State.resetWith c).Inv

/-- R52 and what it rests on: every step of every agent keeps the invariant. -/
def Obligations.EveryStepKeepsTheInvariant : Prop :=
  ∀ s t : State, s.Inv → step s = .next t → t.Inv

/-- R52, which the spec marks as derived, in every state that any interleaving of the agents reaches from reset. -/
def Obligations.ReachableStatesMeetR52 : Prop :=
  ∀ (c : Config) (moves : List Move) (k : Nat) (t : State), c.valid = true →
    runSteps k { State.resetWith c with schedule := moves } = .next t →
    (t.busy = true ↔ t.seq ≠ 0#4) ∧
    (t.dir = .output → t.seq = 9#4 ∨ t.seq = 10#4 ∨ t.seq = 11#4) ∧
    (t.seq = 0#4 → t.dir = .input) ∧
    (t.txActive = true → t.seq = 9#4) ∧
    ¬ (t.sent = true ∧ t.aborted = true) ∧ ¬ (t.done = true ∧ t.busy = true)

/-- R41: the parameters do not change after the block is built. -/
def Obligations.ParametersNeverChange : Prop :=
  ∀ s t : State, step s = .next t → t.cfg = s.cfg

/-- R36, R45: NOW is written by the clock alone, one count a tick, modulo 2^W; where the serialiser's levels have brought
nothing about in the tick (the next two statements), a tick changes nothing else. -/
def Obligations.OnlyTheClockWritesNow : Prop :=
  ∀ s t : State, step s = .next t →
    (s.schedule.head? = some .tick → t.now = (s.now + 1) % 2 ^ s.cfg.timeWidth ∧
      ((s.txValid = true → s.txReady = false) →
        (s.txActive = true → s.txValid = false → s.len.toNat + 2 ≤ s.idx.toNat → s.txIdle = false) →
        t = { s with schedule := s.schedule.tail, now := (s.now + 1) % 2 ^ s.cfg.timeWidth })) ∧
    (s.schedule.head? ≠ some .tick → t.now = s.now)

/-- R177, R178: a byte is transferred in the tick where `tx_valid` and `tx_ready` are both 1: neither the end of that tick
nor the fall of `tx_ready` passes without the transfer. It is SEND's own hand-over: `tx_valid` stays 1 with the next byte
offered, and is 0 after byte LEN + 1. The event carries FB[IDX], which the invariant says is the byte offered. That
`tx_idle` falls with the transfer is the model's inference (DEDUCED, assumption log 7); where the next byte has never been
written the step is the model fault of R80 and R237 (assumption log 13). -/
def Obligations.OfferedByteIsTakenInItsTick : Prop :=
  ∀ (s : State) (rest : List Move) (b c : Byte), s.txValid = true → s.txReady = true →
    Memory.read s.fb s.idx.toNat = some b →
    (s.idx.toNat + 1 < s.len.toNat + 2 → Memory.read s.fb (s.idx.toNat + 1) = some c →
      (s.schedule = .tick :: rest →
        step s = .next { s with schedule := rest, idx := s.idx + 1#9, txData := c, txIdle := false,
                                trace := s.trace ++ [Event.tx s.now s.idx.toNat b],
                                now := (s.now + 1) % 2 ^ s.cfg.timeWidth }) ∧
      (s.schedule = .txReady false :: rest →
        step s = .next { s with schedule := rest, idx := s.idx + 1#9, txData := c, txIdle := false, txReady := false,
                                trace := s.trace ++ [Event.tx s.now s.idx.toNat b] })) ∧
    (s.idx.toNat + 1 = s.len.toNat + 2 →
      (s.schedule = .tick :: rest →
        step s = .next { s with schedule := rest, idx := s.idx + 1#9, txValid := false, txIdle := false,
                                trace := s.trace ++ [Event.tx s.now s.idx.toNat b],
                                now := (s.now + 1) % 2 ^ s.cfg.timeWidth }) ∧
      (s.schedule = .txReady false :: rest →
        step s = .next { s with schedule := rest, idx := s.idx + 1#9, txValid := false, txIdle := false,
                                txReady := false, trace := s.trace ++ [Event.tx s.now s.idx.toNat b] })) ∧
    (s.idx.toNat + 1 < s.len.toNat + 2 → Memory.read s.fb (s.idx.toNat + 1) = none →
      s.schedule = .tick :: rest ∨ s.schedule = .txReady false :: rest →
      step s = .fault (.unwrittenRead (s.idx.toNat + 1))) ∧
    (s.Inv → b = s.txData)

/-- R28, R45, R50, R74: once every byte has been handed over, the tick in which `tx_idle` is 1, or its fall, does not
pass without `TxDone`: TX_ACTIVE is cleared, T0 is the time of the report, and SETTLE's delay of T_DIRSW_US has begun
(assumption logs 9 and 10). -/
def Obligations.ReportedEndIsSeenInItsTick : Prop :=
  ∀ (s : State) (rest : List Move), s.txActive = true → s.txValid = false → s.len.toNat + 2 ≤ s.idx.toNat →
    s.txIdle = true →
    (s.schedule = .tick :: rest →
      step s = .next { s with schedule := rest, txActive := false, t0 := s.now, dly := s.cfg.dirSwitch, delaying := true,
                              trace := s.trace ++ [Event.txDone s.now], seq := 10#4,
                              now := (s.now + 1) % 2 ^ s.cfg.timeWidth }) ∧
    (s.schedule = .txIdle false :: rest →
      step s = .next { s with schedule := rest, txActive := false, t0 := s.now, dly := s.cfg.dirSwitch, delaying := true,
                              trace := s.trace ++ [Event.txDone s.now], seq := 10#4, txIdle := false })

/-- R37, R176: only DIR_OUT and DIR_IN write DIR and PULLUP and record a `Dir` event; any other move leaves them, but
for the reset input. -/
def Obligations.OnlyTheDirectionPhasesWriteTheLine : Prop :=
  ∀ s t : State, step s = .next t →
    (t.dir ≠ s.dir ∨ t.pullup ≠ s.pullup ∨ ∃ u d p, t.trace = s.trace ++ [Event.dir u d p]) →
    s.schedule.head? = some .reset ∨
      ((s.schedule = [] ∨ s.schedule.head? = some .sequencer) ∧ (s.seq = 8#4 ∨ s.seq = 11#4))

/-- R24, R121: a phase leaves SEQ where it is (a hold), or sets it to the next code, or to IDLE; it sets it to IDLE only
at DIR_IN, and at DISPATCH on an unknown response type, where it always does. -/
def Obligations.PhasesFollowTheGraph : Prop :=
  ∀ (i : Instr) (s t : State), decodeSeq s.seq = .ok i → exec i s = .next t →
    (t.seq = s.seq ∧ (s.seq = 0#4 ∨ s.seq = 7#4 ∨ s.seq = 9#4 ∨ s.seq = 10#4)) ∨
    (t.seq = s.seq + 1#4 ∧ s.seq ≠ 0#4 ∧ s.seq ≠ 11#4 ∧ (s.seq = 2#4 → s.cfg.supports s.cmdRtype = true)) ∨
    (t.seq = 0#4 ∧ s.seq = 11#4) ∨
    (t.seq = 0#4 ∧ s.seq = 2#4 ∧ s.cfg.supports s.cmdRtype = false)

/-! The command words and IDLE. -/

/-- R122 to R125 and R201: each of the four commands completes whenever BUSY = 0: it latches its type and its value,
sets the flags of a start and goes to STAMP, and changes nothing else. -/
def Obligations.CommandsStartWhenIdle : Prop :=
  ∀ (s : State) (rtype : Byte) (value : Word16), s.busy = false →
    exec (.respondAck value) s =
      .next { s with cmdRtype := s.cfg.rtAck, cmdValue := value, status := 0b0001#4, seq := 1#4 } ∧
    exec (.respondAckTimer value) s =
      .next { s with cmdRtype := s.cfg.rtAckTimer, cmdValue := value, status := 0b0001#4, seq := 1#4 } ∧
    exec (.respondNack value) s =
      .next { s with cmdRtype := s.cfg.rtNackReason, cmdValue := value, status := 0b0001#4, seq := 1#4 } ∧
    exec (.respondRaw rtype value) s =
      .next { s with cmdRtype := rtype, cmdValue := value, status := 0b0001#4, seq := 1#4 }

/-- R201: what a write of any word to CMD does: CMD_RTYPE <- word[23:16], CMD_VALUE <- word[15:0] and the start while
BUSY = 0; nothing while BUSY = 1. -/
def Obligations.WriteToCmdStartsOrIsDropped : Prop :=
  ∀ (s : State) (w : CmdWord),
    (s.busy = false → exec (decodeCmd s.cfg w) s =
      .next { s with cmdRtype := (w >>> 16).setWidth 8, cmdValue := w.setWidth 16, status := 0b0001#4, seq := 1#4 }) ∧
    (s.busy = true → exec (decodeCmd s.cfg w) s = .next s)

/-- R120: IDLE changes nothing, and nothing but a host write to CMD ends it; that write starts the command. -/
def Obligations.IdleEndsOnlyByAWriteToCmd : Prop :=
  (∀ s : State, exec .idle s = .next s) ∧
  (∀ s t : State, s.Inv → s.seq = 0#4 → step s = .next t → t.seq ≠ 0#4 →
    ∃ (w : CmdWord) (rest : List Move),
      (s.schedule = .host (.start w) :: rest ∨ ∃ v, s.schedule = .regWrite 0 v :: rest ∧ w = BitVec.ofNat 24 v) ∧
      t = { s with schedule := rest, cmdRtype := (w >>> 16).setWidth 8, cmdValue := w.setWidth 16,
                   status := 0b0001#4, seq := 1#4 })

/-! The encoder's phases. -/

/-- R141: FB[OFF_MC] <- PENDING_COUNT, and SEQ <- DISPATCH. -/
def Obligations.StampWritesThePendingCount : Prop :=
  ∀ s : State, ∃ m : Memory, exec .stamp s = .next { s with fb := m, seq := 2#4 } ∧
    ∀ a, Memory.read m a = if a = s.cfg.offMc then some s.pendingCount else Memory.read s.fb a

/-- R142, R143: DISPATCH on each kind of response type, with LEN latched from the length byte as it then stands. -/
def Obligations.DispatchFollowsTheResponseType : Prop :=
  ∀ s : State, s.cfg.valid = true →
    (∀ n, s.cmdRtype = s.cfg.rtAck → Memory.read s.fb s.cfg.offMl = some n →
      ∃ m : Memory, exec .dispatch s = .next { s with fb := m, len := n, seq := 3#4 } ∧
        ∀ a, Memory.read m a = if a = s.cfg.offRt then some s.cfg.rtAck else Memory.read s.fb a) ∧
    (s.cmdRtype = s.cfg.rtAckTimer ∨ s.cmdRtype = s.cfg.rtNackReason →
      ∃ m : Memory, exec .dispatch s = .next { s with fb := m, len := BitVec.ofNat 8 (s.cfg.minSize + 2), seq := 3#4 } ∧
        ∀ a, Memory.read m a =
          if a = s.cfg.offMl then some (BitVec.ofNat 8 (s.cfg.minSize + 2))
          else if a = s.cfg.offRt then some s.cmdRtype
          else if a = s.cfg.offPdl then some 2#8 else if a = s.cfg.offPd then some (hi8 s.cmdValue)
          else if a = s.cfg.offPd + 1 then some (lo8 s.cmdValue)
          else Memory.read s.fb a) ∧
    (s.cmdRtype ≠ s.cfg.rtAck → s.cmdRtype ≠ s.cfg.rtAckTimer → s.cmdRtype ≠ s.cfg.rtNackReason →
      ∃ v : BitVec 4, exec .dispatch s = .next { s with status := v, seq := 0#4 } ∧
        v.getLsbD 3 = true ∧ v.getLsbD 1 = true ∧ v.getLsbD 0 = false ∧ v.getLsbD 2 = s.status.getLsbD 2)

/-- R144: the parallel assignment `destination_uid, source_uid <- old source_uid, OWN_UID`. -/
def Obligations.SwapTakesTheOldSourceAndTheOwnUid : Prop :=
  ∀ s : State, s.cfg.valid = true → (∀ i, i < 6 → ∃ b, Memory.read s.fb (s.cfg.offSrc + i) = some b) →
    ∃ m : Memory, exec .swap s = .next { s with fb := m, seq := 4#4 } ∧
      (∀ i, i < 6 → Memory.read m (s.cfg.offDst + i) = Memory.read s.fb (s.cfg.offSrc + i) ∧
        Memory.read m (s.cfg.offSrc + i) = some (uidByte s.ownUid i)) ∧
      ∀ a, (∀ i, i < 6 → a ≠ s.cfg.offDst + i ∧ a ≠ s.cfg.offSrc + i) → Memory.read m a = Memory.read s.fb a

/-- R145: FB[OFF_CC] <- FB[OFF_CC] +_8 1, whatever the byte. -/
def Obligations.ClassAdvancesByOne : Prop :=
  ∀ (s : State) (b : Byte), Memory.read s.fb s.cfg.offCc = some b →
    ∃ m : Memory, exec .classAdvance s = .next { s with fb := m, seq := 5#4 } ∧
      ∀ a, Memory.read m a = if a = s.cfg.offCc then some (b + 1#8) else Memory.read s.fb a

/-- R146: CSUM is the sum of FB[0 .. LEN-1], every byte unsigned, and IDX ends at LEN. That the accumulator never wraps,
so that CSUM is the unreduced sum, is R148's, which the spec derives from R146 and R25. -/
def Obligations.CsumIsTheSumOfTheMessage : Prop :=
  ∀ (s : State) (b : Nat → Byte), (∀ a, a < s.len.toNat → Memory.read s.fb a = some (b a)) →
    ∃ v : Word16, exec .csum s = .next { s with csum := v, idx := s.len.setWidth 9, seq := 6#4 } ∧
      v.toNat = ((List.range s.len.toNat).map fun a => (b a).toNat).sum

/-- R147, R65: the checksum, high byte first, at LEN and LEN + 1, with no wrap for LEN = 255. -/
def Obligations.AppendStoresTheChecksum : Prop :=
  ∀ s : State, ∃ m : Memory, exec .append s = .next { s with fb := m, seq := 7#4 } ∧
    ∀ a, Memory.read m a =
      if a = s.len.toNat then some (hi8 s.csum) else if a = s.len.toNat + 1 then some (lo8 s.csum)
      else Memory.read s.fb a

/-- R80, R237: the phases that read FB stop with `UnwrittenRead` exactly where a byte they need has never been written,
and no phase stops for any other reason. The fault is the model's, as R237 (c) asks (assumption log 13). R237 (c) would
have SWAP and GATE fault on an OWN_UID or RX_END_TS that nothing has written, too: that they do not, and so that SWAP
faults on a source byte alone and GATE always answers a next state, is the model's own departure (DESIGN CHOICE,
assumption log 11: every register holds a value after reset). -/
def Obligations.PhasesFaultExactlyOnUnwrittenBytes : Prop :=
  ∀ s : State, s.cfg.valid = true →
    ((∃ a, exec .dispatch s = .fault (.unwrittenRead a)) ↔
      s.cmdRtype = s.cfg.rtAck ∧ Memory.read s.fb s.cfg.offMl = none) ∧
    ((∃ a, exec .swap s = .fault (.unwrittenRead a)) ↔ ∃ i, i < 6 ∧ Memory.read s.fb (s.cfg.offSrc + i) = none) ∧
    ((∃ a, exec .classAdvance s = .fault (.unwrittenRead a)) ↔ Memory.read s.fb s.cfg.offCc = none) ∧
    ((∃ a, exec .csum s = .fault (.unwrittenRead a)) ↔ ∃ a, a < s.len.toNat ∧ Memory.read s.fb a = none) ∧
    (s.txActive = false → ((∃ a, exec .send s = .fault (.unwrittenRead a)) ↔ Memory.read s.fb 0 = none)) ∧
    (s.txActive = true → ((∃ a, exec .send s = .fault (.unwrittenRead a)) ↔
      s.idx.toNat < s.len.toNat + 2 ∧ (s.txValid = true → s.txReady = true) ∧
        (Memory.read s.fb s.idx.toNat = none ∨
          (s.txValid = true ∧ s.idx.toNat + 1 < s.len.toNat + 2 ∧ Memory.read s.fb (s.idx.toNat + 1) = none)))) ∧
    (∀ i r, exec i s ≠ .refused r) ∧
    (∀ i, i = .idle ∨ i = .stamp ∨ i = .append ∨ i = .gate ∨ i = .dirOut ∨ i = .settle ∨ i = .dirIn →
      ∃ t, exec i s = .next t)

/-! The encoder as a whole. -/

/-- R126: for a supported type, running STAMP, DISPATCH, SWAP, CLASS, CSUM and APPEND one by one and applying `Respond`
agree: on FB, on the bytes to be sent, which are FB[0 .. LEN+1], and on the byte that stops either. -/
def Obligations.EncoderPhasesMatchRespond : Prop :=
  ∀ s : State, s.cfg.valid = true → s.cfg.supports s.cmdRtype = true →
    match respond s.cfg s.fb s.cmdRtype s.cmdValue s.ownUid s.pendingCount with
    | .ok (m, sent) =>
      ∃ (t : State) (bytes : List Byte), execAll encoderPhases s = .next t ∧ t.fb = m ∧ sent = some bytes ∧
        bytes.length = t.len.toNat + 2 ∧ ∀ k, k < t.len.toNat + 2 → bytes[k]? = Memory.read t.fb k
    | .error e => execAll encoderPhases s = .fault e

/-- R125, R126, R131: for any other type `Respond` sends nothing and changes FB[OFF_MC] alone, and so do STAMP and
DISPATCH, after which the command has returned with ABORTED and nothing else is changed: no event, no direction, no
delay. -/
def Obligations.UnknownTypeIsTheSilentAbort : Prop :=
  ∀ (s : State) (rtype : Byte) (value : Word16), s.busy = false → s.cfg.supports rtype = false →
    ∃ m : Memory,
      execAll [.respondRaw rtype value, .stamp, .dispatch] s =
        .next { s with cmdRtype := rtype, cmdValue := value, fb := m, status := 0b1010#4, seq := 0#4 } ∧
      respond s.cfg s.fb rtype value s.ownUid s.pendingCount = .ok (m, none) ∧
      ∀ a, Memory.read m a = if a = s.cfg.offMc then some s.pendingCount else Memory.read s.fb a

/-- R80, R254: a command of a supported type never meets an unwritten byte when the host has written offsets 0 to
MIN_SIZE - 1 and, for an ACK, offsets 0 to `message_length` - 1: the encoder then completes at GATE, and nothing outside
FB, LEN, CSUM, IDX and SEQ has changed. -/
def Obligations.EncoderCompletesOnALoadedFrame : Prop :=
  ∀ (s : State) (n : Byte), s.cfg.valid = true → s.cfg.supports s.cmdRtype = true → s.written s.cfg.minSize →
    Memory.read s.fb s.cfg.offMl = some n → (s.cmdRtype = s.cfg.rtAck → s.written n.toNat) →
    ∃ (m : Memory) (v : Word16),
      execAll encoderPhases s =
        .next { s with fb := m, len := if s.cmdRtype = s.cfg.rtAck then n else BitVec.ofNat 8 (s.cfg.minSize + 2),
                       csum := v,
                       idx := (if s.cmdRtype = s.cfg.rtAck then n
                               else BitVec.ofNat 8 (s.cfg.minSize + 2) : Byte).setWidth 9,
                       seq := 7#4 }

/-- R127: the document's properties of the frame, of what the six phases leave: the checksum of what will be sent,
whatever the length, and, for a message of at least MIN_SIZE bytes, the UIDs, the class, the type, the count and the
length policy. -/
def Obligations.ResponseFrameMeetsTheDocumentsProperties : Prop :=
  ∀ s t : State, s.cfg.valid = true → s.cfg.supports s.cmdRtype = true → execAll encoderPhases s = .next t →
    (∀ b : Nat → Byte, (∀ a, a < t.len.toNat → Memory.read t.fb a = some (b a)) →
      ∃ v : Word16, v.toNat = ((List.range t.len.toNat).map fun a => (b a).toNat).sum % 65536 ∧
        Memory.read t.fb t.len.toNat = some (hi8 v) ∧ Memory.read t.fb (t.len.toNat + 1) = some (lo8 v)) ∧
    responseLength s.cfg s.fb s.cmdRtype = some t.len ∧
    (s.cfg.minSize ≤ t.len.toNat →
      UidSwapCorrect s.cfg s.fb t.fb s.ownUid ∧ CommandClassAdvanced s.cfg s.fb t.fb ∧
      Memory.read t.fb s.cfg.offRt = some s.cmdRtype ∧ Memory.read t.fb s.cfg.offMc = some s.pendingCount ∧
      LengthPolicy s.cfg s.fb t.fb s.cmdRtype s.cmdValue ∧ Memory.read t.fb s.cfg.offMl = some t.len)

/-- R127, over `Respond`: whenever `Respond` sends bytes, the checksum of them is right, whatever the length; the UIDs
are swapped and the class advanced when `message_length` is at least MIN_SIZE; and the length policy holds unless the
checksum lands on the length byte. -/
def Obligations.RespondMeetsTheDocumentsProperties : Prop :=
  ∀ (c : Config) (before fb : Memory) (t : Byte) (v : Word16) (u : Uid) (count : Byte) (tx : List Byte),
    c.valid = true → respond c before t v u count = .ok (fb, some tx) →
    ∃ len : Byte, responseLength c before t = some len ∧ ChecksumCorrect len.toNat tx ∧
      (c.minSize ≤ len.toNat → UidSwapCorrect c before fb u ∧ CommandClassAdvanced c before fb) ∧
      (len.toNat ≠ c.offMl → len.toNat + 1 ≠ c.offMl → LengthPolicy c before fb t v)

/-- R127, over the trace: an abort is silent; no byte is handed over and no line driven less than T_SPACING_US ticks
after RX_END_TS (`SpacingKept`, the premise of R174: PacketSpacingIsKept); and when a command has returned without an
abort, DIR = INPUT. -/
def Obligations.TraceMeetsTheDocumentsProperties : Prop :=
  (∀ (s t : State) (rtype : Byte) (value : Word16), s.busy = false → s.cfg.supports rtype = false →
    execAll [.respondRaw rtype value, .stamp, .dispatch] s = .next t → SilentAbort s t ∧ t.aborted = true) ∧
  (∀ (s t : State) (e : Event), s.Inv → s.SpacingKept → step s = .next t → t.trace = s.trace ++ [e] →
    TimingProperty s e) ∧
  (∀ s t : State, s.Inv → step s = .next t → DirectionRestored t)

/-- R150, R81: the bytes the encoder never writes (R81 as assumption log 22 reads it), unless the checksum lands on
them: the start codes, the transaction number, the sub-device and the parameter id; on the ACK path the length, the
param data length and the param data; and on every path the bytes past the checksum. -/
def Obligations.EncoderPassesTheOtherBytesThrough : Prop :=
  ∀ (s t : State) (a : Nat), s.cfg.valid = true → s.cfg.supports s.cmdRtype = true →
    execAll encoderPhases s = .next t → a ≠ t.len.toNat → a ≠ t.len.toNat + 1 →
    (a ∈ [s.cfg.offSc, s.cfg.offSsc, s.cfg.offTn, s.cfg.offSubdev, s.cfg.offSubdev + 1, s.cfg.offPid, s.cfg.offPid + 1] ∨
      (s.cmdRtype = s.cfg.rtAck ∧ (a = s.cfg.offMl ∨ s.cfg.offPdl ≤ a)) ∨
      (s.cfg.minSize ≤ a ∧ t.len.toNat + 1 < a)) →
    Memory.read t.fb a = Memory.read s.fb a

/-- R122, R142: the VALUE bits of RESPOND_ACK are ignored: two values give the same frame, and the states differ in
CMD_VALUE alone. -/
def Obligations.AckIgnoresItsValue : Prop :=
  ∀ (s : State) (v w : Word16), s.busy = false → s.cfg.valid = true →
    mapNext (fun t => { t with cmdValue := 0#16 }) (execAll (.respondAck v :: encoderPhases) s) =
      mapNext (fun t => { t with cmdValue := 0#16 }) (execAll (.respondAck w :: encoderPhases) s)

/-- R74, R269: PENDING_COUNT is read by STAMP alone: a different count makes no difference to any other phase. -/
def Obligations.PendingCountIsReadByStampAlone : Prop :=
  ∀ (i : Instr) (s : State) (c : Byte), i ≠ .stamp →
    exec i { s with pendingCount := c } = mapNext (fun t => { t with pendingCount := c }) (exec i s)

/-! The bus phases. -/

/-- R173: GATE on entry, with and without a wait, and while it waits. That the wait is a field of its own, `delaying`,
is the model's inference (assumption log 6). -/
def Obligations.GateWaitsOutTheSpacing : Prop :=
  ∀ s : State,
    (s.delaying = false → s.elapsed < s.cfg.spacing →
      exec .gate s = .next { s with t0 := s.now, dly := s.cfg.spacing - s.elapsed, delaying := true }) ∧
    (s.delaying = false → s.cfg.spacing ≤ s.elapsed →
      exec .gate s = .next { s with t0 := s.now, dly := 0, seq := 8#4 }) ∧
    (s.delaying = true → s.dly ≤ s.waited → exec .gate s = .next { s with delaying := false, seq := 8#4 }) ∧
    (s.delaying = true → s.waited < s.dly → exec .gate s = .next s)

/-- R11, R174: time differences are modulo 2^W: they give the true count of ticks between two readings of NOW, across a
wrap too, and a time stamp ahead of NOW by `n` gives 2^W - n. -/
def Obligations.TimeDifferencesAreModular : Prop :=
  ∀ (w t n : Nat), t < 2 ^ w → n < 2 ^ w →
    tickSub w ((t + n) % 2 ^ w) t = n ∧ (0 < n → tickSub w t ((t + n) % 2 ^ w) = 2 ^ w - n)

/-- R174, R183 (a), (b): the document's timing property (the premise of R174: assumption log 18). Every step keeps it,
as long as the elapsed ticks stay below 2^W (the premise of R174): so DIR_OUT's `Dir` event and every `Tx` event come
at least T_SPACING_US ticks after RX_END_TS. -/
def Obligations.PacketSpacingIsKept : Prop :=
  ∀ s t : State, s.Inv → s.SpacingKept → s.elapsed + 1 < 2 ^ s.cfg.timeWidth → step s = .next t → t.SpacingKept

/-- R28, R180, R183 (c): every step keeps the settling delay: in SETTLE and DIR_IN T0 is the stamp of `TxDone`, and
DIR_IN, and so its `Dir` event, comes at least T_DIRSW_US ticks after it, as long as the ticks since it stay below
2^W. -/
def Obligations.SettlingDelayIsKept : Prop :=
  ∀ s t : State, s.Inv → s.SettlingKept → (s.seq = 11#4 → s.waited + 1 < 2 ^ s.cfg.timeWidth) →
    step s = .next t → t.SettlingKept

/-- R171, R172, R236: a GATE that waits ends once the clock has ticked often enough and the sequencer moves: the hold is
never a stop. -/
def Obligations.GateEndsOnceTheClockHasTicked : Prop :=
  ∀ (s : State) (n : Nat), s.Inv → s.seq = 7#4 → s.delaying = true → s.waited + n < 2 ^ s.cfg.timeWidth →
    s.dly ≤ s.waited + n → s.schedule = List.replicate n .tick ++ [.sequencer] →
    ∃ t, runSteps (n + 1) s = .next t ∧ t.seq = 8#4 ∧ t.now = (s.now + n) % 2 ^ s.cfg.timeWidth ∧ t.fb = s.fb

/-- R175: DIR <- OUTPUT, PULLUP <- PULLUP_OUT, the event, SEQ <- SEND. -/
def Obligations.DirOutDrivesTheLine : Prop :=
  ∀ s : State, exec .dirOut s =
    .next { s with dir := .output, pullup := s.cfg.pullupOut,
                   trace := s.trace ++ [Event.dir s.now .output s.cfg.pullupOut], seq := 9#4 }

/-- R177, R178: SEND's parts: the entry; the offer at the head of the loop, from a state in which nothing is offered (the
invariant: no run reaches one); a byte taken, with another to follow or the last; the two holds; the end, which samples
NOW into T0 (R28, R74). How SEND is cut into steps and that `tx_idle` falls as a byte is taken are the model's (assumption
logs 9 and 7), and so is that SETTLE's delay begins in the last of them (assumption log 10). -/
def Obligations.SendHandsOverByteByByte : Prop :=
  ∀ (s : State) (b c : Byte),
    (s.txActive = false → Memory.read s.fb 0 = some b →
      exec .send s = .next { s with idx := 0#9, txActive := true, txData := b, txValid := true }) ∧
    (s.txActive = true → s.txValid = false → s.idx.toNat < s.len.toNat + 2 → Memory.read s.fb s.idx.toNat = some b →
      exec .send s = .next { s with txData := b, txValid := true }) ∧
    (s.txActive = true → s.txValid = true → s.txReady = true → s.idx.toNat + 1 < s.len.toNat + 2 →
      Memory.read s.fb s.idx.toNat = some b → Memory.read s.fb (s.idx.toNat + 1) = some c →
      exec .send s = .next { s with idx := s.idx + 1#9, txData := c, txIdle := false,
                                    trace := s.trace ++ [Event.tx s.now s.idx.toNat b] }) ∧
    (s.txActive = true → s.txValid = true → s.txReady = true → s.idx.toNat + 1 = s.len.toNat + 2 →
      Memory.read s.fb s.idx.toNat = some b →
      exec .send s = .next { s with idx := s.idx + 1#9, txValid := false, txIdle := false,
                                    trace := s.trace ++ [Event.tx s.now s.idx.toNat b] }) ∧
    (s.txActive = true → s.txValid = true → s.txReady = false → s.idx.toNat < s.len.toNat + 2 →
      exec .send s = .next s) ∧
    (s.txActive = true → s.txValid = false → s.txIdle = false → s.len.toNat + 2 ≤ s.idx.toNat →
      exec .send s = .next s) ∧
    (s.txActive = true → s.txIdle = true → s.len.toNat + 2 ≤ s.idx.toNat →
      exec .send s = .next { s with txActive := false, txValid := false, t0 := s.now, dly := s.cfg.dirSwitch,
                                    delaying := true, trace := s.trace ++ [Event.txDone s.now], seq := 10#4 })

/-- R177, R66, R79: with a serialiser that stays ready, SEND hands over exactly the bytes FB[0 .. LEN+1], each once and
in ascending order, in LEN + 3 of its steps, and FB is as it was. -/
def Obligations.SendSendsTheWholeFrameInOrder : Prop :=
  ∀ (s : State) (b : Nat → Byte), s.seq = 9#4 → s.schedule = [] → s.txActive = false → s.txReady = true →
    (∀ k, k < s.len.toNat + 2 → Memory.read s.fb k = some (b k)) →
    ∃ t, runSteps (s.len.toNat + 3) s = .next t ∧
      sentBytes t.trace = sentBytes s.trace ++ (List.range (s.len.toNat + 2)).map (fun k => (k, b k)) ∧
      t.fb = s.fb ∧ t.len = s.len ∧ t.seq = 9#4 ∧ t.txActive = true ∧ t.txValid = false ∧
      t.idx.toNat = s.len.toNat + 2

/-- R180, R172: SETTLE from the beginning of its delay, with a settling delay and with none, and while it waits
(`delaying`: assumption log 6). After SEND the delay has begun with `TxDone` (assumption log 10). -/
def Obligations.SettleWaitsOutTheSwitchDelay : Prop :=
  ∀ s : State,
    (s.delaying = false → 0 < s.cfg.dirSwitch →
      exec .settle s = .next { s with t0 := s.now, dly := s.cfg.dirSwitch, delaying := true }) ∧
    (s.delaying = false → s.cfg.dirSwitch = 0 →
      exec .settle s = .next { s with t0 := s.now, dly := 0, seq := 11#4 }) ∧
    (s.delaying = true → s.dly ≤ s.waited → exec .settle s = .next { s with delaying := false, seq := 11#4 }) ∧
    (s.delaying = true → s.waited < s.dly → exec .settle s = .next s)

/-- R182: DIR <- INPUT, PULLUP <- PULLUP_IN, the event, SENT, DONE and not BUSY, SEQ <- IDLE; ABORTED is not written. -/
def Obligations.DirInRestoresTheLine : Prop :=
  ∀ s : State, ∃ v : BitVec 4,
    exec .dirIn s =
      .next { s with dir := .input, pullup := s.cfg.pullupIn,
                     trace := s.trace ++ [Event.dir s.now .input s.cfg.pullupIn], status := v, seq := 0#4 } ∧
    v.getLsbD 2 = true ∧ v.getLsbD 1 = true ∧ v.getLsbD 0 = false ∧ v.getLsbD 3 = s.status.getLsbD 3

/-- R62, R79: GATE, DIR_OUT, SEND, SETTLE and DIR_IN write neither FB nor LEN nor CSUM, nor the operands and the
interface registers. -/
def Obligations.BusPhasesLeaveTheFrameAlone : Prop :=
  ∀ (i : Instr) (s t : State), i ∈ [Instr.gate, .dirOut, .send, .settle, .dirIn] → exec i s = .next t →
    t.fb = s.fb ∧ t.len = s.len ∧ t.csum = s.csum ∧ t.cmdRtype = s.cmdRtype ∧ t.cmdValue = s.cmdValue ∧
    t.ownUid = s.ownUid ∧ t.rxEndTs = s.rxEndTs ∧ t.pendingCount = s.pendingCount ∧ t.now = s.now

/-- R183: the events a command adds, in order, kept by every step of every agent while the command runs, until it has
returned. -/
def Obligations.CommandAddsTheEventsOfR183 : Prop :=
  ∀ (before : List Event) (s t : State), s.Inv → s.busy = true → s.schedule.head? ≠ some .reset →
    s.CommandTrace before → step s = .next t → t.CommandTrace before

/-- R50: the stamps of the trace never decrease, as long as NOW does not wrap. -/
def Obligations.TraceStampsNeverDecrease : Prop :=
  ∀ s t : State, s.TraceInTime → s.now + 1 < 2 ^ s.cfg.timeWidth → step s = .next t → t.TraceInTime

/-- R121, R236: every command of a supported type over a loaded frame can return: some moves of the clock, the
serialiser and the sequencer, and of no other agent, take it from STAMP to IDLE with SENT and DONE, DIR = INPUT, and the
whole frame sent. -/
def Obligations.StartedCommandCanReturn : Prop :=
  ∀ (s : State) (n : Byte), s.Inv → s.seq = 1#4 →
    s.cfg.supports s.cmdRtype = true → s.written s.cfg.minSize → Memory.read s.fb s.cfg.offMl = some n →
    (s.cmdRtype = s.cfg.rtAck → s.written n.toNat) →
    ∃ (moves : List Move) (k : Nat) (t : State), (∀ m ∈ moves, m.ofTheBlock = true) ∧
      runSteps k { s with schedule := moves } = .next t ∧ t.seq = 0#4 ∧ t.status = 0b0110#4 ∧ t.dir = .input ∧
      t.cmdRtype = s.cmdRtype ∧ t.cmdValue = s.cmdValue ∧
      (sentBytes t.trace).length = (sentBytes s.trace).length + t.len.toNat + 2

/-- R121, R171, R236: "Every command that starts reaches IDLE again", under the fairness assumptions on the clock and
the serialiser (`Fair`), whatever else the host and the outside do: a supported type, over a loaded frame, with SENT, any
other with ABORTED. -/
def Obligations.FairCommandReturns : Prop :=
  ∀ (s : State) (moves : Nat → Move), s.Inv → s.seq = 1#4 → Fair s.cfg moves →
    (s.cfg.supports s.cmdRtype = true → s.written s.cfg.minSize ∧
      ∃ n : Byte, Memory.read s.fb s.cfg.offMl = some n ∧ (s.cmdRtype = s.cfg.rtAck → s.written n.toNat)) →
    ∃ (k : Nat) (t : State), runSteps k { s with schedule := firstMoves moves k } = .next t ∧
      t.seq = 0#4 ∧ t.dir = .input ∧ t.cmdRtype = s.cmdRtype ∧ t.cmdValue = s.cmdValue ∧
      t.status = if s.cfg.supports s.cmdRtype = true then 0b0110#4 else 0b1010#4

/-! The host. -/

/-- R72, R201 to R207, R210, R224, R261: while a command runs no host access and no change of an input alters anything
of it. A host access, by name or by register index, leaves an answer at most, and SETCNT (by name, by index 3, or as the
input itself) sets PENDING_COUNT; a level of the serialiser that rises, or falls with no byte and no report to see, sets
that level. -/
def Obligations.HostIsLockedOutWhileBusy : Prop :=
  ∀ (s t : State) (rest : List Move), s.busy = true → step s = .next t →
    (∀ a, (s.schedule = .host a :: rest ∨
        (∃ i v, s.schedule = .regWrite i v :: rest ∧ a = HostAccess.ofWrite s.cfg i v) ∨
        (∃ i, s.schedule = .regRead i :: rest ∧ a = HostAccess.ofRead i)) →
      t = { s with schedule := rest, answers := t.answers, draws := t.draws, pendingCount := t.pendingCount } ∧
        (∀ c, a = .setCnt c → t.pendingCount = c ∧ t.answers = s.answers ∧ t.draws = s.draws) ∧
        ((∀ c, a ≠ .setCnt c) → t.pendingCount = s.pendingCount)) ∧
    (∀ v, s.schedule = .regWrite 3 v :: rest → s.cfg.valid = true →
      t = { s with schedule := rest, pendingCount := BitVec.ofNat 8 v }) ∧
    (∀ c, s.schedule = .pendingCount c :: rest → t = { s with schedule := rest, pendingCount := c }) ∧
    (∀ level, s.schedule = .txReady level :: rest → (level = false → s.txValid = true → s.txReady = false) →
      t = { s with schedule := rest, txReady := level }) ∧
    (∀ level, s.schedule = .txIdle level :: rest →
      (level = false → s.txActive = true → s.txValid = false → s.len.toNat + 2 ≤ s.idx.toNat → s.txIdle = false) →
      t = { s with schedule := rest, txIdle := level })

/-- R202, R204 to R207: what the host's writes do while BUSY = 0. -/
def Obligations.HostWritesWhileIdle : Prop :=
  ∀ (s : State) (rest : List Move), s.busy = false →
    (∀ off b, s.schedule = .host (.wrFb off b) :: rest → off < s.cfg.fbSize →
      ∃ m : Memory, step s = .next { s with schedule := rest, fb := m } ∧
        ∀ a, Memory.read m a = if a = off then some b else Memory.read s.fb a) ∧
    (∀ u, s.schedule = .host (.wrUid u) :: rest → step s = .next { s with schedule := rest, ownUid := u }) ∧
    (∀ v, s.schedule = .host (.wrRxEnd v) :: rest → v < 2 ^ s.cfg.timeWidth →
      step s = .next { s with schedule := rest, rxEndTs := v }) ∧
    (s.schedule = .host .rxEndCap :: rest → step s = .next { s with schedule := rest, rxEndTs := s.now }) ∧
    (∀ c, s.schedule = .host (.setCnt c) :: rest → step s = .next { s with schedule := rest, pendingCount := c })

/-- R40, R204 to R207, R210: the same writes by the register index table while BUSY = 0: index 2 is OWN_UID, 3
PENDING_COUNT, 4 RX_END_TS and 7 RX_END_CAP, whose value is ignored; a write to index 1, 5 or 6, which the host may not
write, is dropped, BUSY or not. Index 0 is CMD (StepRunsTheFetchedInstruction). -/
def Obligations.IndexedWritesFollowTheRegisterTable : Prop :=
  ∀ (s : State) (rest : List Move) (v : Nat), s.cfg.valid = true →
    (s.busy = false → s.schedule = .regWrite 2 v :: rest → v < 2 ^ 48 →
      step s = .next { s with schedule := rest, ownUid := BitVec.ofNat 48 v }) ∧
    (s.schedule = .regWrite 3 v :: rest → v < 2 ^ 8 →
      step s = .next { s with schedule := rest, pendingCount := BitVec.ofNat 8 v }) ∧
    (s.busy = false → s.schedule = .regWrite 4 v :: rest → v < 2 ^ s.cfg.timeWidth →
      step s = .next { s with schedule := rest, rxEndTs := v }) ∧
    (s.busy = false → s.schedule = .regWrite 7 v :: rest →
      step s = .next { s with schedule := rest, rxEndTs := s.now }) ∧
    (∀ i, i = 1 ∨ i = 5 ∨ i = 6 → s.schedule = .regWrite i v :: rest ∨ s.schedule = .host (.forbiddenWrite i) :: rest →
      step s = .next { s with schedule := rest })

/-- R40, R70, R203 to R205, R207 to R209: what the host's reads answer, by name and by register index, BUSY or not; a
read has no other effect. That an answer is kept in the list `answers` is the model's own (assumption log 5). -/
def Obligations.HostReadsAnswerTheRegister : Prop :=
  ∀ (s : State) (rest : List Move),
    (∀ off b, s.schedule = .host (.rdFb off) :: rest → s.busy = false → off < s.cfg.fbSize →
      Memory.read s.fb off = some b →
      step s = .next { s with schedule := rest, answers := s.answers ++ [.fb off b] }) ∧
    (s.schedule = .regRead 1 :: rest ∨ s.schedule = .host .rdStatus :: rest →
      step s = .next { s with schedule := rest, answers := s.answers ++ [.reg 1 s.status.toNat] }) ∧
    (s.schedule = .regRead 2 :: rest ∨ s.schedule = .host .rdUid :: rest →
      step s = .next { s with schedule := rest, answers := s.answers ++ [.reg 2 s.ownUid.toNat] }) ∧
    (s.schedule = .regRead 3 :: rest ∨ s.schedule = .host .rdCnt :: rest →
      step s = .next { s with schedule := rest, answers := s.answers ++ [.reg 3 s.pendingCount.toNat] }) ∧
    (s.schedule = .regRead 4 :: rest ∨ s.schedule = .host .rdRxEnd :: rest →
      step s = .next { s with schedule := rest, answers := s.answers ++ [.reg 4 s.rxEndTs] }) ∧
    (s.schedule = .regRead 5 :: rest ∨ s.schedule = .host .rdNow :: rest →
      step s = .next { s with schedule := rest, answers := s.answers ++ [.reg 5 s.now] }) ∧
    (s.schedule = .regRead 6 :: rest ∨ s.schedule = .host .rdDirstat :: rest →
      step s = .next { s with schedule := rest, answers := s.answers ++ [.reg 6 (if s.pullup = true then
        (if s.dir = .output then 3 else 2) else (if s.dir = .output then 1 else 0))] })

/-- R203, R210: a read whose result is unspecified answers with some value and changes nothing of the block: RD_FB while
BUSY = 1 or of a byte that nothing has written, and a read of index 0 or 7, which the host may not read. The value is a
free value, of which nothing is said but its size; that a counter names it is the model's own (assumption log 14). -/
def Obligations.UnspecifiedReadsAnswerSomeValue : Prop :=
  ∀ (s : State) (rest : List Move),
    (∀ off, s.schedule = .host (.rdFb off) :: rest → off < s.cfg.fbSize →
      (s.busy = true ∨ Memory.read s.fb off = none) →
      ∃ b : Byte, step s = .next { s with schedule := rest, answers := s.answers ++ [.fb off b], draws := s.draws + 1 }) ∧
    (∀ i, i = 0 ∨ i = 7 → s.schedule = .regRead i :: rest ∨ s.schedule = .host (.forbiddenRead i) :: rest →
      ∃ v : Nat, step s = .next { s with schedule := rest, answers := s.answers ++ [.reg i v], draws := s.draws + 1 })

/-- R210, R237: no host access, by name or by register index, faults or stalls; the only ones that get no next state are
those to an FB offset or a register index that does not exist, and those get none (refused by name: assumption log 15). -/
def Obligations.HostAccessesNeverFault : Prop :=
  (∀ (s : State) (a : HostAccess) (rest : List Move), s.schedule = .host a :: rest →
    (∃ t, step s = .next t) ∨
    (∃ off, s.cfg.fbSize ≤ off ∧ step s = .refused (.noSuchFbOffset off) ∧
      (a = .rdFb off ∨ ∃ b, a = .wrFb off b)) ∨
    (∃ index, 8 ≤ index ∧ step s = .refused (.noSuchRegister index) ∧
      (a = .forbiddenRead index ∨ a = .forbiddenWrite index))) ∧
  (∀ (s : State) (rest : List Move) (i v : Nat), s.schedule = .regWrite i v :: rest ∨ s.schedule = .regRead i :: rest →
    if i < 8 then ∃ t, step s = .next t else step s = .refused (.noSuchRegister i)) ∧
  (∀ (s : State) (rest : List Move) (off : Nat) (b : Byte), s.cfg.fbSize ≤ off →
    s.schedule = .host (.rdFb off) :: rest ∨ s.schedule = .host (.wrFb off b) :: rest →
    step s = .refused (.noSuchFbOffset off))

/-- R69, R73 (b), R202, R211: what the host loads is what the command sees: a run of WR_FB accesses while BUSY = 0 and
then START leave the command at STAMP with the loaded bytes in FB, in order, its operands latched, and nothing else
changed; STAMP then works on that FB. -/
def Obligations.LoadedFrameIsSeenByTheCommand : Prop :=
  ∀ (s : State) (off : Nat) (bytes : List Byte) (w : CmdWord) (rest : List Move),
    s.busy = false → off + bytes.length ≤ s.cfg.fbSize →
    s.schedule = (List.range bytes.length).map (fun k => Move.host (.wrFb (off + k) (bytes.getD k 0#8))) ++
      .host (.start w) :: .sequencer :: rest →
    ∃ m m' : Memory,
      runSteps (bytes.length + 1) s =
        .next { s with schedule := .sequencer :: rest, fb := m, cmdRtype := (w >>> 16).setWidth 8,
                       cmdValue := w.setWidth 16, status := 0b0001#4, seq := 1#4 } ∧
      (∀ a, Memory.read m a =
        if off ≤ a ∧ a < off + bytes.length then bytes[a - off]? else Memory.read s.fb a) ∧
      runSteps (bytes.length + 2) s =
        .next { s with schedule := rest, fb := m', cmdRtype := (w >>> 16).setWidth 8,
                       cmdValue := w.setWidth 16, status := 0b0001#4, seq := 2#4 } ∧
      ∀ a, Memory.read m' a = if a = s.cfg.offMc then some s.pendingCount else Memory.read m a
end

