-- ==== Sys2Proof/Laws/Config.lean ====
section
/-! SUPPORT. What consistent parameters say, as facts about numbers. -/

namespace Sys2Proof

/-- The header fields in their order, each with its size, the bound on MIN_SIZE, and the size of FB. -/
theorem Config.layout_of_valid {c : Config} (h : c.valid = true) :
    c.offSc < c.offSsc ∧ c.offSsc < c.offMl ∧ c.offMl < c.offDst ∧ c.offDst + 6 ≤ c.offSrc ∧ c.offSrc + 6 ≤ c.offTn ∧
      c.offTn < c.offRt ∧ c.offRt < c.offMc ∧ c.offMc < c.offSubdev ∧ c.offSubdev + 2 ≤ c.offCc ∧
      c.offCc < c.offPid ∧ c.offPid + 2 < c.minSize ∧ c.minSize + 2 ≤ 255 ∧ 257 ≤ c.fbSize := by
  simp only [Config.valid, Config.layout, Bool.and_eq_true, decide_eq_true_eq] at h
  omega

/-- The three response types are distinct. -/
theorem Config.types_of_valid {c : Config} (h : c.valid = true) :
    c.rtAck ≠ c.rtAckTimer ∧ c.rtAck ≠ c.rtNackReason ∧ c.rtAckTimer ≠ c.rtNackReason := by
  simp only [Config.valid, Bool.and_eq_true, decide_eq_true_eq] at h
  tauto

/-- The spacing, the settling delay and W. -/
theorem Config.times_of_valid {c : Config} (h : c.valid = true) :
    16 ≤ c.timeWidth ∧ 176 ≤ c.spacing ∧ c.spacing < 2 ^ c.timeWidth ∧ c.dirSwitch < 2 ^ c.timeWidth := by
  simp only [Config.valid, Bool.and_eq_true, decide_eq_true_eq] at h
  tauto

/-- COUNT_WIDTH is 8. -/
theorem Config.countWidth_of_valid {c : Config} (h : c.valid = true) : c.countWidth = 8 := by
  simp only [Config.valid, Bool.and_eq_true, decide_eq_true_eq] at h
  tauto

/-- MIN_SIZE + 2 as a length byte does not wrap. -/
theorem Config.valueLength_toNat {c : Config} (h : c.valid = true) : c.valueLength.toNat = c.minSize + 2 := by
  have := Config.layout_of_valid h
  simp only [Config.valueLength, Config.valueSize, BitVec.toNat_ofNat]
  omega

end Sys2Proof
end

