-- ==== Sys2Proof/Laws/Decode.lean ====
section
/-! SUPPORT. The fields of a command word and the word of two fields undo each other. -/

namespace Sys2Proof

/-- A command word bit by bit: VALUE below bit 16, RTYPE from bit 16 on. -/
theorem getLsbD_cmdWordOf (r : Byte) (v : Word16) (i : Nat) :
    (cmdWordOf r v).getLsbD i = if i < 16 then v.getLsbD i else r.getLsbD (i - 16) := by
  unfold cmdWordOf
  exact BitVec.getLsbD_append

@[simp] theorem cmdRtypeField_cmdWordOf (r : Byte) (v : Word16) : cmdRtypeField (cmdWordOf r v) = r := by
  apply BitVec.eq_of_getLsbD_eq
  intro i hi
  rw [cmdRtypeField, BitVec.getLsbD_extractLsb', getLsbD_cmdWordOf, if_neg (by omega)]
  simp [hi]

@[simp] theorem cmdValueField_cmdWordOf (r : Byte) (v : Word16) : cmdValueField (cmdWordOf r v) = v := by
  apply BitVec.eq_of_getLsbD_eq
  intro i hi
  rw [cmdValueField, BitVec.getLsbD_extractLsb', getLsbD_cmdWordOf, if_pos (by omega)]
  simp [hi]

@[simp] theorem cmdWordOf_fields (w : CmdWord) : cmdWordOf (cmdRtypeField w) (cmdValueField w) = w := by
  apply BitVec.eq_of_getLsbD_eq
  intro i hi
  rw [getLsbD_cmdWordOf]
  split
  · next h => simp [cmdValueField, h]
  · next h => simp [cmdRtypeField, show 16 + (i - 16) = i by omega, show i - 16 < 8 by omega]

end Sys2Proof
end

