-- ==== Sys2Proof/Laws/Memory.lean ====
section
/-! SUPPORT. What the frame-buffer operations do: a read after a write, the canonical form, the sum and the swap. -/

namespace Sys2Proof.Machine

@[simp] theorem Memory.read_nil (a : Nat) : Memory.read [] a = none := rfl

/-- A read after a write gives the byte written at its offset and the old byte everywhere else. -/
@[simp] theorem Memory.read_write (m : Memory) (a : Nat) (b : Byte) (x : Nat) :
    Memory.read (Memory.write m a b) x = if x = a then some b else Memory.read m x := by
  induction m with
  | nil =>
    by_cases h : x = a
    · subst h; simp [Memory.write, Memory.read]
    · simp [Memory.write, Memory.read, h, Ne.symm h]
  | cons e rest ih =>
    obtain ⟨y, v⟩ := e
    unfold Memory.write
    by_cases h1 : a < y
    · rw [if_pos h1]
      by_cases h : x = a
      · subst h; simp [Memory.read]
      · rw [if_neg h, Memory.read, if_neg (Ne.symm h)]
    · rw [if_neg h1]
      by_cases h2 : a = y
      · subst h2
        by_cases h : x = a
        · subst h; simp [Memory.read]
        · simp [Memory.read, h, Ne.symm h]
      · rw [if_neg h2, Memory.read, ih]
        by_cases hy : y = x
        · subst hy; simp [Memory.read, Ne.symm h2]
        · simp [Memory.read, hy]

/-- Writing at `a` at or below every offset listed keeps `x` below the rest. -/
theorem Memory.wf_cons_write (x : Nat) (v : Byte) (m : Memory) (a : Nat) (b : Byte)
    (hx : x < a) (h : Memory.wf ((x, v) :: m) = true) : Memory.wf ((x, v) :: Memory.write m a b) = true := by
  induction m generalizing x v with
  | nil => simp [Memory.write, Memory.wf, hx]
  | cons e rest ih =>
    obtain ⟨y, w⟩ := e
    simp only [Memory.wf, Bool.and_eq_true, decide_eq_true_eq] at h
    unfold Memory.write
    split_ifs with h1 h2
    · simp [Memory.wf, hx, h1, h.2]
    · subst h2
      have hr : Memory.wf ((a, b) :: rest) = true := by
        have h3 := h.2
        cases rest with
        | nil => rfl
        | cons e' r' => obtain ⟨z, u⟩ := e'; simpa [Memory.wf] using h3
      simp [Memory.wf, hx, hr]
    · have : y < a := by omega
      simp [Memory.wf, h.1, ih y w this h.2]

/-- A write keeps the canonical form. -/
theorem Memory.wf_write (m : Memory) (a : Nat) (b : Byte) (h : Memory.wf m = true) :
    Memory.wf (Memory.write m a b) = true := by
  cases m with
  | nil => rfl
  | cons e rest =>
    obtain ⟨y, w⟩ := e
    unfold Memory.write
    split_ifs with h1 h2
    · simp [Memory.wf, h1, h]
    · subst h2
      cases rest with
      | nil => rfl
      | cons e' r' => obtain ⟨z, u⟩ := e'; simpa [Memory.wf] using h
    · exact Memory.wf_cons_write y w rest a b (by omega) h

/-- A load answers a byte exactly where one has been written. -/
theorem Memory.load_ok_iff (m : Memory) (a : Nat) (b : Byte) :
    Memory.load m a = .ok b ↔ Memory.read m a = some b := by
  unfold Memory.load
  cases Memory.read m a <;> simp

theorem Memory.load_of_read {m : Memory} {a : Nat} {b : Byte} (h : Memory.read m a = some b) :
    Memory.load m a = .ok b := (Memory.load_ok_iff m a b).2 h

theorem Memory.load_of_none {m : Memory} {a : Nat} (h : Memory.read m a = none) :
    Memory.load m a = .error (.unwrittenRead a) := by
  unfold Memory.load; rw [h]

@[simp] theorem Memory.read_write16be (m : Memory) (a : Nat) (v : Word16) (x : Nat) :
    Memory.read (Memory.write16be m a v) x =
      if x = a + 1 then some (lo8 v) else if x = a then some (hi8 v) else Memory.read m x := by
  simp [Memory.write16be]

/-- The memory after reset has the form. -/
theorem State.reset_fb_wf (c : Config) : Memory.wf (State.resetWith c).fb = true := rfl

theorem Memory.wf_write16be (m : Memory) (a : Nat) (v : Word16) (h : Memory.wf m = true) :
    Memory.wf (Memory.write16be m a v) = true :=
  Memory.wf_write _ _ _ (Memory.wf_write _ _ _ h)

/-- The stores of the NACK_REASON and ACK_TIMER paths, byte by byte, the last store first. -/
theorem Memory.read_storeValueResponse (c : Config) (m : Memory) (rtype : Byte) (value : Word16) (x : Nat) :
    Memory.read (Memory.storeValueResponse c m rtype value) x =
      if x = c.minSize + 1 then some (lo8 value) else if x = c.minSize then some (hi8 value)
      else if x = c.minSize - 1 then some 2#8 else if x = c.offRt then some rtype
      else if x = c.offMl then some c.valueLength else Memory.read m x := by
  simp only [Memory.storeValueResponse, Memory.read_write16be, Memory.read_write]

/-- The length byte after those stores, where the fields do not overlap. -/
theorem Memory.read_storeValueResponse_length {c : Config} (hc : c.valid = true) (m : Memory) (rtype : Byte)
    (value : Word16) : Memory.read (Memory.storeValueResponse c m rtype value) c.offMl = some c.valueLength := by
  have := Config.layout_of_valid hc
  rw [Memory.read_storeValueResponse, if_neg (by omega), if_neg (by omega), if_neg (by omega), if_neg (by omega),
    if_pos rfl]

theorem Memory.wf_storeValueResponse (c : Config) (m : Memory) (rtype : Byte) (value : Word16)
    (h : Memory.wf m = true) : Memory.wf (Memory.storeValueResponse c m rtype value) = true :=
  Memory.wf_write16be _ _ _ (Memory.wf_write _ _ _ (Memory.wf_write _ _ _ (Memory.wf_write _ _ _ h)))

/-- Where the bytes have been written, the sum is `acc` plus each of them, modulo 2^16. -/
theorem Memory.sum_of_read (m : Memory) (b : Nat → Byte) :
    ∀ (count off : Nat) (acc : Word16), (∀ k, k < count → Memory.read m (off + k) = some (b (off + k))) →
      Memory.sum m count off acc =
        .ok (acc + BitVec.ofNat 16 ((List.range' off count).map fun a => (b a).toNat).sum)
  | 0, off, acc, _ => by simp [Memory.sum]
  | count + 1, off, acc, h => by
    have h0 := h 0 (by omega)
    have hr : ∀ k, k < count → Memory.read m (off + 1 + k) = some (b (off + 1 + k)) := fun k hk => by
      have := h (k + 1) (by omega)
      rwa [show off + (k + 1) = off + 1 + k by omega] at this
    rw [Memory.sum, Memory.load_of_read (by simpa using h0)]
    simp only [Memory.sum_of_read m b count (off + 1) _ hr, List.range'_succ, List.map_cons, List.sum_cons]
    congr 1
    rw [BitVec.add_assoc]
    congr 1
    apply BitVec.eq_of_toNat_eq
    simp

/-- The sum answers only where every byte of its range has been written. -/
theorem Memory.read_of_sum (m : Memory) :
    ∀ (count off : Nat) (acc v : Word16), Memory.sum m count off acc = .ok v →
      ∀ k, k < count → ∃ b, Memory.read m (off + k) = some b
  | 0, _, _, _, _, k, hk => absurd hk (by omega)
  | count + 1, off, acc, v, h, k, hk => by
    unfold Memory.sum at h
    split at h
    · next b hb =>
      cases k with
      | zero => exact ⟨b, by simpa using (Memory.load_ok_iff m off b).1 hb⟩
      | succ k =>
        obtain ⟨c, hc⟩ := Memory.read_of_sum m count (off + 1) _ v h k (by omega)
        exact ⟨c, by rwa [show off + (k + 1) = off + 1 + k by omega]⟩
    · cases h

/-- The sum stops where a byte of its range has never been written. -/
theorem Memory.sum_of_none (m : Memory) :
    ∀ (count off : Nat) (acc : Word16), (∃ a, off ≤ a ∧ a < off + count ∧ Memory.read m a = none) →
      ∃ a, Memory.sum m count off acc = .error (.unwrittenRead a)
  | 0, _, _, h => by obtain ⟨a, h1, h2, _⟩ := h; omega
  | count + 1, off, acc, h => by
    unfold Memory.sum
    cases hl : Memory.read m off with
    | none => rw [Memory.load_of_none hl]; exact ⟨off, rfl⟩
    | some b =>
      rw [Memory.load_of_read hl]
      obtain ⟨a, h1, h2, h3⟩ := h
      have hne : a ≠ off := by rintro rfl; simp [hl] at h3
      exact Memory.sum_of_none m count (off + 1) _ ⟨a, by omega, by omega, h3⟩

/-- What SWAP's loop leaves, turn by turn: destination byte `j` is the old source byte `j`, source byte `j` is
OWN_UID[j], for the indices the loop covers, and no other byte changes. The two fields must not overlap. -/
theorem Memory.read_swapUid {c : Config} (hl : c.offDst + 6 ≤ c.offSrc) (u : Uid) :
    ∀ (count i : Nat) (m m' : Memory), i + count ≤ 6 → Memory.swapUid c u count i m = .ok m' → ∀ x,
      Memory.read m' x =
        if c.offDst + i ≤ x ∧ x < c.offDst + i + count then Memory.read m (c.offSrc + (x - c.offDst))
        else if c.offSrc + i ≤ x ∧ x < c.offSrc + i + count then some (uidByte u (x - c.offSrc))
        else Memory.read m x
  | 0, i, m, m', _, h, x => by
    simp only [Memory.swapUid, Except.ok.injEq] at h
    subst h
    rw [if_neg (by omega), if_neg (by omega)]
  | count + 1, i, m, m', hi, h, x => by
    unfold Memory.swapUid at h
    split at h
    · next b hb =>
      have hb' := (Memory.load_ok_iff _ _ _).1 hb
      rw [Memory.read_swapUid hl u count (i + 1) _ m' (by omega) h x]
      simp only [Memory.read_write]
      by_cases h1 : x = c.offDst + i
      · subst h1
        rw [if_neg (by omega), if_neg (by omega), if_neg (by omega), if_pos rfl, if_pos (by omega), ← hb']
        congr 1; omega
      · by_cases h2 : x = c.offSrc + i
        · subst h2
          rw [if_neg (by omega), if_neg (by omega), if_pos rfl, if_neg (by omega), if_pos (by omega)]
          congr 2; omega
        · by_cases h3 : c.offDst + (i + 1) ≤ x ∧ x < c.offDst + (i + 1) + count
          · rw [if_pos h3, if_neg (by omega), if_neg (by omega), if_pos (by omega)]
          · rw [if_neg h3]
            by_cases h4 : c.offSrc + (i + 1) ≤ x ∧ x < c.offSrc + (i + 1) + count
            · rw [if_pos h4, if_neg (by omega), if_pos (by omega)]
            · rw [if_neg h4, if_neg h2, if_neg h1, if_neg (by omega), if_neg (by omega)]
    · cases h

/-- SWAP's loop answers exactly where the source bytes it reads have been written. -/
theorem Memory.swapUid_ok_of_read {c : Config} (hl : c.offDst + 6 ≤ c.offSrc) (u : Uid) :
    ∀ (count i : Nat) (m : Memory), i + count ≤ 6 →
      (∀ k, k < count → ∃ b, Memory.read m (c.offSrc + i + k) = some b) → ∃ m', Memory.swapUid c u count i m = .ok m'
  | 0, _, m, _, _ => ⟨m, rfl⟩
  | count + 1, i, m, hi, h => by
    obtain ⟨b, hb⟩ := h 0 (by omega)
    rw [Nat.add_zero] at hb
    rw [Memory.swapUid, Memory.load_of_read hb]
    refine Memory.swapUid_ok_of_read hl u count (i + 1) _ (by omega) fun k hk => ?_
    obtain ⟨d, hd⟩ := h (k + 1) (by omega)
    refine ⟨d, ?_⟩
    simp only [Memory.read_write]
    rw [if_neg (by omega), if_neg (by omega), ← hd]
    congr 1; omega

/-- SWAP's loop stops where a source byte has never been written. -/
theorem Memory.swapUid_of_none {c : Config} (hl : c.offDst + 6 ≤ c.offSrc) (u : Uid) :
    ∀ (count i : Nat) (m : Memory), i + count ≤ 6 →
      (∃ k, i ≤ k ∧ k < i + count ∧ Memory.read m (c.offSrc + k) = none) →
      ∃ a, Memory.swapUid c u count i m = .error (.unwrittenRead a)
  | 0, _, _, _, h => by obtain ⟨a, h1, h2, _⟩ := h; omega
  | count + 1, i, m, hi, h => by
    unfold Memory.swapUid
    cases hr : Memory.read m (c.offSrc + i) with
    | none => rw [Memory.load_of_none hr]; exact ⟨_, rfl⟩
    | some b =>
      rw [Memory.load_of_read hr]
      obtain ⟨k, h1, h2, h3⟩ := h
      have hne : k ≠ i := by rintro rfl; simp [hr] at h3
      refine Memory.swapUid_of_none hl u count (i + 1) _ (by omega) ⟨k, by omega, by omega, ?_⟩
      simp only [Memory.read_write]
      rw [if_neg (by omega), if_neg (by omega)]
      exact h3

theorem Memory.wf_swapUid (c : Config) (u : Uid) :
    ∀ (count i : Nat) (m m' : Memory), Memory.wf m = true → Memory.swapUid c u count i m = .ok m' →
      Memory.wf m' = true
  | 0, _, m, m', hm, h => by
    simp only [Memory.swapUid, Except.ok.injEq] at h
    exact h ▸ hm
  | count + 1, i, m, m', hm, h => by
    unfold Memory.swapUid at h
    split at h
    · exact Memory.wf_swapUid c u count (i + 1) _ m' (Memory.wf_write _ _ _ (Memory.wf_write _ _ _ hm)) h
    · cases h

end Sys2Proof.Machine
end

