-- ==== Sys2Proof/Laws/Ops.lean ====
section
/-! SUPPORT. What each shared operation can do, said once, and the arithmetic of time and of the flags. -/

namespace Sys2Proof.Machine

/-! Reads that a phase rests on. -/

/-- A phase that reads goes on only with a read that answered. -/
theorem withRead_next {α : Type} {r : Except Fault α} {k : α → Result} {t : State}
    (h : withRead r k = .next t) : ∃ a, r = .ok a ∧ k a = .next t := by
  cases r with
  | ok a => exact ⟨a, rfl, h⟩
  | error e => cases h

@[simp] theorem withRead_ok {α : Type} (a : α) (k : α → Result) : withRead (.ok a) k = k a := rfl

@[simp] theorem withRead_error {α : Type} (e : Fault) (k : α → Result) :
    withRead (.error e : Except Fault α) k = .fault e := rfl

/-! Flags. -/

theorem statusStarted_flags :
    statusStarted.getLsbD 0 = true ∧ statusStarted.getLsbD 1 = false ∧ statusStarted.getLsbD 2 = false ∧
      statusStarted.getLsbD 3 = false := by decide

theorem statusSent_flags : ∀ v : BitVec 4,
    (statusSent v).getLsbD 0 = false ∧ (statusSent v).getLsbD 1 = true ∧ (statusSent v).getLsbD 2 = true ∧
      (statusSent v).getLsbD 3 = v.getLsbD 3 := by decide

theorem statusAborted_flags : ∀ v : BitVec 4,
    (statusAborted v).getLsbD 0 = false ∧ (statusAborted v).getLsbD 1 = true ∧
      (statusAborted v).getLsbD 2 = v.getLsbD 2 ∧ (statusAborted v).getLsbD 3 = true := by decide

/-! Indices. -/

@[simp] theorem State.lenIndex_toNat (s : State) : s.lenIndex.toNat = s.len.toNat := by
  have := s.len.isLt
  simp only [State.lenIndex, BitVec.toNat_setWidth]
  omega

/-- The transmit count never wraps its 9 bits: it is LEN + 2 (R149). -/
@[simp] theorem State.sendCount_toNat (s : State) : s.sendCount.toNat = s.len.toNat + 2 := by
  have := s.len.isLt
  simp only [State.sendCount, BitVec.toNat_add, State.lenIndex_toNat, BitVec.toNat_ofNat]
  omega

theorem State.idx_lt_sendCount (s : State) : s.idx < s.sendCount ↔ s.idx.toNat < s.len.toNat + 2 := by
  rw [BitVec.lt_def, State.sendCount_toNat]

/-! Time. -/

/-- On W-bit values the modular difference is the difference, or the difference plus 2^W (R174). -/
theorem tickSub_eq {w a b : Nat} (ha : a < 2 ^ w) (hb : b < 2 ^ w) :
    tickSub w a b = if b ≤ a then a - b else a + 2 ^ w - b := by
  unfold tickSub
  rw [Nat.mod_eq_of_lt ha, Nat.mod_eq_of_lt hb]
  split_ifs with h
  · rw [show a + (2 ^ w - b) = a - b + 2 ^ w by omega, Nat.add_mod_right, Nat.mod_eq_of_lt (by omega)]
  · rw [show a + (2 ^ w - b) = a + 2 ^ w - b by omega, Nat.mod_eq_of_lt (by omega)]

theorem tickSub_lt (w a b : Nat) : tickSub w a b < 2 ^ w := Nat.mod_lt _ (Nat.two_pow_pos w)

theorem tickSucc_lt (w a : Nat) : tickSucc w a < 2 ^ w := Nat.mod_lt _ (Nat.two_pow_pos w)

/-- One tick adds one to a modular difference that does not wrap. -/
theorem tickSub_tickSucc {w a b : Nat} (ha : a < 2 ^ w) (hb : b < 2 ^ w) (h : tickSub w a b + 1 < 2 ^ w) :
    tickSub w (tickSucc w a) b = tickSub w a b + 1 := by
  rw [tickSub_eq ha hb] at h ⊢
  have hs : tickSucc w a = if a + 1 = 2 ^ w then 0 else a + 1 := by
    unfold tickSucc
    split_ifs with h1
    · rw [h1, Nat.mod_self]
    · exact Nat.mod_eq_of_lt (by omega)
  rw [tickSub_eq (tickSucc_lt w a) hb, hs]
  by_cases h1 : a + 1 = 2 ^ w
  · by_cases h2 : b ≤ a
    · simp only [h1, h2, if_true] at h ⊢
      by_cases h3 : b ≤ 0
      · omega
      · rw [if_neg h3]; omega
    · omega
  · by_cases h2 : b ≤ a
    · rw [if_neg h1, if_pos h2, if_pos (by omega)]; omega
    · rw [if_neg h2] at h
      rw [if_neg h1, if_neg h2]
      by_cases h3 : b ≤ a + 1
      · omega
      · rw [if_neg h3]; omega

/-! The delay primitive. -/

/-- A delay of `n` begins and is waited out, or, when `n` is 0, ends at once. -/
theorem State.beginDelay_cases (s : State) (n : Nat) (phase : SeqCode) :
    (n = 0 ∧ State.beginDelay s n phase = { s with t0 := s.now, dly := 0, seq := phase }) ∨
      (0 < n ∧ State.beginDelay s n phase = { s with t0 := s.now, dly := n, delaying := true }) := by
  unfold State.beginDelay
  split_ifs with h
  · exact .inl ⟨h, rfl⟩
  · exact .inr ⟨Nat.pos_of_ne_zero h, rfl⟩

/-- A delay that is waited out ends when NOW -_W T0 has reached DLY, and until then nothing changes. -/
theorem State.awaitDelay_cases (s : State) (phase : SeqCode) :
    (s.dly ≤ s.waited ∧ State.awaitDelay s phase = { s with delaying := false, seq := phase }) ∨
      (s.waited < s.dly ∧ State.awaitDelay s phase = s) := by
  unfold State.awaitDelay
  split_ifs with h
  · exact .inl ⟨h, rfl⟩
  · exact .inr ⟨by omega, rfl⟩

/-! START. -/

theorem State.startCommand_idle (s : State) (rtype : Byte) (value : Word16) (h : s.busy = false) :
    State.startCommand s rtype value =
      { s with cmdRtype := rtype, cmdValue := value, status := statusStarted, seq := SeqCode.stamp } := by
  simp [State.startCommand, h]

theorem State.startCommand_busy (s : State) (rtype : Byte) (value : Word16) (h : s.busy = true) :
    State.startCommand s rtype value = s := by
  simp [State.startCommand, h]

/-! What the reading operations can do. -/

/-- The end of DISPATCH goes on exactly where the length byte has been written. -/
theorem latchLength_next {s t : State} (h : latchLength s = .next t) :
    ∃ b, Memory.read s.fb s.cfg.offMl = some b ∧ t = { s with len := b, seq := SeqCode.swap } := by
  obtain ⟨b, hb, ht⟩ := withRead_next h
  exact ⟨b, (Memory.load_ok_iff _ _ _).1 hb, (Host.Outcome.next.inj ht).symm⟩

/-! The byte handshake and what the serialiser's levels bring about. -/

theorem offerByte_next {s t : State} (h : offerByte s = .next t) :
    ∃ b, Memory.read s.fb s.idx.toNat = some b ∧ t = { s with txData := b, txValid := true } := by
  obtain ⟨b, hb, ht⟩ := withRead_next h
  exact ⟨b, (Memory.load_ok_iff _ _ _).1 hb, (Host.Outcome.next.inj ht).symm⟩

theorem State.idx_succ_toNat {s : State} (h : s.idx.toNat < s.len.toNat + 2) :
    (s.idx + 1#9).toNat = s.idx.toNat + 1 := by
  have := s.len.isLt
  rw [BitVec.toNat_add, BitVec.toNat_ofNat]
  omega

/-- A byte taken: another is offered, or it was the last. -/
theorem handOver_next {s t : State} (hi : s.idx.toNat < s.len.toNat + 2) (h : handOver s = .next t) :
    ∃ b, Memory.read s.fb s.idx.toNat = some b ∧
      ((s.idx.toNat + 1 < s.len.toNat + 2 ∧ ∃ c, Memory.read s.fb (s.idx.toNat + 1) = some c ∧
          t = { s with idx := s.idx + 1#9, txData := c, txValid := true, txIdle := false,
                       trace := s.trace ++ [Event.tx s.now s.idx.toNat b] }) ∨
        (s.idx.toNat + 1 = s.len.toNat + 2 ∧
          t = { s with idx := s.idx + 1#9, txValid := false, txIdle := false,
                       trace := s.trace ++ [Event.tx s.now s.idx.toNat b] })) := by
  obtain ⟨b, hb, ht⟩ := withRead_next h
  refine ⟨b, (Memory.load_ok_iff _ _ _).1 hb, ?_⟩
  have hiff : s.idx + 1#9 < s.sendCount ↔ s.idx.toNat + 1 < s.len.toNat + 2 := by
    rw [BitVec.lt_def, State.sendCount_toNat, State.idx_succ_toNat hi]
  split at ht
  · next hlt =>
    obtain ⟨c, hc, rfl⟩ := offerByte_next ht
    refine .inl ⟨hiff.1 hlt, c, ?_, rfl⟩
    rw [← hc]
    simp only [State.byteTaken, State.emit]
    rw [State.idx_succ_toNat hi]
  · next hlt =>
    refine .inr ⟨?_, (Host.Outcome.next.inj ht).symm⟩
    rw [hiff] at hlt
    omega

/-- What a hand-over leaves alone, whatever IDX is: all but IDX, the transmitter's ports and the trace, which has gained
the byte FB[IDX]. -/
theorem handOver_frame {s t : State} (h : handOver s = .next t) :
    ∃ b, Memory.read s.fb s.idx.toNat = some b ∧
      t = { s with idx := s.idx + 1#9, txData := t.txData, txValid := t.txValid, txIdle := false,
                   trace := s.trace ++ [Event.tx s.now s.idx.toNat b] } := by
  obtain ⟨b, hb, ht⟩ := withRead_next h
  refine ⟨b, (Memory.load_ok_iff _ _ _).1 hb, ?_⟩
  split at ht
  · obtain ⟨c, _, rfl⟩ := offerByte_next ht
    rfl
  · rw [← Host.Outcome.next.inj ht]
    rfl

/-- A hand-over with another byte to follow. -/
theorem handOver_more {s : State} {b c : Byte} (hi : s.idx.toNat + 1 < s.len.toNat + 2)
    (hb : Memory.read s.fb s.idx.toNat = some b) (hc : Memory.read s.fb (s.idx.toNat + 1) = some c) :
    handOver s = .next { s with idx := s.idx + 1#9, txData := c, txValid := true, txIdle := false,
                                trace := s.trace ++ [Event.tx s.now s.idx.toNat b] } := by
  have hx := State.idx_succ_toNat (s := s) (by omega)
  have hlt : s.idx + 1#9 < s.sendCount := by rw [BitVec.lt_def, State.sendCount_toNat, hx]; exact hi
  unfold handOver offerByte
  rw [Memory.load_of_read hb, withRead_ok, if_pos hlt]
  simp only [State.byteTaken, State.emit, hx]
  rw [Memory.load_of_read hc, withRead_ok]

/-- A hand-over of the last byte. -/
theorem handOver_last {s : State} {b : Byte} (hi : s.idx.toNat + 1 = s.len.toNat + 2)
    (hb : Memory.read s.fb s.idx.toNat = some b) :
    handOver s = .next { s with idx := s.idx + 1#9, txValid := false, txIdle := false,
                                trace := s.trace ++ [Event.tx s.now s.idx.toNat b] } := by
  have hlt : ¬ s.idx + 1#9 < s.sendCount := by
    rw [BitVec.lt_def, State.sendCount_toNat, State.idx_succ_toNat (by omega)]; omega
  unfold handOver
  rw [Memory.load_of_read hb, withRead_ok, if_neg hlt]
  rfl

/-- A hand-over stops where the byte to follow has never been written. -/
theorem handOver_unwritten {s : State} {b : Byte} (hi : s.idx.toNat + 1 < s.len.toNat + 2)
    (hb : Memory.read s.fb s.idx.toNat = some b) (hc : Memory.read s.fb (s.idx.toNat + 1) = none) :
    handOver s = .fault (.unwrittenRead (s.idx.toNat + 1)) := by
  have hx := State.idx_succ_toNat (s := s) (by omega)
  have hlt : s.idx + 1#9 < s.sendCount := by rw [BitVec.lt_def, State.sendCount_toNat, hx]; exact hi
  unfold handOver offerByte
  rw [Memory.load_of_read hb, withRead_ok, if_pos hlt]
  simp only [State.byteTaken, State.emit, hx]
  rw [Memory.load_of_none hc, withRead_error]

theorem mapNext_next {f : State → State} {r : Result} {t : State} (h : mapNext f r = .next t) :
    ∃ u, r = .next u ∧ t = f u := by
  cases r with
  | next u => exact ⟨u, rfl, (Host.Outcome.next.inj h).symm⟩
  | fault e => cases h
  | refused e => cases h

/-- With `tx_valid` and `tx_ready` both 1 the offered byte is handed over. -/
theorem takeOffered_ready {s : State} (hv : s.txValid = true) (hr : s.txReady = true) :
    takeOffered s = handOver s := if_pos ⟨hv, hr⟩

/-- With either of them 0 nothing is taken. -/
theorem takeOffered_held {s : State} (h : s.txValid = true → s.txReady = false) : takeOffered s = .next s :=
  if_neg fun hc => by simp [h hc.1] at hc

/-- The offered byte is handed over where `tx_valid` and `tx_ready` are both 1, and nothing happens otherwise. -/
theorem takeOffered_next {s t : State} (h : takeOffered s = .next t) :
    (s.txValid = true ∧ s.txReady = true ∧ handOver s = .next t) ∨
      ((s.txValid = true → s.txReady = false) ∧ t = s) := by
  unfold takeOffered at h
  split at h
  · next hc => exact .inl ⟨hc.1, hc.2, h⟩
  · next hc => exact .inr ⟨fun hv => by simpa [hv] using hc, (Host.Outcome.next.inj h).symm⟩

/-- SEND is over, and SETTLE's delay has begun, where every byte has been handed over and `tx_idle` is 1; nothing happens
otherwise. -/
theorem State.seeReport_cases (s : State) :
    (s.txActive = true ∧ s.txValid = false ∧ s.len.toNat + 2 ≤ s.idx.toNat ∧ s.txIdle = true ∧
      State.seeReport s = { s with txActive := false, txValid := false, t0 := s.now, dly := s.cfg.dirSwitch,
                                   delaying := true, trace := s.trace ++ [Event.txDone s.now], seq := 10#4 }) ∨
    ((s.txActive = true → s.txValid = false → s.len.toNat + 2 ≤ s.idx.toNat → s.txIdle = false) ∧
      State.seeReport s = s) := by
  have hi : s.sendCount ≤ s.idx ↔ s.len.toNat + 2 ≤ s.idx.toNat := by rw [BitVec.le_def, State.sendCount_toNat]
  unfold State.seeReport
  split_ifs with h
  · exact .inl ⟨h.1, h.2.1, hi.1 h.2.2.1, h.2.2.2, rfl⟩
  · refine .inr ⟨fun h1 h2 h3 => ?_, rfl⟩
    cases h4 : s.txIdle with
    | false => rfl
    | true => exact absurd ⟨h1, h2, hi.2 h3, h4⟩ h

/-- A byte handed over is one the serialiser now holds, so no report is seen with it. -/
theorem State.seeReport_of_busy {s : State} (h : s.txIdle = false) : State.seeReport s = s :=
  if_neg fun hc => by simp [h] at hc

/-- A tick ends in one of three ways: a byte is handed over in it, the report is seen in it, or neither; NOW counts. -/
theorem countTick_next {s t : State} (h : countTick s = .next t) :
    (s.txValid = true ∧ s.txReady = true ∧
      ∃ u, handOver s = .next u ∧ t = { u with now := tickSucc s.cfg.timeWidth s.now }) ∨
    (s.txActive = true ∧ s.txValid = false ∧ s.len.toNat + 2 ≤ s.idx.toNat ∧ s.txIdle = true ∧
      t = { s with txActive := false, txValid := false, t0 := s.now, dly := s.cfg.dirSwitch, delaying := true,
                   trace := s.trace ++ [Event.txDone s.now], seq := 10#4, now := tickSucc s.cfg.timeWidth s.now }) ∨
    ((s.txValid = true → s.txReady = false) ∧
      (s.txActive = true → s.txValid = false → s.len.toNat + 2 ≤ s.idx.toNat → s.txIdle = false) ∧
      t = { s with now := tickSucc s.cfg.timeWidth s.now }) := by
  obtain ⟨u, hu, rfl⟩ := mapNext_next h
  rcases takeOffered_next hu with ⟨hv, hr, hx⟩ | ⟨hn, rfl⟩
  · refine .inl ⟨hv, hr, u, hx, ?_⟩
    obtain ⟨b, _, he⟩ := handOver_frame hx
    rw [State.seeReport_of_busy (by rw [he])]
    rw [he]
  · rcases State.seeReport_cases u with ⟨h1, h2, h3, h4, h5⟩ | ⟨h1, h5⟩
    · exact .inr (.inl ⟨h1, h2, h3, h4, by rw [h5]⟩)
    · exact .inr (.inr ⟨hn, h1, by rw [h5]⟩)

/-- `tx_ready` falls with the byte handed over, or is driven to its new level and nothing else happens. -/
theorem driveReady_next {s t : State} {level : Bool} (h : driveReady s level = .next t) :
    (level = false ∧ s.txValid = true ∧ s.txReady = true ∧
      ∃ u, handOver s = .next u ∧ t = { u with txReady := false }) ∨
    ((level = false → s.txValid = true → s.txReady = false) ∧ t = { s with txReady := level }) := by
  obtain ⟨u, hu, rfl⟩ := mapNext_next h
  cases level with
  | true => exact .inr ⟨fun hl => by simp at hl, by rw [← Host.Outcome.next.inj hu]⟩
  | false =>
    rcases takeOffered_next hu with ⟨hv, hr, hx⟩ | ⟨hn, rfl⟩
    · exact .inl ⟨rfl, hv, hr, u, hx, rfl⟩
    · exact .inr ⟨fun _ => hn, rfl⟩

end Sys2Proof.Machine
end

