-- ==== Sys2Proof/Laws/Exec.lean ====
section
/-! SUPPORT. What each instruction can do, said once: for every meaning, the next states it can answer. -/

namespace Sys2Proof.Machine

/-- Every command word's meaning is START with the word's own fields. -/
theorem exec_decodeCmd (s : State) (w : CmdWord) :
    exec (decodeCmd s.cfg w) s = .next (State.startCommand s (cmdRtypeField w) (cmdValueField w)) := by
  unfold decodeCmd
  split_ifs with h1 h2 h3
  · rw [h1]; rfl
  · rw [h2]; rfl
  · rw [h3]; rfl
  · rfl

theorem execStamp_next {s t : State} (h : execStamp s = .next t) :
    t = { s with fb := Memory.write s.fb s.cfg.offMc s.pendingCount, seq := 2#4 } :=
  (Host.Outcome.next.inj h).symm

/-- DISPATCH: the ACK path, the path with a value, or the abort. -/
theorem execDispatch_next {s t : State} (h : execDispatch s = .next t) :
    (s.cmdRtype = s.cfg.rtAck ∧ ∃ n, Memory.read (Memory.write s.fb s.cfg.offRt s.cfg.rtAck) s.cfg.offMl = some n ∧
      t = { s with fb := Memory.write s.fb s.cfg.offRt s.cfg.rtAck, len := n, seq := 3#4 }) ∨
    (s.cmdRtype ≠ s.cfg.rtAck ∧ (s.cmdRtype = s.cfg.rtAckTimer ∨ s.cmdRtype = s.cfg.rtNackReason) ∧
      ∃ n, Memory.read (Memory.storeValueResponse s.cfg s.fb s.cmdRtype s.cmdValue) s.cfg.offMl = some n ∧
        t = { s with fb := Memory.storeValueResponse s.cfg s.fb s.cmdRtype s.cmdValue, len := n, seq := 3#4 }) ∨
    (s.cfg.supports s.cmdRtype = false ∧ t = { s with status := statusAborted s.status, seq := 0#4 }) := by
  unfold execDispatch at h
  split at h
  · next h1 =>
    obtain ⟨n, hn, rfl⟩ := latchLength_next h
    exact .inl ⟨h1, n, hn, rfl⟩
  · next h1 =>
    split at h
    · next h2 =>
      obtain ⟨n, hn, rfl⟩ := latchLength_next h
      exact .inr (.inl ⟨h1, h2, n, hn, rfl⟩)
    · next h2 =>
      refine .inr (.inr ⟨?_, (Host.Outcome.next.inj h).symm⟩)
      rw [not_or] at h2
      simp [Config.supports, h1, h2.1, h2.2]

theorem execSwap_next {s t : State} (h : execSwap s = .next t) :
    ∃ m, Memory.swapUid s.cfg s.ownUid 6 0 s.fb = .ok m ∧ t = { s with fb := m, seq := 4#4 } := by
  obtain ⟨m, hm, ht⟩ := withRead_next h
  exact ⟨m, hm, (Host.Outcome.next.inj ht).symm⟩

theorem execClass_next {s t : State} (h : execClass s = .next t) :
    ∃ b, Memory.read s.fb s.cfg.offCc = some b ∧ t = { s with fb := Memory.write s.fb s.cfg.offCc (b + 1#8), seq := 5#4 } := by
  obtain ⟨b, hb, ht⟩ := withRead_next h
  exact ⟨b, (Memory.load_ok_iff _ _ _).1 hb, (Host.Outcome.next.inj ht).symm⟩

theorem execCsum_next {s t : State} (h : execCsum s = .next t) :
    ∃ v, Memory.sum s.fb s.len.toNat 0 0#16 = .ok v ∧ t = { s with csum := v, idx := s.lenIndex, seq := 6#4 } := by
  obtain ⟨v, hv, ht⟩ := withRead_next h
  rw [State.lenIndex_toNat] at hv
  exact ⟨v, hv, (Host.Outcome.next.inj ht).symm⟩

theorem State.lenIndex_succ_toNat (s : State) : (s.lenIndex + 1#9).toNat = s.len.toNat + 1 := by
  have := s.len.isLt
  rw [BitVec.toNat_add, State.lenIndex_toNat, BitVec.toNat_ofNat]
  omega

theorem execAppend_next {s t : State} (h : execAppend s = .next t) :
    t = { s with fb := Memory.write16be s.fb s.len.toNat s.csum, seq := 7#4 } := by
  have h' := (Host.Outcome.next.inj h).symm
  rw [h', State.lenIndex_succ_toNat, State.lenIndex_toNat]
  rfl

/-- GATE: the wait begins, no wait is needed, the wait ends, or the hold. -/
theorem execGate_next {s t : State} (h : execGate s = .next t) :
    (s.delaying = false ∧ s.elapsed < s.cfg.spacing ∧
      t = { s with t0 := s.now, dly := s.cfg.spacing - s.elapsed, delaying := true }) ∨
    (s.delaying = false ∧ s.cfg.spacing ≤ s.elapsed ∧ t = { s with t0 := s.now, dly := 0, seq := 8#4 }) ∨
    (s.delaying = true ∧ s.dly ≤ s.waited ∧ t = { s with delaying := false, seq := 8#4 }) ∨
    (s.delaying = true ∧ s.waited < s.dly ∧ t = s) := by
  unfold execGate at h
  split at h
  · next hd =>
    have ht := (Host.Outcome.next.inj h).symm
    rcases State.awaitDelay_cases s SeqCode.dirOut with ⟨h1, h2⟩ | ⟨h1, h2⟩
    · exact .inr (.inr (.inl ⟨hd, h1, ht.trans h2⟩))
    · exact .inr (.inr (.inr ⟨hd, h1, ht.trans h2⟩))
  · next hd =>
    have hd' : s.delaying = false := by simpa using hd
    split at h
    · next he =>
      have ht := (Host.Outcome.next.inj h).symm
      rcases State.beginDelay_cases s (s.cfg.spacing - s.elapsed) SeqCode.dirOut with ⟨h1, _⟩ | ⟨_, h2⟩
      · omega
      · exact .inl ⟨hd', he, ht.trans h2⟩
    · next he =>
      have ht := (Host.Outcome.next.inj h).symm
      exact .inr (.inl ⟨hd', Nat.le_of_not_lt he, ht⟩)

theorem execDirOut_next {s t : State} (h : execDirOut s = .next t) :
    t = { s with dir := .output, pullup := s.cfg.pullupOut,
                 trace := s.trace ++ [Event.dir s.now .output s.cfg.pullupOut], seq := 9#4 } :=
  (Host.Outcome.next.inj h).symm

/-- SEND: the entry, a byte offered, a byte taken, the hold for `tx_ready`, the end, or the hold for `tx_idle`. -/
theorem execSend_next {s t : State} (h : execSend s = .next t) :
    (s.txActive = false ∧ ∃ b, Memory.read s.fb 0 = some b ∧
      t = { s with idx := 0#9, txActive := true, txData := b, txValid := true }) ∨
    (s.txActive = true ∧ s.idx.toNat < s.len.toNat + 2 ∧ s.txValid = false ∧
      ∃ b, Memory.read s.fb s.idx.toNat = some b ∧ t = { s with txData := b, txValid := true }) ∨
    (s.txActive = true ∧ s.idx.toNat < s.len.toNat + 2 ∧ s.txValid = true ∧ s.txReady = true ∧
      ∃ b, Memory.read s.fb s.idx.toNat = some b ∧
        ((s.idx.toNat + 1 < s.len.toNat + 2 ∧ ∃ c, Memory.read s.fb (s.idx.toNat + 1) = some c ∧
            t = { s with idx := s.idx + 1#9, txData := c, txValid := true, txIdle := false,
                         trace := s.trace ++ [Event.tx s.now s.idx.toNat b] }) ∨
          (s.idx.toNat + 1 = s.len.toNat + 2 ∧
            t = { s with idx := s.idx + 1#9, txValid := false, txIdle := false,
                         trace := s.trace ++ [Event.tx s.now s.idx.toNat b] }))) ∨
    (s.txActive = true ∧ s.idx.toNat < s.len.toNat + 2 ∧ s.txValid = true ∧ s.txReady = false ∧ t = s) ∨
    (s.txActive = true ∧ s.len.toNat + 2 ≤ s.idx.toNat ∧ s.txIdle = true ∧
      t = { s with txActive := false, txValid := false, t0 := s.now, dly := s.cfg.dirSwitch, delaying := true,
                   trace := s.trace ++ [Event.txDone s.now], seq := 10#4 }) ∨
    (s.txActive = true ∧ s.len.toNat + 2 ≤ s.idx.toNat ∧ s.txIdle = false ∧ t = { s with txValid := false }) := by
  unfold execSend at h
  split at h
  · next ha =>
    obtain ⟨b, hb, rfl⟩ := offerByte_next h
    exact .inl ⟨ha, b, by simpa using hb, rfl⟩
  · next ha =>
    have ha' : s.txActive = true := by simpa using ha
    refine .inr ?_
    split at h
    · next hi =>
      have hi' := (State.idx_lt_sendCount s).1 hi
      split at h
      · next hv =>
        obtain ⟨b, hb, rfl⟩ := offerByte_next h
        exact .inl ⟨ha', hi', hv, b, hb, rfl⟩
      · next hv =>
        have hv' : s.txValid = true := by simpa using hv
        refine .inr ?_
        split at h
        · next hr => exact .inl ⟨ha', hi', hv', hr, handOver_next hi' h⟩
        · next hr =>
          exact .inr (.inl ⟨ha', hi', hv', by simpa using hr, (Host.Outcome.next.inj h).symm⟩)
    · next hi =>
      have hi' : s.len.toNat + 2 ≤ s.idx.toNat := by
        rw [State.idx_lt_sendCount] at hi; omega
      refine .inr (.inr (.inr ?_))
      split at h
      · next hx => exact .inl ⟨ha', hi', hx, (Host.Outcome.next.inj h).symm⟩
      · next hx => exact .inr ⟨ha', hi', by simpa using hx, (Host.Outcome.next.inj h).symm⟩

/-- SETTLE: the wait begins, no wait is needed, the wait ends, or the hold. -/
theorem execSettle_next {s t : State} (h : execSettle s = .next t) :
    (s.delaying = false ∧ 0 < s.cfg.dirSwitch ∧
      t = { s with t0 := s.now, dly := s.cfg.dirSwitch, delaying := true }) ∨
    (s.delaying = false ∧ s.cfg.dirSwitch = 0 ∧ t = { s with t0 := s.now, dly := 0, seq := 11#4 }) ∨
    (s.delaying = true ∧ s.dly ≤ s.waited ∧ t = { s with delaying := false, seq := 11#4 }) ∨
    (s.delaying = true ∧ s.waited < s.dly ∧ t = s) := by
  unfold execSettle at h
  split at h
  · next hd =>
    have ht := (Host.Outcome.next.inj h).symm
    rcases State.awaitDelay_cases s SeqCode.dirIn with ⟨h1, h2⟩ | ⟨h1, h2⟩
    · exact .inr (.inr (.inl ⟨hd, h1, ht.trans h2⟩))
    · exact .inr (.inr (.inr ⟨hd, h1, ht.trans h2⟩))
  · next hd =>
    have hd' : s.delaying = false := by simpa using hd
    have ht := (Host.Outcome.next.inj h).symm
    rcases State.beginDelay_cases s s.cfg.dirSwitch SeqCode.dirIn with ⟨h1, h2⟩ | ⟨h1, h2⟩
    · exact .inr (.inl ⟨hd', h1, ht.trans h2⟩)
    · exact .inl ⟨hd', h1, ht.trans h2⟩

theorem execDirIn_next {s t : State} (h : execDirIn s = .next t) :
    t = { s with dir := .input, pullup := s.cfg.pullupIn,
                 trace := s.trace ++ [Event.dir s.now .input s.cfg.pullupIn],
                 status := statusSent s.status, seq := 0#4 } :=
  (Host.Outcome.next.inj h).symm

end Sys2Proof.Machine
end

