-- ==== Sys2Proof/Laws/PerInstr.lean ====
section
/-! SUPPORT. Per instruction: whatever the decoder answers is well formed. -/

namespace Sys2Proof.Laws.DecodedWf

/-- An instruction that the decoder answers, from any code and under any parameters, is well formed. -/
def Statement (i : Instr) : Prop := ∀ (c : Config) (code : Code), decode c code = .ok i → i.wf c = true

theorem respondAck (value : Word16) : Statement (.respondAck value) := fun _ _ _ => rfl
theorem respondAckTimer (value : Word16) : Statement (.respondAckTimer value) := fun _ _ _ => rfl
theorem respondNack (value : Word16) : Statement (.respondNack value) := fun _ _ _ => rfl

/-- No SEQ code decodes to a RESPOND_RAW. -/
theorem decodeSeq_ne_respondRaw (rtype : Byte) (value : Word16) :
    ∀ code : SeqCode, decodeSeq code ≠ .ok (.respondRaw rtype value) := by
  intro code h
  unfold decodeSeq at h
  split at h <;> simp at h

theorem respondRaw (rtype : Byte) (value : Word16) : Statement (.respondRaw rtype value) := by
  intro c code h
  cases code with
  | seq code => exact absurd h (decodeSeq_ne_respondRaw rtype value code)
  | cmd w =>
    simp only [decode, decodeCmd, Decoded.ok.injEq] at h
    split at h
    · cases h
    · split at h
      · cases h
      · split at h
        · cases h
        · next h1 h2 h3 =>
          obtain ⟨rfl, rfl⟩ := Instr.respondRaw.inj h
          simp [Instr.wf, Config.supports, h1, h2, h3]

theorem idle : Statement .idle := fun _ _ _ => rfl
theorem stamp : Statement .stamp := fun _ _ _ => rfl
theorem dispatch : Statement .dispatch := fun _ _ _ => rfl
theorem swap : Statement .swap := fun _ _ _ => rfl
theorem classAdvance : Statement .classAdvance := fun _ _ _ => rfl
theorem csum : Statement .csum := fun _ _ _ => rfl
theorem append : Statement .append := fun _ _ _ => rfl
theorem gate : Statement .gate := fun _ _ _ => rfl
theorem dirOut : Statement .dirOut := fun _ _ _ => rfl
theorem send : Statement .send := fun _ _ _ => rfl
theorem settle : Statement .settle := fun _ _ _ => rfl
theorem dirIn : Statement .dirIn := fun _ _ _ => rfl

end Sys2Proof.Laws.DecodedWf
end

