-- ==== Sys2Proof/Laws/State.lean ====
section
/-! SUPPORT. The fields of each named update of State: one lemma per field per update. -/

namespace Sys2Proof.Machine

/-! State.enter -/

@[simp] theorem State.enter_cfg (s : State) (c : SeqCode) : (State.enter s c).cfg = s.cfg := rfl
@[simp] theorem State.enter_fb (s : State) (c : SeqCode) : (State.enter s c).fb = s.fb := rfl
@[simp] theorem State.enter_cmdRtype (s : State) (c : SeqCode) : (State.enter s c).cmdRtype = s.cmdRtype := rfl
@[simp] theorem State.enter_cmdValue (s : State) (c : SeqCode) : (State.enter s c).cmdValue = s.cmdValue := rfl
@[simp] theorem State.enter_seq (s : State) (c : SeqCode) : (State.enter s c).seq = c := rfl
@[simp] theorem State.enter_len (s : State) (c : SeqCode) : (State.enter s c).len = s.len := rfl
@[simp] theorem State.enter_csum (s : State) (c : SeqCode) : (State.enter s c).csum = s.csum := rfl
@[simp] theorem State.enter_idx (s : State) (c : SeqCode) : (State.enter s c).idx = s.idx := rfl
@[simp] theorem State.enter_t0 (s : State) (c : SeqCode) : (State.enter s c).t0 = s.t0 := rfl
@[simp] theorem State.enter_dly (s : State) (c : SeqCode) : (State.enter s c).dly = s.dly := rfl
@[simp] theorem State.enter_status (s : State) (c : SeqCode) : (State.enter s c).status = s.status := rfl
@[simp] theorem State.enter_ownUid (s : State) (c : SeqCode) : (State.enter s c).ownUid = s.ownUid := rfl
@[simp] theorem State.enter_pendingCount (s : State) (c : SeqCode) : (State.enter s c).pendingCount = s.pendingCount := rfl
@[simp] theorem State.enter_rxEndTs (s : State) (c : SeqCode) : (State.enter s c).rxEndTs = s.rxEndTs := rfl
@[simp] theorem State.enter_now (s : State) (c : SeqCode) : (State.enter s c).now = s.now := rfl
@[simp] theorem State.enter_dir (s : State) (c : SeqCode) : (State.enter s c).dir = s.dir := rfl
@[simp] theorem State.enter_pullup (s : State) (c : SeqCode) : (State.enter s c).pullup = s.pullup := rfl
@[simp] theorem State.enter_txActive (s : State) (c : SeqCode) : (State.enter s c).txActive = s.txActive := rfl
@[simp] theorem State.enter_txData (s : State) (c : SeqCode) : (State.enter s c).txData = s.txData := rfl
@[simp] theorem State.enter_txValid (s : State) (c : SeqCode) : (State.enter s c).txValid = s.txValid := rfl
@[simp] theorem State.enter_txReady (s : State) (c : SeqCode) : (State.enter s c).txReady = s.txReady := rfl
@[simp] theorem State.enter_txIdle (s : State) (c : SeqCode) : (State.enter s c).txIdle = s.txIdle := rfl
@[simp] theorem State.enter_delaying (s : State) (c : SeqCode) : (State.enter s c).delaying = s.delaying := rfl
@[simp] theorem State.enter_trace (s : State) (c : SeqCode) : (State.enter s c).trace = s.trace := rfl
@[simp] theorem State.enter_schedule (s : State) (c : SeqCode) : (State.enter s c).schedule = s.schedule := rfl
@[simp] theorem State.enter_answers (s : State) (c : SeqCode) : (State.enter s c).answers = s.answers := rfl
@[simp] theorem State.enter_draws (s : State) (c : SeqCode) : (State.enter s c).draws = s.draws := rfl

/-! State.storeFb -/

@[simp] theorem State.storeFb_cfg (s : State) (a : Nat) (b : Byte) : (State.storeFb s a b).cfg = s.cfg := rfl
@[simp] theorem State.storeFb_fb (s : State) (a : Nat) (b : Byte) : (State.storeFb s a b).fb = Memory.write s.fb a b := rfl
@[simp] theorem State.storeFb_cmdRtype (s : State) (a : Nat) (b : Byte) : (State.storeFb s a b).cmdRtype = s.cmdRtype := rfl
@[simp] theorem State.storeFb_cmdValue (s : State) (a : Nat) (b : Byte) : (State.storeFb s a b).cmdValue = s.cmdValue := rfl
@[simp] theorem State.storeFb_seq (s : State) (a : Nat) (b : Byte) : (State.storeFb s a b).seq = s.seq := rfl
@[simp] theorem State.storeFb_len (s : State) (a : Nat) (b : Byte) : (State.storeFb s a b).len = s.len := rfl
@[simp] theorem State.storeFb_csum (s : State) (a : Nat) (b : Byte) : (State.storeFb s a b).csum = s.csum := rfl
@[simp] theorem State.storeFb_idx (s : State) (a : Nat) (b : Byte) : (State.storeFb s a b).idx = s.idx := rfl
@[simp] theorem State.storeFb_t0 (s : State) (a : Nat) (b : Byte) : (State.storeFb s a b).t0 = s.t0 := rfl
@[simp] theorem State.storeFb_dly (s : State) (a : Nat) (b : Byte) : (State.storeFb s a b).dly = s.dly := rfl
@[simp] theorem State.storeFb_status (s : State) (a : Nat) (b : Byte) : (State.storeFb s a b).status = s.status := rfl
@[simp] theorem State.storeFb_ownUid (s : State) (a : Nat) (b : Byte) : (State.storeFb s a b).ownUid = s.ownUid := rfl
@[simp] theorem State.storeFb_pendingCount (s : State) (a : Nat) (b : Byte) : (State.storeFb s a b).pendingCount = s.pendingCount := rfl
@[simp] theorem State.storeFb_rxEndTs (s : State) (a : Nat) (b : Byte) : (State.storeFb s a b).rxEndTs = s.rxEndTs := rfl
@[simp] theorem State.storeFb_now (s : State) (a : Nat) (b : Byte) : (State.storeFb s a b).now = s.now := rfl
@[simp] theorem State.storeFb_dir (s : State) (a : Nat) (b : Byte) : (State.storeFb s a b).dir = s.dir := rfl
@[simp] theorem State.storeFb_pullup (s : State) (a : Nat) (b : Byte) : (State.storeFb s a b).pullup = s.pullup := rfl
@[simp] theorem State.storeFb_txActive (s : State) (a : Nat) (b : Byte) : (State.storeFb s a b).txActive = s.txActive := rfl
@[simp] theorem State.storeFb_txData (s : State) (a : Nat) (b : Byte) : (State.storeFb s a b).txData = s.txData := rfl
@[simp] theorem State.storeFb_txValid (s : State) (a : Nat) (b : Byte) : (State.storeFb s a b).txValid = s.txValid := rfl
@[simp] theorem State.storeFb_txReady (s : State) (a : Nat) (b : Byte) : (State.storeFb s a b).txReady = s.txReady := rfl
@[simp] theorem State.storeFb_txIdle (s : State) (a : Nat) (b : Byte) : (State.storeFb s a b).txIdle = s.txIdle := rfl
@[simp] theorem State.storeFb_delaying (s : State) (a : Nat) (b : Byte) : (State.storeFb s a b).delaying = s.delaying := rfl
@[simp] theorem State.storeFb_trace (s : State) (a : Nat) (b : Byte) : (State.storeFb s a b).trace = s.trace := rfl
@[simp] theorem State.storeFb_schedule (s : State) (a : Nat) (b : Byte) : (State.storeFb s a b).schedule = s.schedule := rfl
@[simp] theorem State.storeFb_answers (s : State) (a : Nat) (b : Byte) : (State.storeFb s a b).answers = s.answers := rfl
@[simp] theorem State.storeFb_draws (s : State) (a : Nat) (b : Byte) : (State.storeFb s a b).draws = s.draws := rfl

/-! State.emit -/

@[simp] theorem State.emit_cfg (s : State) (e : Event) : (State.emit s e).cfg = s.cfg := rfl
@[simp] theorem State.emit_fb (s : State) (e : Event) : (State.emit s e).fb = s.fb := rfl
@[simp] theorem State.emit_cmdRtype (s : State) (e : Event) : (State.emit s e).cmdRtype = s.cmdRtype := rfl
@[simp] theorem State.emit_cmdValue (s : State) (e : Event) : (State.emit s e).cmdValue = s.cmdValue := rfl
@[simp] theorem State.emit_seq (s : State) (e : Event) : (State.emit s e).seq = s.seq := rfl
@[simp] theorem State.emit_len (s : State) (e : Event) : (State.emit s e).len = s.len := rfl
@[simp] theorem State.emit_csum (s : State) (e : Event) : (State.emit s e).csum = s.csum := rfl
@[simp] theorem State.emit_idx (s : State) (e : Event) : (State.emit s e).idx = s.idx := rfl
@[simp] theorem State.emit_t0 (s : State) (e : Event) : (State.emit s e).t0 = s.t0 := rfl
@[simp] theorem State.emit_dly (s : State) (e : Event) : (State.emit s e).dly = s.dly := rfl
@[simp] theorem State.emit_status (s : State) (e : Event) : (State.emit s e).status = s.status := rfl
@[simp] theorem State.emit_ownUid (s : State) (e : Event) : (State.emit s e).ownUid = s.ownUid := rfl
@[simp] theorem State.emit_pendingCount (s : State) (e : Event) : (State.emit s e).pendingCount = s.pendingCount := rfl
@[simp] theorem State.emit_rxEndTs (s : State) (e : Event) : (State.emit s e).rxEndTs = s.rxEndTs := rfl
@[simp] theorem State.emit_now (s : State) (e : Event) : (State.emit s e).now = s.now := rfl
@[simp] theorem State.emit_dir (s : State) (e : Event) : (State.emit s e).dir = s.dir := rfl
@[simp] theorem State.emit_pullup (s : State) (e : Event) : (State.emit s e).pullup = s.pullup := rfl
@[simp] theorem State.emit_txActive (s : State) (e : Event) : (State.emit s e).txActive = s.txActive := rfl
@[simp] theorem State.emit_txData (s : State) (e : Event) : (State.emit s e).txData = s.txData := rfl
@[simp] theorem State.emit_txValid (s : State) (e : Event) : (State.emit s e).txValid = s.txValid := rfl
@[simp] theorem State.emit_txReady (s : State) (e : Event) : (State.emit s e).txReady = s.txReady := rfl
@[simp] theorem State.emit_txIdle (s : State) (e : Event) : (State.emit s e).txIdle = s.txIdle := rfl
@[simp] theorem State.emit_delaying (s : State) (e : Event) : (State.emit s e).delaying = s.delaying := rfl
@[simp] theorem State.emit_trace (s : State) (e : Event) : (State.emit s e).trace = s.trace ++ [e] := rfl
@[simp] theorem State.emit_schedule (s : State) (e : Event) : (State.emit s e).schedule = s.schedule := rfl
@[simp] theorem State.emit_answers (s : State) (e : Event) : (State.emit s e).answers = s.answers := rfl
@[simp] theorem State.emit_draws (s : State) (e : Event) : (State.emit s e).draws = s.draws := rfl

/-! State.setLine -/

@[simp] theorem State.setLine_cfg (s : State) (d : Direction) (p : Bool) : (State.setLine s d p).cfg = s.cfg := rfl
@[simp] theorem State.setLine_fb (s : State) (d : Direction) (p : Bool) : (State.setLine s d p).fb = s.fb := rfl
@[simp] theorem State.setLine_cmdRtype (s : State) (d : Direction) (p : Bool) : (State.setLine s d p).cmdRtype = s.cmdRtype := rfl
@[simp] theorem State.setLine_cmdValue (s : State) (d : Direction) (p : Bool) : (State.setLine s d p).cmdValue = s.cmdValue := rfl
@[simp] theorem State.setLine_seq (s : State) (d : Direction) (p : Bool) : (State.setLine s d p).seq = s.seq := rfl
@[simp] theorem State.setLine_len (s : State) (d : Direction) (p : Bool) : (State.setLine s d p).len = s.len := rfl
@[simp] theorem State.setLine_csum (s : State) (d : Direction) (p : Bool) : (State.setLine s d p).csum = s.csum := rfl
@[simp] theorem State.setLine_idx (s : State) (d : Direction) (p : Bool) : (State.setLine s d p).idx = s.idx := rfl
@[simp] theorem State.setLine_t0 (s : State) (d : Direction) (p : Bool) : (State.setLine s d p).t0 = s.t0 := rfl
@[simp] theorem State.setLine_dly (s : State) (d : Direction) (p : Bool) : (State.setLine s d p).dly = s.dly := rfl
@[simp] theorem State.setLine_status (s : State) (d : Direction) (p : Bool) : (State.setLine s d p).status = s.status := rfl
@[simp] theorem State.setLine_ownUid (s : State) (d : Direction) (p : Bool) : (State.setLine s d p).ownUid = s.ownUid := rfl
@[simp] theorem State.setLine_pendingCount (s : State) (d : Direction) (p : Bool) : (State.setLine s d p).pendingCount = s.pendingCount := rfl
@[simp] theorem State.setLine_rxEndTs (s : State) (d : Direction) (p : Bool) : (State.setLine s d p).rxEndTs = s.rxEndTs := rfl
@[simp] theorem State.setLine_now (s : State) (d : Direction) (p : Bool) : (State.setLine s d p).now = s.now := rfl
@[simp] theorem State.setLine_dir (s : State) (d : Direction) (p : Bool) : (State.setLine s d p).dir = d := rfl
@[simp] theorem State.setLine_pullup (s : State) (d : Direction) (p : Bool) : (State.setLine s d p).pullup = p := rfl
@[simp] theorem State.setLine_txActive (s : State) (d : Direction) (p : Bool) : (State.setLine s d p).txActive = s.txActive := rfl
@[simp] theorem State.setLine_txData (s : State) (d : Direction) (p : Bool) : (State.setLine s d p).txData = s.txData := rfl
@[simp] theorem State.setLine_txValid (s : State) (d : Direction) (p : Bool) : (State.setLine s d p).txValid = s.txValid := rfl
@[simp] theorem State.setLine_txReady (s : State) (d : Direction) (p : Bool) : (State.setLine s d p).txReady = s.txReady := rfl
@[simp] theorem State.setLine_txIdle (s : State) (d : Direction) (p : Bool) : (State.setLine s d p).txIdle = s.txIdle := rfl
@[simp] theorem State.setLine_delaying (s : State) (d : Direction) (p : Bool) : (State.setLine s d p).delaying = s.delaying := rfl
@[simp] theorem State.setLine_trace (s : State) (d : Direction) (p : Bool) : (State.setLine s d p).trace = s.trace ++ [.dir s.now d p] := rfl
@[simp] theorem State.setLine_schedule (s : State) (d : Direction) (p : Bool) : (State.setLine s d p).schedule = s.schedule := rfl
@[simp] theorem State.setLine_answers (s : State) (d : Direction) (p : Bool) : (State.setLine s d p).answers = s.answers := rfl
@[simp] theorem State.setLine_draws (s : State) (d : Direction) (p : Bool) : (State.setLine s d p).draws = s.draws := rfl

/-! State.answer -/

@[simp] theorem State.answer_cfg (s : State) (a : HostAnswer) : (State.answer s a).cfg = s.cfg := rfl
@[simp] theorem State.answer_fb (s : State) (a : HostAnswer) : (State.answer s a).fb = s.fb := rfl
@[simp] theorem State.answer_cmdRtype (s : State) (a : HostAnswer) : (State.answer s a).cmdRtype = s.cmdRtype := rfl
@[simp] theorem State.answer_cmdValue (s : State) (a : HostAnswer) : (State.answer s a).cmdValue = s.cmdValue := rfl
@[simp] theorem State.answer_seq (s : State) (a : HostAnswer) : (State.answer s a).seq = s.seq := rfl
@[simp] theorem State.answer_len (s : State) (a : HostAnswer) : (State.answer s a).len = s.len := rfl
@[simp] theorem State.answer_csum (s : State) (a : HostAnswer) : (State.answer s a).csum = s.csum := rfl
@[simp] theorem State.answer_idx (s : State) (a : HostAnswer) : (State.answer s a).idx = s.idx := rfl
@[simp] theorem State.answer_t0 (s : State) (a : HostAnswer) : (State.answer s a).t0 = s.t0 := rfl
@[simp] theorem State.answer_dly (s : State) (a : HostAnswer) : (State.answer s a).dly = s.dly := rfl
@[simp] theorem State.answer_status (s : State) (a : HostAnswer) : (State.answer s a).status = s.status := rfl
@[simp] theorem State.answer_ownUid (s : State) (a : HostAnswer) : (State.answer s a).ownUid = s.ownUid := rfl
@[simp] theorem State.answer_pendingCount (s : State) (a : HostAnswer) : (State.answer s a).pendingCount = s.pendingCount := rfl
@[simp] theorem State.answer_rxEndTs (s : State) (a : HostAnswer) : (State.answer s a).rxEndTs = s.rxEndTs := rfl
@[simp] theorem State.answer_now (s : State) (a : HostAnswer) : (State.answer s a).now = s.now := rfl
@[simp] theorem State.answer_dir (s : State) (a : HostAnswer) : (State.answer s a).dir = s.dir := rfl
@[simp] theorem State.answer_pullup (s : State) (a : HostAnswer) : (State.answer s a).pullup = s.pullup := rfl
@[simp] theorem State.answer_txActive (s : State) (a : HostAnswer) : (State.answer s a).txActive = s.txActive := rfl
@[simp] theorem State.answer_txData (s : State) (a : HostAnswer) : (State.answer s a).txData = s.txData := rfl
@[simp] theorem State.answer_txValid (s : State) (a : HostAnswer) : (State.answer s a).txValid = s.txValid := rfl
@[simp] theorem State.answer_txReady (s : State) (a : HostAnswer) : (State.answer s a).txReady = s.txReady := rfl
@[simp] theorem State.answer_txIdle (s : State) (a : HostAnswer) : (State.answer s a).txIdle = s.txIdle := rfl
@[simp] theorem State.answer_delaying (s : State) (a : HostAnswer) : (State.answer s a).delaying = s.delaying := rfl
@[simp] theorem State.answer_trace (s : State) (a : HostAnswer) : (State.answer s a).trace = s.trace := rfl
@[simp] theorem State.answer_schedule (s : State) (a : HostAnswer) : (State.answer s a).schedule = s.schedule := rfl
@[simp] theorem State.answer_answers (s : State) (a : HostAnswer) : (State.answer s a).answers = s.answers ++ [a] := rfl
@[simp] theorem State.answer_draws (s : State) (a : HostAnswer) : (State.answer s a).draws = s.draws := rfl

/-! State.abortCommand -/

@[simp] theorem State.abortCommand_cfg (s : State) : (State.abortCommand s).cfg = s.cfg := rfl
@[simp] theorem State.abortCommand_fb (s : State) : (State.abortCommand s).fb = s.fb := rfl
@[simp] theorem State.abortCommand_cmdRtype (s : State) : (State.abortCommand s).cmdRtype = s.cmdRtype := rfl
@[simp] theorem State.abortCommand_cmdValue (s : State) : (State.abortCommand s).cmdValue = s.cmdValue := rfl
@[simp] theorem State.abortCommand_seq (s : State) : (State.abortCommand s).seq = SeqCode.idle := rfl
@[simp] theorem State.abortCommand_len (s : State) : (State.abortCommand s).len = s.len := rfl
@[simp] theorem State.abortCommand_csum (s : State) : (State.abortCommand s).csum = s.csum := rfl
@[simp] theorem State.abortCommand_idx (s : State) : (State.abortCommand s).idx = s.idx := rfl
@[simp] theorem State.abortCommand_t0 (s : State) : (State.abortCommand s).t0 = s.t0 := rfl
@[simp] theorem State.abortCommand_dly (s : State) : (State.abortCommand s).dly = s.dly := rfl
@[simp] theorem State.abortCommand_status (s : State) : (State.abortCommand s).status = statusAborted s.status := rfl
@[simp] theorem State.abortCommand_ownUid (s : State) : (State.abortCommand s).ownUid = s.ownUid := rfl
@[simp] theorem State.abortCommand_pendingCount (s : State) : (State.abortCommand s).pendingCount = s.pendingCount := rfl
@[simp] theorem State.abortCommand_rxEndTs (s : State) : (State.abortCommand s).rxEndTs = s.rxEndTs := rfl
@[simp] theorem State.abortCommand_now (s : State) : (State.abortCommand s).now = s.now := rfl
@[simp] theorem State.abortCommand_dir (s : State) : (State.abortCommand s).dir = s.dir := rfl
@[simp] theorem State.abortCommand_pullup (s : State) : (State.abortCommand s).pullup = s.pullup := rfl
@[simp] theorem State.abortCommand_txActive (s : State) : (State.abortCommand s).txActive = s.txActive := rfl
@[simp] theorem State.abortCommand_txData (s : State) : (State.abortCommand s).txData = s.txData := rfl
@[simp] theorem State.abortCommand_txValid (s : State) : (State.abortCommand s).txValid = s.txValid := rfl
@[simp] theorem State.abortCommand_txReady (s : State) : (State.abortCommand s).txReady = s.txReady := rfl
@[simp] theorem State.abortCommand_txIdle (s : State) : (State.abortCommand s).txIdle = s.txIdle := rfl
@[simp] theorem State.abortCommand_delaying (s : State) : (State.abortCommand s).delaying = s.delaying := rfl
@[simp] theorem State.abortCommand_trace (s : State) : (State.abortCommand s).trace = s.trace := rfl
@[simp] theorem State.abortCommand_schedule (s : State) : (State.abortCommand s).schedule = s.schedule := rfl
@[simp] theorem State.abortCommand_answers (s : State) : (State.abortCommand s).answers = s.answers := rfl
@[simp] theorem State.abortCommand_draws (s : State) : (State.abortCommand s).draws = s.draws := rfl

/-! State.byteTaken -/

@[simp] theorem State.byteTaken_cfg (s : State) (b : Byte) : (State.byteTaken s b).cfg = s.cfg := rfl
@[simp] theorem State.byteTaken_fb (s : State) (b : Byte) : (State.byteTaken s b).fb = s.fb := rfl
@[simp] theorem State.byteTaken_cmdRtype (s : State) (b : Byte) : (State.byteTaken s b).cmdRtype = s.cmdRtype := rfl
@[simp] theorem State.byteTaken_cmdValue (s : State) (b : Byte) : (State.byteTaken s b).cmdValue = s.cmdValue := rfl
@[simp] theorem State.byteTaken_seq (s : State) (b : Byte) : (State.byteTaken s b).seq = s.seq := rfl
@[simp] theorem State.byteTaken_len (s : State) (b : Byte) : (State.byteTaken s b).len = s.len := rfl
@[simp] theorem State.byteTaken_csum (s : State) (b : Byte) : (State.byteTaken s b).csum = s.csum := rfl
@[simp] theorem State.byteTaken_idx (s : State) (b : Byte) : (State.byteTaken s b).idx = s.idx + 1#9 := rfl
@[simp] theorem State.byteTaken_t0 (s : State) (b : Byte) : (State.byteTaken s b).t0 = s.t0 := rfl
@[simp] theorem State.byteTaken_dly (s : State) (b : Byte) : (State.byteTaken s b).dly = s.dly := rfl
@[simp] theorem State.byteTaken_status (s : State) (b : Byte) : (State.byteTaken s b).status = s.status := rfl
@[simp] theorem State.byteTaken_ownUid (s : State) (b : Byte) : (State.byteTaken s b).ownUid = s.ownUid := rfl
@[simp] theorem State.byteTaken_pendingCount (s : State) (b : Byte) : (State.byteTaken s b).pendingCount = s.pendingCount := rfl
@[simp] theorem State.byteTaken_rxEndTs (s : State) (b : Byte) : (State.byteTaken s b).rxEndTs = s.rxEndTs := rfl
@[simp] theorem State.byteTaken_now (s : State) (b : Byte) : (State.byteTaken s b).now = s.now := rfl
@[simp] theorem State.byteTaken_dir (s : State) (b : Byte) : (State.byteTaken s b).dir = s.dir := rfl
@[simp] theorem State.byteTaken_pullup (s : State) (b : Byte) : (State.byteTaken s b).pullup = s.pullup := rfl
@[simp] theorem State.byteTaken_txActive (s : State) (b : Byte) : (State.byteTaken s b).txActive = s.txActive := rfl
@[simp] theorem State.byteTaken_txData (s : State) (b : Byte) : (State.byteTaken s b).txData = s.txData := rfl
@[simp] theorem State.byteTaken_txValid (s : State) (b : Byte) : (State.byteTaken s b).txValid = s.txValid := rfl
@[simp] theorem State.byteTaken_txReady (s : State) (b : Byte) : (State.byteTaken s b).txReady = s.txReady := rfl
@[simp] theorem State.byteTaken_txIdle (s : State) (b : Byte) : (State.byteTaken s b).txIdle = false := rfl
@[simp] theorem State.byteTaken_delaying (s : State) (b : Byte) : (State.byteTaken s b).delaying = s.delaying := rfl
@[simp] theorem State.byteTaken_trace (s : State) (b : Byte) : (State.byteTaken s b).trace = s.trace ++ [.tx s.now s.idx.toNat b] := rfl
@[simp] theorem State.byteTaken_schedule (s : State) (b : Byte) : (State.byteTaken s b).schedule = s.schedule := rfl
@[simp] theorem State.byteTaken_answers (s : State) (b : Byte) : (State.byteTaken s b).answers = s.answers := rfl
@[simp] theorem State.byteTaken_draws (s : State) (b : Byte) : (State.byteTaken s b).draws = s.draws := rfl

/-! State.sendDone -/

@[simp] theorem State.sendDone_cfg (s : State) : (State.sendDone s).cfg = s.cfg := rfl
@[simp] theorem State.sendDone_fb (s : State) : (State.sendDone s).fb = s.fb := rfl
@[simp] theorem State.sendDone_cmdRtype (s : State) : (State.sendDone s).cmdRtype = s.cmdRtype := rfl
@[simp] theorem State.sendDone_cmdValue (s : State) : (State.sendDone s).cmdValue = s.cmdValue := rfl
@[simp] theorem State.sendDone_seq (s : State) : (State.sendDone s).seq = SeqCode.settle := rfl
@[simp] theorem State.sendDone_len (s : State) : (State.sendDone s).len = s.len := rfl
@[simp] theorem State.sendDone_csum (s : State) : (State.sendDone s).csum = s.csum := rfl
@[simp] theorem State.sendDone_idx (s : State) : (State.sendDone s).idx = s.idx := rfl
@[simp] theorem State.sendDone_t0 (s : State) : (State.sendDone s).t0 = s.now := rfl
@[simp] theorem State.sendDone_dly (s : State) : (State.sendDone s).dly = s.cfg.dirSwitch := rfl
@[simp] theorem State.sendDone_status (s : State) : (State.sendDone s).status = s.status := rfl
@[simp] theorem State.sendDone_ownUid (s : State) : (State.sendDone s).ownUid = s.ownUid := rfl
@[simp] theorem State.sendDone_pendingCount (s : State) : (State.sendDone s).pendingCount = s.pendingCount := rfl
@[simp] theorem State.sendDone_rxEndTs (s : State) : (State.sendDone s).rxEndTs = s.rxEndTs := rfl
@[simp] theorem State.sendDone_now (s : State) : (State.sendDone s).now = s.now := rfl
@[simp] theorem State.sendDone_dir (s : State) : (State.sendDone s).dir = s.dir := rfl
@[simp] theorem State.sendDone_pullup (s : State) : (State.sendDone s).pullup = s.pullup := rfl
@[simp] theorem State.sendDone_txActive (s : State) : (State.sendDone s).txActive = false := rfl
@[simp] theorem State.sendDone_txData (s : State) : (State.sendDone s).txData = s.txData := rfl
@[simp] theorem State.sendDone_txValid (s : State) : (State.sendDone s).txValid = false := rfl
@[simp] theorem State.sendDone_txReady (s : State) : (State.sendDone s).txReady = s.txReady := rfl
@[simp] theorem State.sendDone_txIdle (s : State) : (State.sendDone s).txIdle = s.txIdle := rfl
@[simp] theorem State.sendDone_delaying (s : State) : (State.sendDone s).delaying = true := rfl
@[simp] theorem State.sendDone_trace (s : State) : (State.sendDone s).trace = s.trace ++ [.txDone s.now] := rfl
@[simp] theorem State.sendDone_schedule (s : State) : (State.sendDone s).schedule = s.schedule := rfl
@[simp] theorem State.sendDone_answers (s : State) : (State.sendDone s).answers = s.answers := rfl
@[simp] theorem State.sendDone_draws (s : State) : (State.sendDone s).draws = s.draws := rfl

/-! What the report that the serialiser is idle leaves alone: everything but SEQ, T0, DLY, the transmitter and the
trace. -/

@[simp] theorem State.seeReport_cfg (s : State) : (State.seeReport s).cfg = s.cfg := by
  unfold State.seeReport; split <;> rfl
@[simp] theorem State.seeReport_fb (s : State) : (State.seeReport s).fb = s.fb := by
  unfold State.seeReport; split <;> rfl
@[simp] theorem State.seeReport_cmdRtype (s : State) : (State.seeReport s).cmdRtype = s.cmdRtype := by
  unfold State.seeReport; split <;> rfl
@[simp] theorem State.seeReport_cmdValue (s : State) : (State.seeReport s).cmdValue = s.cmdValue := by
  unfold State.seeReport; split <;> rfl
@[simp] theorem State.seeReport_len (s : State) : (State.seeReport s).len = s.len := by
  unfold State.seeReport; split <;> rfl
@[simp] theorem State.seeReport_csum (s : State) : (State.seeReport s).csum = s.csum := by
  unfold State.seeReport; split <;> rfl
@[simp] theorem State.seeReport_status (s : State) : (State.seeReport s).status = s.status := by
  unfold State.seeReport; split <;> rfl
@[simp] theorem State.seeReport_ownUid (s : State) : (State.seeReport s).ownUid = s.ownUid := by
  unfold State.seeReport; split <;> rfl
@[simp] theorem State.seeReport_pendingCount (s : State) : (State.seeReport s).pendingCount = s.pendingCount := by
  unfold State.seeReport; split <;> rfl
@[simp] theorem State.seeReport_rxEndTs (s : State) : (State.seeReport s).rxEndTs = s.rxEndTs := by
  unfold State.seeReport; split <;> rfl
@[simp] theorem State.seeReport_dir (s : State) : (State.seeReport s).dir = s.dir := by
  unfold State.seeReport; split <;> rfl
@[simp] theorem State.seeReport_pullup (s : State) : (State.seeReport s).pullup = s.pullup := by
  unfold State.seeReport; split <;> rfl
@[simp] theorem State.seeReport_schedule (s : State) : (State.seeReport s).schedule = s.schedule := by
  unfold State.seeReport; split <;> rfl
@[simp] theorem State.seeReport_answers (s : State) : (State.seeReport s).answers = s.answers := by
  unfold State.seeReport; split <;> rfl
@[simp] theorem State.seeReport_draws (s : State) : (State.seeReport s).draws = s.draws := by
  unfold State.seeReport; split <;> rfl

@[simp] theorem State.driveIdle_cfg (s : State) (level : Bool) : (State.driveIdle s level).cfg = s.cfg := by
  cases level <;> simp [State.driveIdle]
@[simp] theorem State.driveIdle_fb (s : State) (level : Bool) : (State.driveIdle s level).fb = s.fb := by
  cases level <;> simp [State.driveIdle]
@[simp] theorem State.driveIdle_cmdRtype (s : State) (level : Bool) : (State.driveIdle s level).cmdRtype = s.cmdRtype := by
  cases level <;> simp [State.driveIdle]
@[simp] theorem State.driveIdle_cmdValue (s : State) (level : Bool) : (State.driveIdle s level).cmdValue = s.cmdValue := by
  cases level <;> simp [State.driveIdle]
@[simp] theorem State.driveIdle_len (s : State) (level : Bool) : (State.driveIdle s level).len = s.len := by
  cases level <;> simp [State.driveIdle]
@[simp] theorem State.driveIdle_csum (s : State) (level : Bool) : (State.driveIdle s level).csum = s.csum := by
  cases level <;> simp [State.driveIdle]
@[simp] theorem State.driveIdle_status (s : State) (level : Bool) : (State.driveIdle s level).status = s.status := by
  cases level <;> simp [State.driveIdle]
@[simp] theorem State.driveIdle_ownUid (s : State) (level : Bool) : (State.driveIdle s level).ownUid = s.ownUid := by
  cases level <;> simp [State.driveIdle]
@[simp] theorem State.driveIdle_pendingCount (s : State) (level : Bool) : (State.driveIdle s level).pendingCount = s.pendingCount := by
  cases level <;> simp [State.driveIdle]
@[simp] theorem State.driveIdle_rxEndTs (s : State) (level : Bool) : (State.driveIdle s level).rxEndTs = s.rxEndTs := by
  cases level <;> simp [State.driveIdle]
@[simp] theorem State.driveIdle_dir (s : State) (level : Bool) : (State.driveIdle s level).dir = s.dir := by
  cases level <;> simp [State.driveIdle]
@[simp] theorem State.driveIdle_pullup (s : State) (level : Bool) : (State.driveIdle s level).pullup = s.pullup := by
  cases level <;> simp [State.driveIdle]
@[simp] theorem State.driveIdle_schedule (s : State) (level : Bool) : (State.driveIdle s level).schedule = s.schedule := by
  cases level <;> simp [State.driveIdle]
@[simp] theorem State.driveIdle_answers (s : State) (level : Bool) : (State.driveIdle s level).answers = s.answers := by
  cases level <;> simp [State.driveIdle]
@[simp] theorem State.driveIdle_draws (s : State) (level : Bool) : (State.driveIdle s level).draws = s.draws := by
  cases level <;> simp [State.driveIdle]

end Sys2Proof.Machine
end

