-- ==== Sys2Proof/Laws/Step.lean ====
section
/-! SUPPORT. What a step can do, said once. -/

namespace Sys2Proof.Machine

/-- The phase of each SEQ code that the sequencer can execute. -/
theorem decodeSeq_ok {code : SeqCode} {i : Instr} (h : decodeSeq code = .ok i) :
    (code = 0#4 ∧ i = .idle) ∨ (code = 1#4 ∧ i = .stamp) ∨ (code = 2#4 ∧ i = .dispatch) ∨ (code = 3#4 ∧ i = .swap) ∨
    (code = 4#4 ∧ i = .classAdvance) ∨ (code = 5#4 ∧ i = .csum) ∨ (code = 6#4 ∧ i = .append) ∨
    (code = 7#4 ∧ i = .gate) ∨ (code = 8#4 ∧ i = .dirOut) ∨ (code = 9#4 ∧ i = .send) ∨
    (code = 10#4 ∧ i = .settle) ∨ (code = 11#4 ∧ i = .dirIn) := by
  have hall : ∀ c : SeqCode, c = 0#4 ∨ c = 1#4 ∨ c = 2#4 ∨ c = 3#4 ∨ c = 4#4 ∨ c = 5#4 ∨ c = 6#4 ∨ c = 7#4 ∨
      c = 8#4 ∨ c = 9#4 ∨ c = 10#4 ∨ c = 11#4 ∨ c = 12#4 ∨ c = 13#4 ∨ c = 14#4 ∨ c = 15#4 := by decide
  rcases hall code with rfl | rfl | rfl | rfl | rfl | rfl | rfl | rfl | rfl | rfl | rfl | rfl | rfl | rfl | rfl | rfl <;>
    simp [decodeSeq] at h <;> simp [h]

/-- What an access that is no START can leave: an answer, a new PENDING_COUNT, nothing (a dropped write), or, while
BUSY = 0, one written cell. -/
inductive HostEffect (s : State) : State → Prop where
  | answered (answers : List HostAnswer) (draws : Nat) : HostEffect s { s with answers := answers, draws := draws }
  | dropped : HostEffect s s
  | counted (c : Byte) : HostEffect s { s with pendingCount := c }
  | fbWritten (off : Nat) (b : Byte) (hb : s.busy = false) (ho : off < s.cfg.fbSize) :
      HostEffect s { s with fb := Memory.write s.fb off b }
  | uidWritten (u : Uid) (hb : s.busy = false) : HostEffect s { s with ownUid := u }
  | stampWritten (v : Nat) (hb : s.busy = false) : HostEffect s { s with rxEndTs := v % 2 ^ s.cfg.timeWidth }
  | stampCaptured (hb : s.busy = false) : HostEffect s { s with rxEndTs := s.now }

theorem State.idleWrite_effect {s t : State} (h : s.busy = false → HostEffect s t) :
    HostEffect s (State.idleWrite s t) := by
  unfold State.idleWrite
  split
  · exact .dropped
  · next hb => exact h (by simpa using hb)

theorem hostAccess_effect {a : HostAccess} {s t : State} (h : hostAccess a s = .moved (.next t)) :
    HostEffect s t := by
  cases a with
  | start w => cases h
  | wrFb off b =>
    simp only [hostAccess, Fetched.moved.injEq] at h
    split at h
    · next ho =>
      rw [← Host.Outcome.next.inj h]
      exact State.idleWrite_effect fun hb => .fbWritten off b hb ho
    · cases h
  | rdFb off =>
    simp only [hostAccess, Fetched.moved.injEq] at h
    split at h
    · rw [← Host.Outcome.next.inj h]
      unfold State.readFbByte
      split
      · exact .answered _ _
      · split <;> exact .answered _ _
    · cases h
  | wrUid u => cases h; exact State.idleWrite_effect fun hb => .uidWritten u hb
  | rdUid => cases h; exact .answered _ _
  | wrRxEnd v => cases h; exact State.idleWrite_effect fun hb => .stampWritten v hb
  | rdRxEnd => cases h; exact .answered _ _
  | rxEndCap => cases h; exact State.idleWrite_effect fun hb => .stampCaptured hb
  | setCnt c => cases h; exact .counted c
  | rdCnt => cases h; exact .answered _ _
  | rdStatus => cases h; exact .answered _ _
  | rdNow => cases h; exact .answered _ _
  | rdDirstat => cases h; exact .answered _ _
  | forbiddenWrite index =>
    simp only [hostAccess, Fetched.moved.injEq] at h
    split at h
    · rw [← Host.Outcome.next.inj h]; exact .dropped
    · cases h
  | forbiddenRead index =>
    simp only [hostAccess, Fetched.moved.injEq] at h
    split at h
    · rw [← Host.Outcome.next.inj h]; exact .answered _ _
    · cases h

/-- The state with the next move taken off the schedule. -/
def State.taken (s : State) : State := { s with schedule := s.schedule.tail }

/-- Whose move a step was, and what it left. -/
inductive StepEffect (s t : State) : Prop where
  | phase (hm : s.schedule = [] ∨ s.schedule.head? = some .sequencer) (i : Instr)
      (hd : decodeSeq s.seq = .ok i) (hx : exec i s.taken = .next t)
  | start (w : CmdWord) (hm : s.schedule.head? = some (.host (.start w)) ∨
      ∃ v, s.schedule.head? = some (.regWrite 0 v) ∧ w = BitVec.ofNat 24 v)
      (hx : t = State.startCommand s.taken (cmdRtypeField w) (cmdValueField w))
  | host (hm : ∀ m, s.schedule.head? = some m → m ≠ .tick ∧ m ≠ .reset ∧ m ≠ .sequencer) (hne : s.schedule ≠ [])
      (hx : HostEffect s.taken t)
  | tick (hm : s.schedule.head? = some .tick)
      (hx : countTick s.taken = .next t)
  | pendingCount (c : Byte) (hm : s.schedule.head? = some (.pendingCount c)) (hx : t = { s.taken with pendingCount := c })
  | txReady (level : Bool) (hm : s.schedule.head? = some (.txReady level))
      (hx : driveReady s.taken level = .next t)
  | txIdle (level : Bool) (hm : s.schedule.head? = some (.txIdle level))
      (hx : t = State.driveIdle s.taken level)
  | reset (hm : s.schedule.head? = some .reset) (hx : t = State.resetInput s.taken)

/-- A phase's step is `exec` of the phase. -/
theorem fetchPhase_step {s u t : State}
    (h : (match fetchPhase u with | .run i t => exec i t | .moved r => r) = .next t) (hs : u.seq = s.seq) :
    ∃ i, decodeSeq s.seq = .ok i ∧ exec i u = .next t := by
  unfold fetchPhase at h
  rw [hs] at h
  cases hd : decodeSeq s.seq with
  | ok i => rw [hd] at h; exact ⟨i, rfl, h⟩
  | rejected e => rw [hd] at h; cases e; cases h

/-- A host access that is answered. -/
theorem hostAccess_step {a : HostAccess} {u t : State}
    (h : (match hostAccess a u with | .run i t => exec i t | .moved r => r) = .next t) :
    (∃ w, a = .start w ∧ t = State.startCommand u (cmdRtypeField w) (cmdValueField w)) ∨ HostEffect u t := by
  cases hf : hostAccess a u with
  | run i v =>
    rw [hf] at h
    cases a <;> simp only [hostAccess, Fetched.run.injEq, reduceCtorEq] at hf
    next w =>
    obtain ⟨rfl, rfl⟩ := hf
    have h : exec (decodeCmd u.cfg w) u = .next t := h
    rw [exec_decodeCmd] at h
    exact .inl ⟨w, rfl, (Host.Outcome.next.inj h).symm⟩
  | moved r =>
    rw [hf] at h
    obtain rfl : r = .next t := h
    exact .inr (hostAccess_effect hf)

theorem ofRead_ne_start (index : Nat) (w : CmdWord) : HostAccess.ofRead index ≠ .start w := by
  unfold HostAccess.ofRead
  split <;> simp

theorem ofWrite_eq_start {c : Config} {index v : Nat} {w : CmdWord} (h : HostAccess.ofWrite c index v = .start w) :
    index = 0 ∧ w = BitVec.ofNat 24 v := by
  unfold HostAccess.ofWrite at h
  split at h <;> simp_all

/-- Every next state of a step is one agent's doing. -/
theorem step_effect {s t : State} (h : step s = .next t) : StepEffect s t := by
  unfold step fetch at h
  cases hs : s.schedule with
  | nil =>
    rw [hs] at h
    obtain ⟨i, hd, hx⟩ := fetchPhase_step h rfl
    refine .phase (.inl hs) i hd ?_
    have : s.taken = s := by unfold State.taken; rw [hs]; cases s; simp_all
    rwa [this]
  | cons m rest =>
    rw [hs] at h
    have hu : { s with schedule := rest } = s.taken := by unfold State.taken; rw [hs]; rfl
    simp only [hu] at h
    have hh : s.schedule.head? = some m := by rw [hs]; rfl
    have hne : s.schedule ≠ [] := by rw [hs]; simp
    cases m with
    | sequencer =>
      obtain ⟨i, hd, hx⟩ := fetchPhase_step (s := s) h rfl
      exact .phase (.inr hh) i hd hx
    | tick => exact .tick hh h
    | host a =>
      rcases hostAccess_step h with ⟨w, rfl, hx⟩ | hx
      · exact .start w (.inl hh) hx
      · exact .host (fun m hm => by rw [hh] at hm; cases hm; simp) hne hx
    | regWrite index v =>
      rcases hostAccess_step h with ⟨w, hw, hx⟩ | hx
      · obtain ⟨rfl, hw'⟩ := ofWrite_eq_start hw
        exact .start w (.inr ⟨v, hh, hw'⟩) hx
      · exact .host (fun m hm => by rw [hh] at hm; cases hm; simp) hne hx
    | regRead index =>
      rcases hostAccess_step h with ⟨w, hw, hx⟩ | hx
      · exact absurd hw (ofRead_ne_start index w)
      · exact .host (fun m hm => by rw [hh] at hm; cases hm; simp) hne hx
    | pendingCount c => exact .pendingCount c hh (Host.Outcome.next.inj h).symm
    | txReady level => exact .txReady level hh h
    | txIdle level => exact .txIdle level hh (Host.Outcome.next.inj h).symm
    | reset => exact .reset hh (Host.Outcome.next.inj h).symm

end Sys2Proof.Machine
end

