-- ==== Sys2Proof/Laws/Run.lean ====
section
/-! SUPPORT. Runs of several steps, and the list of bytes that `Respond` sends. -/

namespace Sys2Proof.Machine

/-- A run of `a + b` steps is a run of `a` steps and then, where it got that far, a run of `b`. -/
theorem runSteps_add : ∀ (a b : Nat) (s t : State), runSteps a s = .next t → runSteps (a + b) s = runSteps b t
  | 0, b, s, t, h => by cases h; rw [Nat.zero_add]
  | a + 1, b, s, t, h => by
    rw [Nat.add_right_comm]
    simp only [runSteps] at h ⊢
    split at h
    · exact runSteps_add a b _ t h
    · cases h
    · cases h

/-- Where the bytes have been written, the list of them is what FB reads, offset by offset. -/
theorem Memory.bytes_of_read (m : Memory) :
    ∀ (count off : Nat), (∀ k, k < count → ∃ b, Memory.read m (off + k) = some b) →
      ∃ l, Memory.bytes m count off = .ok l ∧ l.length = count ∧
        ∀ k, k < count → l[k]? = Memory.read m (off + k)
  | 0, _, _ => ⟨[], rfl, rfl, fun _ h => absurd h (by omega)⟩
  | count + 1, off, h => by
    obtain ⟨b, hb⟩ := h 0 (by omega)
    obtain ⟨l, hl, h1, h2⟩ := Memory.bytes_of_read m count (off + 1) fun k hk => by
      obtain ⟨c, hc⟩ := h (k + 1) (by omega)
      exact ⟨c, by rwa [show off + 1 + k = off + (k + 1) by omega]⟩
    refine ⟨b :: l, ?_, by simp [h1], fun k hk => ?_⟩
    · rw [Memory.bytes, Memory.load_of_read (by simpa using hb), hl]
    · cases k with
      | zero => simpa using hb.symm
      | succ k =>
        rw [List.getElem?_cons_succ, h2 k (by omega)]
        congr 1; omega

end Sys2Proof.Machine
end

