-- ==== Sys2Proof/Tests/Slice0.lean ====
section
/-! SUPPORT. The model's own tests. Every expected value is from 95_test_vectors.md (the vector's name stands in the
comment) or computed by hand from the rule named; every test is one step. Then, for each statement that has hypotheses,
a witness that meets them. -/

namespace Sys2Proof.Tests

open Sys2Proof.Machine

/-! Helpers. -/

/-- Bytes at consecutive offsets, as a frame buffer. -/
def bytesAt : Nat → List Nat → Memory
  | _, [] => []
  | off, b :: rest => (off, BitVec.ofNat 8 b) :: bytesAt (off + 1) rest

/-- The next state of an answer, where there is one. -/
def after : Result → Option State
  | .next t => some t
  | .fault _ => none
  | .refused _ => none

/-- OWN_UID of the vectors. -/
def vectorUid : Uid := 0x7FF012345678#48

/-- "FB before" of V1. -/
def frameV1 : Memory := bytesAt 0 [0xCC, 0x01, 0x18, 0x11, 0x22, 0x33, 0x44, 0x55, 0x66, 0xAA, 0xBB, 0xCC, 0xDD, 0xEE,
  0xFF, 0x05, 0x01, 0x00, 0x00, 0x00, 0x20, 0x00, 0x60, 0x00]

/-- "FB before" of V2. -/
def frameV2 : Memory := bytesAt 0 [0xCC, 0x01, 0x1E, 0x11, 0x22, 0x33, 0x44, 0x55, 0x66, 0xAA, 0xBB, 0xCC, 0xDD, 0xEE,
  0xFF, 0x06, 0x01, 0x00, 0x00, 0x00, 0x30, 0x00, 0xF0, 0x06, 0xDE, 0xAD, 0xBE, 0xEF, 0x12, 0x34]

/-- "FB before" of V9. -/
def frameV9 : Memory := bytesAt 0 [0xCC, 0x01, 0x02, 0x11, 0x22, 0x33, 0x44, 0x55, 0x66, 0xAA, 0xBB, 0xCC, 0xDD, 0xEE,
  0xFF, 0x09, 0x01, 0x00, 0x00, 0x00, 0x20, 0x00, 0x60, 0x00]

/-- FB of V1 once SWAP and CLASS have run. -/
def summedV1 : Memory := bytesAt 0 [0xCC, 0x01, 0x18, 0xAA, 0xBB, 0xCC, 0xDD, 0xEE, 0xFF, 0x7F, 0xF0, 0x12, 0x34, 0x56,
  0x78, 0x05, 0x00, 0x03, 0x00, 0x00, 0x21, 0x00, 0x60, 0x00]

/-- The reset state with a loaded frame. -/
def loaded (m : Memory) (count : Byte) : State :=
  { State.reset with fb := m, ownUid := vectorUid, pendingCount := count }

/-- A command running in phase `seq` over a loaded frame. -/
def running (m : Memory) (seq : SeqCode) : State := { loaded m 3#8 with seq := seq, status := 1#4 }

/-! Well-formedness: each check refuses an ill-formed term. -/

theorem test_wf_refuses_raw_ack : (Instr.respondRaw 0x00#8 0#16).wf Config.defaults = false := by decide
theorem test_wf_refuses_raw_ack_timer : (Instr.respondRaw 0x01#8 0#16).wf Config.defaults = false := by decide
theorem test_wf_refuses_raw_nack : (Instr.respondRaw 0x02#8 5#16).wf Config.defaults = false := by decide
theorem test_wf_accepts_raw_overflow : (Instr.respondRaw 0x03#8 0#16).wf Config.defaults = true := by decide

/-! Parameters (R8, R256): the defaults are consistent, and each constraint refuses a term. -/

theorem test_valid_defaults : Config.defaults.valid = true := by decide
theorem test_valid_refuses_equal_codes : ({ Config.defaults with rtNackReason := 0x01#8 } : Config).valid = false := by
  decide
theorem test_valid_refuses_long_min_size : ({ Config.defaults with minSize := 254 } : Config).valid = false := by decide
theorem test_valid_refuses_small_buffer : ({ Config.defaults with fbSize := 256 } : Config).valid = false := by decide
theorem test_valid_refuses_short_spacing : ({ Config.defaults with spacing := 175 } : Config).valid = false := by decide
/-- R8, R90: the fixed rows, OFF_PDL and OFF_PD of the defaults, and one that is not fixed. -/
theorem test_fixed_rows :
    Config.defaults.fixedRows = true ∧ Config.defaults.offPdl = 23 ∧ Config.defaults.offPd = 24 ∧
      ({ Config.defaults with offTn := 16 } : Config).fixedRows = false := by decide
/-- A source UID that reaches the transaction number; a parameter id that reaches OFF_PDL. -/
theorem test_valid_refuses_overlapping_fields :
    ({ Config.defaults with offSrc := 10 } : Config).valid = false ∧
      ({ Config.defaults with minSize := 23 } : Config).valid = false := by decide
theorem test_valid_refuses_a_wider_count : ({ Config.defaults with countWidth := 9 } : Config).valid = false := by decide
theorem test_valid_refuses_wide_settling :
    ({ Config.defaults with timeWidth := 16, dirSwitch := 65536 } : Config).valid = false := by decide

/-! Decoding: words written out from the tables of rules R96 (RTYPE in bits 23 to 16, VALUE in bits 15 to 0) and R100.
-/

theorem test_decode_respondAck :
    decode Config.defaults (.cmd 0b000000001011111011101111#24) = .ok (.respondAck 0xBEEF#16) := by decide
theorem test_decode_respondAckTimer :
    decode Config.defaults (.cmd 0b000000010000000000001010#24) = .ok (.respondAckTimer 10#16) := by decide
theorem test_decode_respondNack :
    decode Config.defaults (.cmd 0b000000101000000000000001#24) = .ok (.respondNack 0x8001#16) := by decide
theorem test_decode_respondRaw :
    decode Config.defaults (.cmd 0b100000000000000100000000#24) = .ok (.respondRaw 0x80#8 0x0100#16) := by decide
theorem test_decode_idle : decode Config.defaults (.seq 0b0000#4) = .ok .idle := by decide
theorem test_decode_stamp : decode Config.defaults (.seq 0b0001#4) = .ok .stamp := by decide
theorem test_decode_dispatch : decode Config.defaults (.seq 0b0010#4) = .ok .dispatch := by decide
theorem test_decode_swap : decode Config.defaults (.seq 0b0011#4) = .ok .swap := by decide
theorem test_decode_class : decode Config.defaults (.seq 0b0100#4) = .ok .classAdvance := by decide
theorem test_decode_csum : decode Config.defaults (.seq 0b0101#4) = .ok .csum := by decide
theorem test_decode_append : decode Config.defaults (.seq 0b0110#4) = .ok .append := by decide
theorem test_decode_gate : decode Config.defaults (.seq 0b0111#4) = .ok .gate := by decide
theorem test_decode_dirOut : decode Config.defaults (.seq 0b1000#4) = .ok .dirOut := by decide
theorem test_decode_send : decode Config.defaults (.seq 0b1001#4) = .ok .send := by decide
theorem test_decode_settle : decode Config.defaults (.seq 0b1010#4) = .ok .settle := by decide
theorem test_decode_dirIn : decode Config.defaults (.seq 0b1011#4) = .ok .dirIn := by decide
theorem test_decode_rejects_12 :
    decode Config.defaults (.seq 0b1100#4) = .rejected (.unreachableSeqCode 12#4) := by decide
theorem test_decode_rejects_15 :
    decode Config.defaults (.seq 0b1111#4) = .rejected (.unreachableSeqCode 15#4) := by decide

/-! The command words, by a step of the machine (R201). -/

/-- The row of "V1 phase by phase" at NOW = 1040. -/
theorem test_respondAck_starts :
    (after (step ((loaded frameV1 3#8).withFetchWord 24 0x000000))).map
      (fun t => (t.cmdRtype, t.cmdValue, t.status, t.seq)) = some (0x00#8, 0x0000#16, 0b0001#4, 1#4) := by decide

/-- The command word of V3. -/
theorem test_respondAckTimer_starts :
    (after (step ((loaded frameV1 2#8).withFetchWord 24 0x01000A))).map
      (fun t => (t.cmdRtype, t.cmdValue, t.status, t.seq)) = some (0x01#8, 0x000A#16, 0b0001#4, 1#4) := by decide

/-- The command word of V2, after an abort: every old flag is cleared (R201). -/
theorem test_respondNack_clears_the_flags :
    (after (step (({ loaded frameV2 0#8 with status := 0b1010#4 } : State).withFetchWord 24 0x020001))).map
      (fun t => (t.cmdRtype, t.cmdValue, t.status, t.seq)) = some (0x02#8, 0x0001#16, 0b0001#4, 1#4) := by decide

/-- The command word of V4. -/
theorem test_respondRaw_starts :
    (after (step ((loaded frameV1 7#8).withFetchWord 24 0x031234))).map
      (fun t => (t.cmdRtype, t.cmdValue, t.status, t.seq)) = some (0x03#8, 0x1234#16, 0b0001#4, 1#4) := by decide

/-- A write to CMD during a command is dropped (R201). -/
theorem test_respondNack_is_dropped_while_busy :
    (after (step ((running frameV1 7#4).withFetchWord 24 0x020001))).map
      (fun t => (t.cmdRtype, t.cmdValue, t.status, t.seq)) = some (0x00#8, 0#16, 0b0001#4, 7#4) := by decide

/-- IDLE (R120). -/
theorem test_idle_holds : after (step State.reset) = some State.reset := by decide

/-! The encoder's phases. -/

/-- The row of "V1 phase by phase" at NOW = 1041. -/
theorem test_stamp_V1 :
    (after (step ((running frameV1 0#4).withFetchWord 8 1))).map (fun t => (Memory.read t.fb 17, t.seq)) =
      some (some 3#8, 2#4) := by decide

/-- V1: offset 16 becomes RT_ACK and LEN = 0x18. -/
theorem test_dispatch_ack_V1 :
    (after (exec .dispatch (running frameV1 2#4))).map (fun t => (Memory.read t.fb 16, t.len, t.seq)) =
      some (some 0x00#8, 0x18#8, 3#4) := by decide

/-- V2: offsets 2, 16, 23, 24, 25 and 26 after DISPATCH, and LEN. -/
theorem test_dispatch_nack_V2 :
    (after (exec .dispatch { running frameV2 2#4 with cmdRtype := 0x02#8, cmdValue := 0x0001#16 })).map
      (fun t => ([2, 16, 23, 24, 25, 26].map (Memory.read t.fb), t.len)) =
      some ([some 0x1A#8, some 0x02#8, some 0x02#8, some 0x00#8, some 0x01#8, some 0xBE#8], 0x1A#8) := by decide

/-- R8, R142: the param data length and the param data follow MIN_SIZE. -/
theorem test_dispatch_follows_min_size :
    (after (exec .dispatch { running frameV2 2#4 with
        cmdRtype := 0x01#8, cmdValue := 0x1234#16, cfg := { Config.defaults with minSize := 30 } })).map
      (fun t => ([2, 29, 30, 31].map (Memory.read t.fb), t.len)) =
      some ([some 32#8, some 0x02#8, some 0x12#8, some 0x34#8], 32#8) := by decide

/-- V1: destination = the old source, source = OWN_UID (V16 is the swap done wrong). -/
theorem test_swap_V1 :
    (after (exec .swap (running frameV1 3#4))).map
      (fun t => [3, 4, 5, 6, 7, 8, 9, 10, 11, 12, 13, 14].map (Memory.read t.fb)) =
      some [some 0xAA#8, some 0xBB#8, some 0xCC#8, some 0xDD#8, some 0xEE#8, some 0xFF#8,
        some 0x7F#8, some 0xF0#8, some 0x12#8, some 0x34#8, some 0x56#8, some 0x78#8] := by decide

/-- R80: a source byte that nothing has written stops SWAP. -/
theorem test_swap_stops_on_an_unwritten_byte :
    after (exec .swap (running (bytesAt 9 [0xAA, 0xBB]) 3#4)) = none := by decide

/-- V12: class 0xFF wraps to 0x00. -/
theorem test_class_wraps_V12 :
    (after (exec .classAdvance (running (bytesAt 20 [0xFF]) 4#4))).map (fun t => (Memory.read t.fb 20, t.seq)) =
      some (some 0x00#8, 5#4) := by decide

/-- The row of "V1 phase by phase" at NOW = 1045. -/
theorem test_csum_V1 :
    (after (exec .csum { running summedV1 5#4 with len := 0x18#8 })).map (fun t => (t.csum, t.idx, t.seq)) =
      some (0x08EC#16, 24#9, 6#4) := by decide

/-- V7: a length of 0 sums nothing and reads nothing. -/
theorem test_csum_of_nothing_V7 :
    (after (exec .csum { running [] 5#4 with csum := 0xFFFF#16 })).map (fun t => (t.csum, t.idx)) =
      some (0x0000#16, 0#9) := by decide

/-- V1: the checksum bytes. -/
theorem test_append_V1 :
    (after (exec .append { running summedV1 6#4 with len := 0x18#8, csum := 0x08EC#16 })).map
      (fun t => [Memory.read t.fb 23, Memory.read t.fb 24, Memory.read t.fb 25]) =
      some [some 0x00#8, some 0x08#8, some 0xEC#8] := by decide

/-- V11: offsets 255 and 256 do not wrap. -/
theorem test_append_at_the_end_V11 :
    (after (exec .append { running [] 6#4 with len := 255#8, csum := 0xFC03#16 })).map
      (fun t => [Memory.read t.fb 255, Memory.read t.fb 256, Memory.read t.fb 0]) =
      some [some 0xFC#8, some 0x03#8, none] := by decide

/-! `Respond` (R126) on whole vectors. -/

/-- The bytes sent, where `Respond` answers. -/
def sentOf : Except Fault (Memory × Option (List Byte)) → Option (List Nat)
  | .ok (_, some bytes) => some (bytes.map BitVec.toNat)
  | .ok (_, none) => none
  | .error _ => none

/-- V1: the 26 bytes. -/
theorem test_respond_V1 :
    sentOf (respond Config.defaults frameV1 0x00#8 0#16 vectorUid 3#8) =
      some [0xCC, 0x01, 0x18, 0xAA, 0xBB, 0xCC, 0xDD, 0xEE, 0xFF, 0x7F, 0xF0, 0x12, 0x34, 0x56, 0x78, 0x05, 0x00, 0x03,
        0x00, 0x00, 0x21, 0x00, 0x60, 0x00, 0x08, 0xEC] := by decide

/-- V2: the 28 bytes. -/
theorem test_respond_V2 :
    sentOf (respond Config.defaults frameV2 0x02#8 1#16 vectorUid 0#8) =
      some [0xCC, 0x01, 0x1A, 0xAA, 0xBB, 0xCC, 0xDD, 0xEE, 0xFF, 0x7F, 0xF0, 0x12, 0x34, 0x56, 0x78, 0x06, 0x02, 0x00,
        0x00, 0x00, 0x31, 0x00, 0xF0, 0x02, 0x00, 0x01, 0x09, 0x91] := by decide

/-- V9: LEN is the latched length, whatever the checksum does to the length byte (D16). -/
theorem test_respond_V9 :
    sentOf (respond Config.defaults frameV9 0x00#8 0#16 vectorUid 5#8) = some [0xCC, 0x01, 0x00, 0xCD] := by decide

/-! The bus phases. -/

/-- GATE on entry at NOW = `now` with RX_END_TS = `rx`: T0, DLY, SEQ. -/
def gateAt (rx now : Nat) : Option (Nat × Nat × SeqCode) :=
  (after (exec .gate { running [] 7#4 with rxEndTs := rx, now := now })).map (fun t => (t.t0, t.dly, t.seq))

/-- T1 to T4: the ordinary case, E = T_SPACING_US exactly, the shortest and the longest wait. -/
theorem test_gate_T1_to_T4 :
    gateAt 1000 1050 = some (1050, 126, 7#4) ∧ gateAt 1000 1176 = some (1176, 0, 8#4) ∧
      gateAt 1000 1175 = some (1175, 1, 7#4) ∧ gateAt 1000 1000 = some (1000, 176, 7#4) := by decide

/-- T6 and T7: a time stamp ahead of NOW, and one wrap of NOW. -/
theorem test_gate_T6_T7 :
    gateAt 2000 1500 = some (1500, 0, 8#4) ∧ gateAt (2 ^ 64 - 100) 20 = some (20, 56, 7#4) := by decide

/-- The row of "V1 phase by phase" at NOW = 1176. -/
theorem test_dirOut_V1 :
    (after (exec .dirOut { running [] 8#4 with now := 1176 })).map (fun t => (t.dirstat, t.trace, t.seq)) =
      some (0b01#2, [Event.dir 1176 .output false], 9#4) := by decide

/-- R177: byte 0 is taken, and byte 1 is offered. -/
theorem test_send_takes_a_byte :
    (after (exec .send { running summedV1 9#4 with
        len := 0x18#8, txActive := true, txValid := true, txData := 0xCC#8, txReady := true, now := 1176 })).map
      (fun t => (t.trace, t.idx, t.txData, t.txValid, t.txIdle)) =
      some ([Event.tx 1176 0 0xCC#8], 1#9, 0x01#8, true, false) := by decide

/-- The rows of "V1 phase by phase" at NOW = 2320: after byte LEN + 1 and `tx_idle`, `TxDone`, SETTLE, T0 and DLY. -/
theorem test_send_ends :
    (after (exec .send { running summedV1 9#4 with
        len := 0x18#8, idx := 26#9, txActive := true, txIdle := true, now := 2320 })).map
      (fun t => (t.trace, t.txActive, t.seq, t.t0, t.dly)) =
      some ([Event.txDone 2320], false, 10#4, 2320, 4) := by decide

/-- T8 and T9: T_DIRSW_US = 4, and 0. -/
theorem test_settle_T8_T9 :
    (after (exec .settle { running [] 10#4 with now := 2400 })).map (fun t => (t.t0, t.dly, t.seq)) =
        some (2400, 4, 10#4) ∧
      (after (exec .settle { running [] 10#4 with
          now := 2400, cfg := { Config.defaults with dirSwitch := 0 } })).map (fun t => (t.t0, t.dly, t.seq)) =
        some (2400, 0, 11#4) := by decide

/-- T8: the wait is over at 2404 and not at 2403. -/
theorem test_settle_ends_T8 :
    (after (exec .settle { running [] 10#4 with now := 2404, t0 := 2400, dly := 4, delaying := true })).map State.seq =
        some 11#4 ∧
      (after (exec .settle { running [] 10#4 with now := 2403, t0 := 2400, dly := 4, delaying := true })).map State.seq =
        some 10#4 := by decide

/-- The row of "V1 phase by phase" at NOW = 2324. -/
theorem test_dirIn_V1 :
    (after (exec .dirIn { running [] 11#4 with now := 2324, dir := .output, pullup := false })).map
      (fun t => (t.dirstat, t.trace, t.status, t.seq)) =
      some (0b10#2, [Event.dir 2324 .input true], 0b0110#4, 0#4) := by decide

/-! The host and the clock. -/

/-- R204: OWN_UID[0] is the highest byte written. -/
theorem test_wrUid :
    (after (step { State.reset with schedule := [.regWrite 2 0x7FF012345678] })).map
      (fun t => (uidByte t.ownUid 0, uidByte t.ownUid 5)) = some (0x7F#8, 0x78#8) := by decide

/-- R202: a write to FB is dropped while BUSY = 1. -/
theorem test_wrFb_is_dropped_while_busy :
    (after (step { running frameV1 7#4 with schedule := [.host (.wrFb 2 0xFF#8)] })).map
      (fun t => Memory.read t.fb 2) = some (some 0x18#8) := by decide

/-- R206: RX_END_CAP while BUSY = 0. -/
theorem test_rxEndCap :
    (after (step { State.reset with now := 5000, schedule := [.regWrite 7 99] })).map State.rxEndTs = some 5000 := by
  decide

/-- R36: NOW wraps at 2^64. -/
theorem test_tick_wraps :
    (after (step { State.reset with now := 2 ^ 64 - 1, schedule := [.tick] })).map State.now = some 0 := by decide

/-- R177, R178: a tick in which `tx_valid` and `tx_ready` are 1 takes the byte, stamped with that tick, and the next byte
is offered with `tx_valid` still 1. -/
theorem test_tick_takes_the_offered_byte :
    (after (step { running summedV1 9#4 with
        len := 0x18#8, txActive := true, txValid := true, txData := 0xCC#8, txReady := true, now := 1176,
        schedule := [.tick] })).map (fun t => (t.trace, t.idx, t.txData, t.txValid, t.now)) =
      some ([Event.tx 1176 0 0xCC#8], 1#9, 0x01#8, true, 1177) := by decide

/-- R178: so does the fall of `tx_ready`; a tick with `tx_ready` = 0 takes nothing. -/
theorem test_falling_ready_takes_the_offered_byte :
    (after (step { running summedV1 9#4 with
        len := 0x18#8, txActive := true, txValid := true, txData := 0xCC#8, txReady := true, now := 1176,
        schedule := [.txReady false] })).map (fun t => (t.trace, t.txReady)) =
        some ([Event.tx 1176 0 0xCC#8], false) ∧
      (after (step { running summedV1 9#4 with
          len := 0x18#8, txActive := true, txValid := true, txData := 0xCC#8, schedule := [.tick] })).map State.trace =
        some [] := by decide

/-- R28: the tick in which the serialiser reports the end does not pass without `TxDone`, and T0 is its stamp (T8). -/
theorem test_tick_sees_the_report :
    (after (step { running summedV1 9#4 with
        len := 0x18#8, idx := 26#9, txActive := true, txIdle := true, now := 2400, schedule := [.tick] })).map
      (fun t => (t.trace, t.t0, t.dly, t.seq, t.now)) = some ([Event.txDone 2400], 2400, 4, 10#4, 2401) := by decide

/-- P3: READFB 17 while idle. -/
theorem test_rdFb :
    (after (step { loaded (bytesAt 17 [0x07]) 7#8 with schedule := [.host (.rdFb 17)] })).map State.answers =
      some [HostAnswer.fb 17 0x07#8] := by decide

/-! States for the witnesses. -/

/-- Nothing above the listed offsets has a value. -/
theorem read_above {m : Memory} {n : Nat} (h : m.all (fun e => decide (e.1 < n)) = true) :
    ∀ a, n ≤ a → Memory.read m a = none := by
  induction m with
  | nil => intro a _; rfl
  | cons e rest ih =>
    obtain ⟨x, v⟩ := e
    simp only [List.all_cons, Bool.and_eq_true, decide_eq_true_eq] at h
    intro a ha
    rw [Memory.read, if_neg (by omega)]
    exact ih h.2 a ha

/-- A frame whose first `n` bytes read is written up to `n`. -/
theorem written_of {s : State} {n : Nat} (h : ∀ a, a < n → (Memory.read s.fb a).isSome = true) : s.written n :=
  fun a ha => Option.isSome_iff_exists.1 (h a ha)

/-- An ACK over the frame of V1 that has just started. -/
def stamping : State := running frameV1 1#4

/-- The same command while GATE waits (T1). -/
def gating : State :=
  { running summedV1 7#4 with
    len := 0x18#8, rxEndTs := 1000, now := 1100, t0 := 1050, dly := 126, delaying := true, schedule := [.tick] }

/-- The same command while byte 1 is offered to a serialiser that is ready. -/
def sending : State :=
  { running (bytesAt 0 [0xCC, 0x01, 0x18]) 9#4 with
    len := 1#8, rxEndTs := 1000, now := 1176, dir := .output, pullup := false, txActive := true, idx := 1#9,
    txData := 0x01#8, txValid := true, txReady := true, txIdle := false,
    trace := [Event.dir 1176 .output false, Event.tx 1176 0 0xCC#8] }

/-- The same command at the last tick of SETTLE. -/
def settling : State :=
  { running (bytesAt 0 [0xCC, 0x01, 0x18]) 10#4 with
    len := 1#8, rxEndTs := 1000, now := 2404, t0 := 2400, dly := 4, delaying := true, dir := .output, pullup := false,
    trace := [Event.dir 1176 .output false, Event.tx 1176 0 0xCC#8, Event.tx 1176 1 0x01#8, Event.tx 1176 2 0x18#8,
      Event.txDone 2400] }

/-- The same command in DIR_IN. -/
def returning : State := { settling with seq := 11#4, delaying := false }

theorem witness_reset_inv : State.reset.Inv := by
  constructor <;> first
    | exact read_above (by decide)
    | (unfold State.drivesLine; decide)
    | decide

theorem witness_stamping_inv : stamping.Inv := by
  constructor <;> first
    | exact read_above (by decide)
    | (unfold State.drivesLine; decide)
    | decide

theorem witness_gating_inv : gating.Inv := by
  constructor <;> first
    | exact read_above (by decide)
    | (unfold State.drivesLine; decide)
    | decide

theorem witness_sending_inv : sending.Inv := by
  constructor <;> first
    | exact read_above (by decide)
    | (unfold State.drivesLine; decide)
    | decide

theorem witness_settling_inv : settling.Inv := by
  constructor <;> first
    | exact read_above (by decide)
    | (unfold State.drivesLine; decide)
    | decide

theorem witness_returning_inv : returning.Inv := by
  constructor <;> first
    | exact read_above (by decide)
    | (unfold State.drivesLine; decide)
    | decide

/-! Witnesses: for each statement with hypotheses, states and operands that meet all of them; for a statement with
several clauses, one for each clause, at a boundary of its range where it has one. -/

theorem witness_DecodeOfEncodeIsTheInstruction :
    Config.defaults.valid = true ∧ (Instr.respondRaw 0x03#8 0#16).wf Config.defaults = true ∧
      (Instr.respondAck 0xFFFF#16).wf Config.defaults = true ∧ Instr.dirIn.wf Config.defaults = true := by decide

theorem witness_EncodeOfDecodeIsTheCode :
    decode Config.defaults (.cmd 0xFF1234#24) = .ok (.respondRaw 0xFF#8 0x1234#16) ∧
      decode Config.defaults (.seq 11#4) = .ok .dirIn := by decide

/-- One word for each row, and both ends of the last row. -/
theorem witness_CommandWordsFollowTheRowsOfTheTable :
    0x00FFFF#24 &&& 0xFF0000#24 = 0x000000#24 ∧ 0x010000#24 &&& 0xFF0000#24 = 0x010000#24 ∧
      0x02FFFF#24 &&& 0xFF0000#24 = 0x020000#24 ∧
      (0x030000#24 &&& 0xFF0000#24 ≠ 0x000000#24 ∧ 0x030000#24 &&& 0xFF0000#24 ≠ 0x010000#24 ∧
        0x030000#24 &&& 0xFF0000#24 ≠ 0x020000#24) ∧
      0xFFFFFF#24 &&& 0xFF0000#24 ≠ 0x000000#24 ∧ 0xFFFFFF#24 &&& 0xFF0000#24 ≠ 0x010000#24 ∧
        0xFFFFFF#24 &&& 0xFF0000#24 ≠ 0x020000#24 := by decide

theorem witness_StepRunsTheFetchedInstruction :
    (State.reset.schedule = [] ∧ decodeSeq State.reset.seq = .ok .idle) ∧
      (({ stamping with schedule := [.sequencer] } : State).schedule = .sequencer :: [] ∧
        decodeSeq stamping.seq = .ok .stamp) ∧
      ({ State.reset with schedule := [.host (.start 5#24)] } : State).schedule = .host (.start 5#24) :: [] ∧
      ({ State.reset with schedule := [.regWrite 0 5] } : State).schedule = .regWrite 0 5 :: [] := by decide

theorem witness_UnreachableSeqCodesAreRefused :
    (running [] 12#4).schedule = [] ∧ 12 ≤ (running [] 12#4).seq.toNat ∧ 12 ≤ (running [] 15#4).seq.toNat := by decide

theorem witness_PlacedTableWordRunsNext :
    State.reset.cfg = Config.defaults ∧ decodeTableWord 24 0x031234 = some (.respondRaw 0x03#8 0x1234#16) ∧
      decodeTableWord 8 11 = some .dirIn := by decide

theorem witness_ResetLeavesTheStatedValues :
    ({ sending with schedule := [.reset] } : State).schedule = .reset :: [] := by decide

theorem witness_ResetMeetsTheInvariant : Config.defaults.valid = true := by decide

/-- A step of the clock during GATE, of the sequencer in SEND and in SETTLE, and one from reset. -/
theorem witness_EveryStepKeepsTheInvariant :
    (gating.Inv ∧ ∃ t, step gating = .next t) ∧ (sending.Inv ∧ ∃ t, step sending = .next t) ∧
      (settling.Inv ∧ ∃ t, step settling = .next t) ∧ (State.reset.Inv ∧ ∃ t, step State.reset = .next t) :=
  ⟨⟨witness_gating_inv, _, rfl⟩, ⟨witness_sending_inv, _, rfl⟩, ⟨witness_settling_inv, _, rfl⟩,
    ⟨witness_reset_inv, _, rfl⟩⟩

/-- A run whose moves write a byte, start an ACK and run STAMP. -/
theorem witness_ReachableStatesMeetR52 :
    Config.defaults.valid = true ∧
      ∃ t, runSteps 3 { State.resetWith Config.defaults with
        schedule := [.host (.wrFb 2 0x18#8), .regWrite 0 0, .sequencer] } = .next t ∧ t.seq = 2#4 :=
  ⟨by decide, _, rfl, rfl⟩

theorem witness_ParametersNeverChange : ∃ t, step gating = .next t := ⟨_, rfl⟩

theorem witness_OnlyTheClockWritesNow :
    (∃ t, step gating = .next t ∧ gating.schedule.head? = some .tick ∧ gating.txValid = false ∧
      gating.txActive = false) ∧
      ∃ t, step sending = .next t ∧ sending.schedule.head? ≠ some .tick :=
  ⟨⟨_, rfl, rfl, rfl, rfl⟩, _, rfl, by decide⟩

/-- Another byte follows, the last byte, and a following byte that nothing has written. -/
theorem witness_OfferedByteIsTakenInItsTick :
    (sending.Inv ∧ sending.txValid = true ∧ sending.txReady = true ∧
      Memory.read sending.fb sending.idx.toNat = some 0x01#8 ∧ sending.idx.toNat + 1 < sending.len.toNat + 2 ∧
      Memory.read sending.fb (sending.idx.toNat + 1) = some 0x18#8) ∧
    (let s : State := { sending with idx := 2#9, txData := 0x18#8 };
      Memory.read s.fb s.idx.toNat = some 0x18#8 ∧ s.idx.toNat + 1 = s.len.toNat + 2) ∧
    (let s : State := { sending with fb := bytesAt 0 [0xCC, 0x01] };
      Memory.read s.fb s.idx.toNat = some 0x01#8 ∧ s.idx.toNat + 1 < s.len.toNat + 2 ∧
        Memory.read s.fb (s.idx.toNat + 1) = none) ∧
    ({ sending with schedule := [.tick] } : State).schedule = .tick :: [] ∧
    ({ sending with schedule := [.txReady false] } : State).schedule = .txReady false :: [] :=
  ⟨⟨witness_sending_inv, by decide⟩, by decide, by decide, rfl, rfl⟩

theorem witness_ReportedEndIsSeenInItsTick :
    let s : State := { sending with idx := 3#9, txValid := false, txIdle := true };
    s.txActive = true ∧ s.txValid = false ∧ s.len.toNat + 2 ≤ s.idx.toNat ∧ s.txIdle = true := by decide

/-- DIR_OUT changes DIR and PULLUP; DIR_IN at a line that is INPUT already still records its event. -/
theorem witness_OnlyTheDirectionPhasesWriteTheLine :
    (∃ t, step (running [] 8#4) = .next t ∧ t.dir ≠ (running [] 8#4).dir) ∧
      ∃ t, step (running [] 11#4) = .next t ∧
        ∃ u d p, t.trace = (running [] 11#4).trace ++ [Event.dir u d p] :=
  ⟨⟨_, rfl, by decide⟩, _, rfl, _, _, _, rfl⟩

/-- A phase for each case: a hold, the next code, DIR_IN, the abort. -/
theorem witness_PhasesFollowTheGraph :
    (decodeSeq gating.seq = .ok .gate ∧ ∃ t, exec .gate gating = .next t) ∧
      (decodeSeq stamping.seq = .ok .stamp ∧ ∃ t, exec .stamp stamping = .next t) ∧
      (decodeSeq (running [] 11#4).seq = .ok .dirIn ∧ ∃ t, exec .dirIn (running [] 11#4) = .next t) ∧
      (decodeSeq (running [] 2#4).seq = .ok .dispatch ∧
        ∃ t, exec .dispatch { running [] 2#4 with cmdRtype := 0xFF#8 } = .next t) :=
  ⟨⟨rfl, _, rfl⟩, ⟨rfl, _, rfl⟩, ⟨rfl, _, rfl⟩, rfl, _, rfl⟩

theorem witness_CommandsStartWhenIdle : State.reset.busy = false := by decide

theorem witness_WriteToCmdStartsOrIsDropped : State.reset.busy = false ∧ stamping.busy = true := by decide

theorem witness_IdleEndsOnlyByAWriteToCmd :
    ({ State.reset with schedule := [.regWrite 0 0x020001] } : State).Inv ∧ State.reset.seq = 0#4 ∧
      ∃ t, step { State.reset with schedule := [.regWrite 0 0x020001] } = .next t ∧ t.seq ≠ 0#4 := by
  refine ⟨?_, rfl, _, rfl, by decide⟩
  constructor <;> first
    | exact read_above (by decide)
    | (unfold State.drivesLine; decide)
    | decide

/-- The ACK path, both types with a value, and the first and the last type of the abort. -/
theorem witness_DispatchFollowsTheResponseType :
    State.reset.cfg.valid = true ∧
      ((running frameV1 2#4).cmdRtype = (running frameV1 2#4).cfg.rtAck ∧
        Memory.read (running frameV1 2#4).fb 2 = some 0x18#8) ∧
      (0x01#8 : Byte) = Config.defaults.rtAckTimer ∧ (0x02#8 : Byte) = Config.defaults.rtNackReason ∧
      ∀ r ∈ [0x03#8, 0xFF#8], r ≠ Config.defaults.rtAck ∧ r ≠ Config.defaults.rtAckTimer ∧
        r ≠ Config.defaults.rtNackReason := by decide

theorem witness_SwapTakesTheOldSourceAndTheOwnUid :
    (running frameV1 3#4).cfg.valid = true ∧
      ∀ i, i < 6 → ∃ b, Memory.read (running frameV1 3#4).fb ((running frameV1 3#4).cfg.offSrc + i) = some b :=
  ⟨by decide, fun i hi => written_of (s := running frameV1 3#4) (n := 15) (by decide) (9 + i) (by omega)⟩

theorem witness_ClassAdvancesByOne : Memory.read (running frameV1 4#4).fb 20 = some 0x20#8 := by decide

/-- A message of 24 bytes, and one of none. -/
theorem witness_CsumIsTheSumOfTheMessage :
    (∀ a, a < ({ running summedV1 5#4 with len := 0x18#8 } : State).len.toNat →
      Memory.read summedV1 a = some ((Memory.read summedV1 a).getD 0#8)) ∧
      ∀ a, a < (running [] 5#4).len.toNat → Memory.read (running [] 5#4).fb a = some 0#8 := by decide

theorem witness_PhasesFaultExactlyOnUnwrittenBytes :
    State.reset.cfg.valid = true ∧ (running [] 9#4).txActive = false ∧ sending.txActive = true := by decide

/-- An ACK on which both complete, and one on which both stop. -/
theorem witness_EncoderPhasesMatchRespond :
    stamping.cfg.valid = true ∧ stamping.cfg.supports stamping.cmdRtype = true ∧
      (running [] 1#4).cfg.supports (running [] 1#4).cmdRtype = true := by decide

theorem witness_UnknownTypeIsTheSilentAbort :
    (loaded frameV1 7#8).busy = false ∧ (loaded frameV1 7#8).cfg.supports 0x03#8 = false ∧
      (loaded frameV1 7#8).cfg.supports 0xFF#8 = false := by decide

theorem witness_EncoderCompletesOnALoadedFrame :
    stamping.cfg.valid = true ∧ stamping.cfg.supports stamping.cmdRtype = true ∧ stamping.written stamping.cfg.minSize ∧
      Memory.read stamping.fb 2 = some 24#8 ∧
      (stamping.cmdRtype = stamping.cfg.rtAck → stamping.written (24#8 : Byte).toNat) :=
  ⟨by decide, by decide, written_of (by decide), by decide, fun _ => written_of (by decide)⟩

/-- V1, whose length is MIN_SIZE, and V9, whose length is 2. -/
theorem witness_ResponseFrameMeetsTheDocumentsProperties :
    stamping.cfg.valid = true ∧ stamping.cfg.supports stamping.cmdRtype = true ∧
      (∃ t, execAll encoderPhases stamping = .next t ∧ stamping.cfg.minSize ≤ t.len.toNat) ∧
      ∃ t, execAll encoderPhases (running frameV9 1#4) = .next t ∧ t.len.toNat = 2 :=
  ⟨by decide, by decide, ⟨_, rfl, by decide⟩, _, rfl, rfl⟩

/-- V1, whose length is MIN_SIZE, and V9, whose checksum lands on the length byte. -/
theorem witness_RespondMeetsTheDocumentsProperties :
    Config.defaults.valid = true ∧
      (∃ m tx, respond Config.defaults frameV1 0x00#8 0#16 vectorUid 3#8 = .ok (m, some tx)) ∧
      ∃ m tx, respond Config.defaults frameV9 0x00#8 0#16 vectorUid 5#8 = .ok (m, some tx) :=
  ⟨by decide, ⟨_, _, rfl⟩, _, _, rfl⟩

/-- The abort of V4; a byte handed over; a command that returns. -/
theorem witness_TraceMeetsTheDocumentsProperties :
    ((loaded frameV1 7#8).busy = false ∧ (loaded frameV1 7#8).cfg.supports 0x03#8 = false ∧
      ∃ t, execAll [.respondRaw 0x03#8 0x1234#16, .stamp, .dispatch] (loaded frameV1 7#8) = .next t) ∧
    (sending.Inv ∧ sending.SpacingKept ∧
      ∃ t, step sending = .next t ∧ t.trace = sending.trace ++ [Event.tx 1176 1 0x01#8]) ∧
    returning.Inv ∧ ∃ t, step returning = .next t ∧ t.busy = false ∧ t.sent = true :=
  ⟨⟨by decide, by decide, _, rfl⟩,
    ⟨witness_sending_inv, by unfold State.SpacingKept State.drivesLine; decide, _, rfl, rfl⟩,
    witness_returning_inv, _, rfl, by decide⟩

/-- A byte of each kind after V1 and after a NACK over the frame of V2: byte 0, the parameter id, the param data length
of an ACK, and the byte after the checksum. -/
theorem witness_EncoderPassesTheOtherBytesThrough :
    (∃ t, execAll encoderPhases stamping = .next t ∧
      ∀ a ∈ [0, 22, 23, 26], a ≠ t.len.toNat ∧ a ≠ t.len.toNat + 1 ∧
        (a ∈ [0, 1, 15, 18, 19, 21, 22] ∨ (stamping.cmdRtype = stamping.cfg.rtAck ∧ (a = 2 ∨ stamping.cfg.minSize - 1 ≤ a)))) ∧
      ∃ t, execAll encoderPhases { running frameV2 1#4 with cmdRtype := 0x02#8 } = .next t ∧
        (28 ≠ t.len.toNat ∧ 28 ≠ t.len.toNat + 1 ∧ 24 ≤ 28 ∧ t.len.toNat + 1 < 28) :=
  ⟨⟨_, rfl, by decide⟩, _, rfl, by decide⟩

theorem witness_AckIgnoresItsValue :
    (loaded frameV1 3#8).busy = false ∧ (loaded frameV1 3#8).cfg.valid = true := by decide

theorem witness_PendingCountIsReadByStampAlone : Instr.dispatch ≠ .stamp ∧ Instr.respondNack 1#16 ≠ .stamp := by decide

/-- GATE at E = 175 and at E = 176 (T3, T2), and while it waits at the last tick and one before it. -/
theorem witness_GateWaitsOutTheSpacing :
    (let s : State := { running [] 7#4 with rxEndTs := 1000, now := 1175 };
      s.delaying = false ∧ s.elapsed < s.cfg.spacing) ∧
    (let s : State := { running [] 7#4 with rxEndTs := 1000, now := 1176 };
      s.delaying = false ∧ s.cfg.spacing ≤ s.elapsed) ∧
    (let s : State := { gating with now := 1176 };
      s.delaying = true ∧ s.dly ≤ s.waited) ∧
    (let s : State := { gating with now := 1175 };
      s.delaying = true ∧ s.waited < s.dly) := by decide

theorem witness_TimeDifferencesAreModular : 2 ^ 16 - 1 < 2 ^ 16 ∧ 0 < 2 ^ 16 - 1 ∧ 0 < 2 ^ 16 := by decide

/-- The clock's step during GATE. -/
theorem witness_PacketSpacingIsKept :
    gating.Inv ∧ gating.SpacingKept ∧ gating.elapsed + 1 < 2 ^ gating.cfg.timeWidth ∧ ∃ t, step gating = .next t :=
  ⟨witness_gating_inv, by unfold State.SpacingKept State.drivesLine; decide, by decide, _, rfl⟩

/-- The step that ends SETTLE, and the clock's in DIR_IN. -/
theorem witness_SettlingDelayIsKept :
    (settling.Inv ∧ settling.SettlingKept ∧ (settling.seq = 11#4 → settling.waited + 1 < 2 ^ settling.cfg.timeWidth) ∧
      ∃ t, step settling = .next t ∧ t.seq = 11#4) ∧
    (let s : State := { returning with schedule := [.tick] };
      s.Inv ∧ s.SettlingKept ∧ s.waited + 1 < 2 ^ s.cfg.timeWidth ∧ ∃ t, step s = .next t) := by
  refine ⟨⟨witness_settling_inv, fun _ => ⟨⟨settling.trace.dropLast, rfl⟩, fun h => absurd h (by decide)⟩, by decide,
    _, rfl, rfl⟩, ?_, fun _ => ⟨⟨settling.trace.dropLast, rfl⟩, fun _ => by decide⟩, by decide, _, rfl⟩
  constructor <;> first
    | exact read_above (by decide)
    | (unfold State.drivesLine; decide)
    | decide

/-- GATE two ticks before its end. -/
theorem witness_GateEndsOnceTheClockHasTicked :
    let s : State := { gating with now := 1174, schedule := List.replicate 2 .tick ++ [.sequencer] };
    s.Inv ∧ s.seq = 7#4 ∧ s.delaying = true ∧ s.waited + 2 < 2 ^ s.cfg.timeWidth ∧ s.dly ≤ s.waited + 2 ∧
      s.schedule = List.replicate 2 .tick ++ [.sequencer] := by
  refine ⟨?_, by decide, by decide, by decide, by decide, by decide⟩
  constructor <;> first
    | exact read_above (by decide)
    | (unfold State.drivesLine; decide)
    | decide

/-- SEND's seven clauses, over a message of one byte: bytes 0 to 2 are sent. -/
theorem witness_SendHandsOverByteByByte :
    ((running frameV1 9#4).txActive = false ∧ Memory.read (running frameV1 9#4).fb 0 = some 0xCC#8) ∧
    (let s : State := { sending with idx := 2#9, txValid := false };
      s.txActive = true ∧ s.txValid = false ∧ s.idx.toNat < s.len.toNat + 2 ∧ Memory.read s.fb s.idx.toNat = some 0x18#8) ∧
    (sending.txActive = true ∧ sending.txValid = true ∧ sending.txReady = true ∧
      sending.idx.toNat + 1 < sending.len.toNat + 2 ∧ Memory.read sending.fb sending.idx.toNat = some 0x01#8 ∧
      Memory.read sending.fb (sending.idx.toNat + 1) = some 0x18#8) ∧
    (let s : State := { sending with idx := 2#9 };
      s.txActive = true ∧ s.txValid = true ∧ s.txReady = true ∧ s.idx.toNat + 1 = s.len.toNat + 2 ∧
        Memory.read s.fb s.idx.toNat = some 0x18#8) ∧
    (let s : State := { sending with idx := 2#9, txReady := false };
      s.txActive = true ∧ s.txValid = true ∧ s.txReady = false ∧ s.idx.toNat < s.len.toNat + 2) ∧
    (let s : State := { sending with idx := 3#9, txValid := false };
      s.txActive = true ∧ s.txValid = false ∧ s.txIdle = false ∧ s.len.toNat + 2 ≤ s.idx.toNat) ∧
    (let s : State := { sending with idx := 3#9, txValid := false, txIdle := true };
      s.txActive = true ∧ s.txIdle = true ∧ s.len.toNat + 2 ≤ s.idx.toNat) := by decide

/-- The shortest message, of no byte: the two checksum bytes are sent. -/
theorem witness_SendSendsTheWholeFrameInOrder :
    let s : State := { running (bytesAt 0 [0x00, 0x00]) 9#4 with txReady := true };
    s.seq = 9#4 ∧ s.schedule = [] ∧ s.txActive = false ∧ s.txReady = true ∧
      ∀ k, k < s.len.toNat + 2 → Memory.read s.fb k = some ((fun _ => 0#8) k) := by decide

/-- SETTLE with T_DIRSW_US = 4 and 0, and while it waits at the last tick and one before it. -/
theorem witness_SettleWaitsOutTheSwitchDelay :
    ((running [] 10#4).delaying = false ∧ 0 < (running [] 10#4).cfg.dirSwitch) ∧
    (let s : State := { running [] 10#4 with cfg := { Config.defaults with dirSwitch := 0 } };
      s.delaying = false ∧ s.cfg.dirSwitch = 0) ∧
    (settling.delaying = true ∧ settling.dly ≤ settling.waited) ∧
    (let s : State := { settling with now := 2403 };
      s.delaying = true ∧ s.waited < s.dly) := by decide

theorem witness_BusPhasesLeaveTheFrameAlone :
    (∃ t, exec .gate gating = .next t) ∧ (∃ t, exec .dirOut (running [] 8#4) = .next t) ∧
      (∃ t, exec .send sending = .next t) ∧ (∃ t, exec .settle settling = .next t) ∧
      ∃ t, exec .dirIn (running [] 11#4) = .next t :=
  ⟨⟨_, rfl⟩, ⟨_, rfl⟩, ⟨_, rfl⟩, ⟨_, rfl⟩, _, rfl⟩

/-- The command's start, and its second byte. -/
theorem witness_CommandAddsTheEventsOfR183 :
    (stamping.Inv ∧ stamping.busy = true ∧ stamping.schedule.head? ≠ some .reset ∧ stamping.CommandTrace [] ∧
      ∃ t, step stamping = .next t) ∧
    (sending.Inv ∧ sending.busy = true ∧ sending.schedule.head? ≠ some .reset ∧ sending.CommandTrace [] ∧
      ∃ t, step sending = .next t) := by
  refine ⟨⟨witness_stamping_inv, by decide, by decide, ?_, _, rfl⟩,
    ⟨witness_sending_inv, by decide, by decide, ?_, _, rfl⟩⟩
  · exact ⟨fun _ _ => rfl, fun h => absurd h (by decide), fun h => absurd h (by decide),
      fun h => absurd h (by decide), fun h => absurd h (by decide)⟩
  · refine ⟨fun _ h => absurd h (by decide), fun _ => ⟨_, rfl, 1176, [Event.tx 1176 0 0xCC#8], rfl, rfl, fun k hk => ?_⟩,
      fun h => absurd h (by decide), fun h => absurd h (by decide), fun h => absurd h (by decide)⟩
    have hk : k < 1 := hk
    obtain rfl : k = 0 := by omega
    exact ⟨1176, 0xCC#8, rfl, rfl⟩

theorem witness_TraceStampsNeverDecrease :
    sending.TraceInTime ∧ sending.now + 1 < 2 ^ sending.cfg.timeWidth ∧ ∃ t, step sending = .next t :=
  ⟨by unfold State.TraceInTime; decide, by decide, _, rfl⟩

theorem witness_StartedCommandCanReturn :
    stamping.Inv ∧ stamping.seq = 1#4 ∧ stamping.cfg.supports stamping.cmdRtype = true ∧ stamping.written stamping.cfg.minSize ∧
      Memory.read stamping.fb stamping.cfg.offMl = some 24#8 ∧
      (stamping.cmdRtype = stamping.cfg.rtAck → stamping.written (24#8 : Byte).toNat) :=
  ⟨witness_stamping_inv, by decide, by decide, written_of (by decide), by decide, fun _ => written_of (by decide)⟩

/-- A world in which the sequencer, the clock and the serialiser take turns. -/
def takingTurns (n : Nat) : Move :=
  match n % 4 with
  | 0 => .sequencer
  | 1 => .txReady true
  | 2 => .txIdle true
  | _ => .tick

theorem takingTurns_fair : Fair Config.defaults takingTurns := by
  have turn : ∀ r < 4, ∀ k, ∃ n, k ≤ n ∧ n % 4 = r := fun r hr k => ⟨4 * k + r, by omega, by omega⟩
  refine ⟨fun k => ?_, fun k => ?_, fun k => ?_, fun k => ?_, fun n => ?_, fun n => ?_⟩
  · obtain ⟨n, h1, h2⟩ := turn 3 (by omega) k
    exact ⟨n, h1, by simp [takingTurns, h2]⟩
  · obtain ⟨n, h1, h2⟩ := turn 1 (by omega) k
    exact ⟨n, h1, by simp [takingTurns, h2]⟩
  · obtain ⟨n, h1, h2⟩ := turn 2 (by omega) k
    exact ⟨n, h1, by simp [takingTurns, h2]⟩
  · refine ⟨4 - k % 4, by simp [takingTurns, show (k + (4 - k % 4)) % 4 = 0 by omega], ?_⟩
    have h : ticksAmong takingTurns k (4 - k % 4) ≤ 4 - k % 4 :=
      (List.length_filter_le _ _).trans (by rw [List.length_range])
    have : ticksAmong takingTurns k (4 - k % 4) ≤ 4 := by omega
    simp only [Config.defaults]
    omega
  · unfold takingTurns; split <;> simp
  · unfold takingTurns; split <;> rfl

/-- A command of a supported type, and one of another. -/
theorem witness_FairCommandReturns :
    stamping.Inv ∧ stamping.seq = 1#4 ∧ Fair stamping.cfg takingTurns ∧
      (stamping.cfg.supports stamping.cmdRtype = true ∧ stamping.written stamping.cfg.minSize ∧
        ∃ n : Byte, Memory.read stamping.fb stamping.cfg.offMl = some n ∧
          (stamping.cmdRtype = stamping.cfg.rtAck → stamping.written n.toNat)) ∧
      ({ stamping with cmdRtype := 0xFF#8 } : State).cfg.supports 0xFF#8 = false :=
  ⟨witness_stamping_inv, rfl, takingTurns_fair,
    ⟨by decide, written_of (by decide), 24#8, by decide, fun _ => written_of (by decide)⟩, by decide⟩

/-- A write by name, one by index, a read, and the inputs; the last two with nothing to see. -/
theorem witness_HostIsLockedOutWhileBusy :
    stamping.busy = true ∧ stamping.cfg.valid = true ∧ stamping.txValid = false ∧ stamping.txActive = false ∧
      ∀ m ∈ [Move.host (.wrFb 2 0xFF#8), .regWrite 3 255, .regRead 1, .pendingCount 9#8, .txReady false, .txIdle false],
        (after (step { stamping with schedule := [m] })).isSome = true := by decide

/-- The last offset of FB, and the largest time stamp. -/
theorem witness_HostWritesWhileIdle :
    State.reset.busy = false ∧ 256 < State.reset.cfg.fbSize ∧ 2 ^ 64 - 1 < 2 ^ State.reset.cfg.timeWidth ∧
      ∀ a ∈ [HostAccess.wrFb 256 0#8, .wrUid vectorUid, .wrRxEnd (2 ^ 64 - 1), .rxEndCap, .setCnt 255#8],
        ({ State.reset with schedule := [.host a] } : State).schedule = .host a :: [] := by decide

/-- The largest value of each index. -/
theorem witness_IndexedWritesFollowTheRegisterTable :
    State.reset.cfg.valid = true ∧ State.reset.busy = false ∧ 2 ^ 64 - 1 < 2 ^ State.reset.cfg.timeWidth ∧
      ∀ m ∈ [Move.regWrite 2 (2 ^ 48 - 1), .regWrite 3 255, .regWrite 4 (2 ^ 64 - 1), .regWrite 7 0, .regWrite 1 0,
        .regWrite 5 0, .regWrite 6 0, .host (.forbiddenWrite 5)],
        ({ State.reset with schedule := [m] } : State).schedule = m :: [] := by decide

theorem witness_HostReadsAnswerTheRegister :
    (let s : State := { loaded frameV1 3#8 with schedule := [.host (.rdFb 23)] };
      s.schedule = .host (.rdFb 23) :: [] ∧ s.busy = false ∧ 23 < s.cfg.fbSize ∧ Memory.read s.fb 23 = some 0x00#8) ∧
    ∀ m ∈ [Move.regRead 1, .regRead 2, .regRead 3, .regRead 4, .regRead 5, .regRead 6, .host .rdStatus, .host .rdUid,
      .host .rdCnt, .host .rdRxEnd, .host .rdNow, .host .rdDirstat],
      ({ State.reset with schedule := [m] } : State).schedule = m :: [] := by decide

/-- A byte of a running command's frame, and a byte that nothing has written. -/
theorem witness_UnspecifiedReadsAnswerSomeValue :
    stamping.busy = true ∧ 256 < stamping.cfg.fbSize ∧ Memory.read State.reset.fb 0 = none ∧
      ∀ m ∈ [Move.regRead 0, .regRead 7, .host (.forbiddenRead 0), .host (.rdFb 256)],
        ({ State.reset with schedule := [m] } : State).schedule = m :: [] := by decide

theorem witness_HostAccessesNeverFault :
    257 = State.reset.cfg.fbSize ∧
    ∀ m ∈ [Move.host (.rdFb 256), .host (.rdFb 257), .host (.forbiddenRead 7), .host (.forbiddenWrite 8), .regWrite 7 0,
      .regRead 8],
      ({ State.reset with schedule := [m] } : State).schedule = m :: [] := by decide

/-- The last two bytes of FB, and then a START. -/
theorem witness_LoadedFrameIsSeenByTheCommand :
    let s : State := { State.reset with
      schedule := [.host (.wrFb 255 0xFC#8), .host (.wrFb 256 0x03#8), .host (.start 0#24), .sequencer] };
    s.busy = false ∧ 255 + [0xFC#8, 0x03#8].length ≤ s.cfg.fbSize ∧
      s.schedule = (List.range [0xFC#8, 0x03#8].length).map
        (fun k => Move.host (.wrFb (255 + k) ([0xFC#8, 0x03#8].getD k 0#8))) ++ .host (.start 0#24) :: .sequencer :: [] := by
  decide

end Sys2Proof.Tests
end

section
/-! The CMD format by match and mask (R96): the mask of a row keeps RTYPE and clears VALUE, so a word matches a row just
when its RTYPE is the row's code. -/

namespace Sys2Proof

/-- The mask is the word with RTYPE all ones and VALUE zero, so masking acts on the two fields. -/
theorem and_rtypeMask (w : CmdWord) : w &&& 0xFF0000#24 = cmdWordOf (cmdRtypeField w) 0#16 :=
  calc w &&& 0xFF0000#24
    _ = cmdWordOf (cmdRtypeField w) (cmdValueField w) &&& cmdWordOf (BitVec.allOnes 8) 0#16 := by
      rw [cmdWordOf_fields]; rfl
    _ = cmdWordOf (cmdRtypeField w &&& BitVec.allOnes 8) (cmdValueField w &&& 0#16) := BitVec.and_append
    _ = cmdWordOf (cmdRtypeField w) 0#16 := by rw [BitVec.and_allOnes, BitVec.and_zero]

theorem cmdWordOf_inj_left {r r' : Byte} {v : Word16} : cmdWordOf r v = cmdWordOf r' v ↔ r = r' :=
  ⟨fun h => by simpa using congrArg cmdRtypeField h, fun h => by rw [h]⟩

/-- A word matches the row of a response type under the mask of R96 just when that is its RTYPE. -/
theorem and_rtypeMask_eq_iff (w : CmdWord) (r : Byte) :
    w &&& 0xFF0000#24 = cmdWordOf r 0#16 ↔ cmdRtypeField w = r := by
  rw [and_rtypeMask, cmdWordOf_inj_left]

theorem cmdValueField_eq_setWidth (w : CmdWord) : cmdValueField w = w.setWidth 16 :=
  (BitVec.setWidth_eq_extractLsb' (by decide)).symm

theorem cmdRtypeField_eq_setWidth (w : CmdWord) : cmdRtypeField w = (w >>> 16).setWidth 8 := by
  apply BitVec.eq_of_toNat_eq
  simp [cmdRtypeField]

section
variable {c : Config} {w : CmdWord}

/-! What a command word decodes to, by its RTYPE: one equation for each row, under any consistent parameters. -/

theorem decodeCmd_of_ack (h : cmdRtypeField w = c.rtAck) : decodeCmd c w = .respondAck (cmdValueField w) :=
  if_pos h

theorem decodeCmd_of_ackTimer (hc : c.valid = true) (h : cmdRtypeField w = c.rtAckTimer) :
    decodeCmd c w = .respondAckTimer (cmdValueField w) := by
  obtain ⟨hat, -, -⟩ := Config.types_of_valid hc
  rw [decodeCmd, if_neg (h ▸ hat.symm), if_pos h]

theorem decodeCmd_of_nackReason (hc : c.valid = true) (h : cmdRtypeField w = c.rtNackReason) :
    decodeCmd c w = .respondNack (cmdValueField w) := by
  obtain ⟨-, han, htn⟩ := Config.types_of_valid hc
  rw [decodeCmd, if_neg (h ▸ han.symm), if_neg (h ▸ htn.symm), if_pos h]

theorem decodeCmd_of_other (ha : cmdRtypeField w ≠ c.rtAck) (ht : cmdRtypeField w ≠ c.rtAckTimer)
    (hn : cmdRtypeField w ≠ c.rtNackReason) : decodeCmd c w = .respondRaw (cmdRtypeField w) (cmdValueField w) := by
  rw [decodeCmd, if_neg ha, if_neg ht, if_neg hn]

end

/-- Settles O3: the mask turns each row's match into an equation about RTYPE, the row that `decodeCmd` takes. -/
theorem commandWordsFollowTheRowsOfTheTable : Obligations.CommandWordsFollowTheRowsOfTheTable := by
  intro w
  have hc : Config.defaults.valid = true := by decide
  have ha : w &&& 0xFF0000#24 = 0x000000#24 ↔ cmdRtypeField w = Config.defaults.rtAck :=
    and_rtypeMask_eq_iff w 0x00#8
  have ht : w &&& 0xFF0000#24 = 0x010000#24 ↔ cmdRtypeField w = Config.defaults.rtAckTimer :=
    and_rtypeMask_eq_iff w 0x01#8
  have hn : w &&& 0xFF0000#24 = 0x020000#24 ↔ cmdRtypeField w = Config.defaults.rtNackReason :=
    and_rtypeMask_eq_iff w 0x02#8
  simp only [decode, Decoded.ok.injEq, ← cmdValueField_eq_setWidth, ← cmdRtypeField_eq_setWidth, ne_eq, ha, ht, hn]
  exact ⟨decodeCmd_of_ack, decodeCmd_of_ackTimer hc, decodeCmd_of_nackReason hc, decodeCmd_of_other⟩

end Sys2Proof
end

section
/-! The response commands (40_response_commands.md): how IDLE ends (R120), and the silent abort of an unsupported
response type (R125). -/

namespace Sys2Proof

/-- The types the block does not support are those that are none of the three codes (R94). -/
theorem Config.supports_eq_false_iff {c : Config} {rtype : Byte} :
    c.supports rtype = false ↔ rtype ≠ c.rtAck ∧ rtype ≠ c.rtAckTimer ∧ rtype ≠ c.rtNackReason := by
  simp [Config.supports, and_assoc]

end Sys2Proof

namespace Sys2Proof.Machine

/-! What the other agents leave of SEQ. -/

theorem HostEffect.seq_eq {s t : State} (h : HostEffect s t) : t.seq = s.seq := by
  cases h <;> rfl

theorem driveReady_seq {s t : State} {level : Bool} (h : driveReady s level = .next t) : t.seq = s.seq := by
  rcases driveReady_next h with ⟨-, -, -, u, hu, rfl⟩ | ⟨-, rfl⟩
  · obtain ⟨b, -, hframe⟩ := handOver_frame hu
    rw [hframe]
  · rfl

/-- Outside a transmission there is no report to see (R45). -/
theorem State.seeReport_of_inactive {s : State} (ha : s.txActive = false) : State.seeReport s = s :=
  if_neg fun hc => by simp [ha] at hc

theorem State.driveIdle_seq_of_inactive {s : State} (ha : s.txActive = false) (level : Bool) :
    (State.driveIdle s level).seq = s.seq := by
  unfold State.driveIdle
  rw [State.seeReport_of_inactive ha, ite_self]

/-- A tick moves SEQ only by the report that ends a transmission. -/
theorem countTick_seq_of_inactive {s t : State} (ha : s.txActive = false) (h : countTick s = .next t) :
    t.seq = s.seq := by
  rcases countTick_next h with ⟨-, -, u, hu, rfl⟩ | ⟨hactive, -⟩ | ⟨-, -, rfl⟩
  · obtain ⟨b, -, hframe⟩ := handOver_frame hu
    rw [hframe]
  · simp [ha] at hactive
  · rfl

/-! IDLE. -/

theorem State.Inv.not_busy_of_idle {s : State} (hinv : s.Inv) (hidle : s.seq = 0#4) : s.busy = false := by
  rw [← Bool.not_eq_true, hinv.busyIff]
  exact not_not.2 hidle

theorem State.Inv.not_txActive_of_idle {s : State} (hinv : s.Inv) (hidle : s.seq = 0#4) : s.txActive = false := by
  rw [← Bool.not_eq_true]
  intro hactive
  have hsend := hinv.txActiveSend hactive
  rw [hidle] at hsend
  exact absurd hsend (by decide)

/-- A write to CMD that comes while the block is idle: the word's two fields latched, and the start (R201). -/
theorem State.startCommand_word {s : State} (w : CmdWord) (h : s.busy = false) :
    State.startCommand s (cmdRtypeField w) (cmdValueField w) =
      { s with cmdRtype := (w >>> 16).setWidth 8, cmdValue := w.setWidth 16, status := 0b0001#4, seq := 1#4 } := by
  rw [State.startCommand_idle s _ _ h, cmdRtypeField_eq_setWidth, cmdValueField_eq_setWidth]
  rfl

theorem State.schedule_eq_cons_tail {s : State} {m : Move} (h : s.schedule.head? = some m) :
    s.schedule = m :: s.taken.schedule :=
  List.eq_cons_of_mem_head? h

/-- Settles O21: of all a step can be, in IDLE only a START moves SEQ, since nothing is being transmitted. -/
theorem idleEndsOnlyByAWriteToCmd : Obligations.IdleEndsOnlyByAWriteToCmd := by
  refine ⟨fun s => rfl, fun s t hinv hidle hstep hleft => ?_⟩
  have hinactive : s.taken.txActive = false := hinv.not_txActive_of_idle hidle
  have stays : t.seq ≠ s.taken.seq := fun h => hleft (h.trans hidle)
  cases step_effect hstep with
  | phase _ i hd hx =>
    rw [hidle] at hd
    obtain rfl : Instr.idle = i := Decoded.ok.inj hd
    exact absurd (congrArg State.seq (Host.Outcome.next.inj hx)).symm stays
  | start w hm hx =>
    refine ⟨w, s.taken.schedule, ?_, ?_⟩
    · rcases hm with hm | ⟨v, hm, hw⟩
      · exact .inl (State.schedule_eq_cons_tail hm)
      · exact .inr ⟨v, State.schedule_eq_cons_tail hm, hw⟩
    · rw [hx, State.startCommand_word w (s := s.taken) (hinv.not_busy_of_idle hidle)]
      rfl
  | host _ _ hx => exact absurd hx.seq_eq stays
  | tick _ hx => exact absurd (countTick_seq_of_inactive hinactive hx) stays
  | pendingCount c _ hx => exact absurd (by rw [hx]) stays
  | txReady level _ hx => exact absurd (driveReady_seq hx) stays
  | txIdle level _ hx =>
    exact absurd (by rw [hx, State.driveIdle_seq_of_inactive hinactive]) stays
  | reset _ hx => exact absurd (by rw [hx]; exact hidle.symm) stays

/-! The silent abort. -/

theorem execAll_cons_next {i : Instr} {s t : State} (h : exec i s = .next t) (rest : List Instr) :
    execAll (i :: rest) s = execAll rest t := by
  rw [execAll, h]

/-- The abort of a command that has just started: DONE and ABORTED (R30). -/
theorem statusAborted_statusStarted : statusAborted statusStarted = 0b1010#4 := by decide

theorem exec_respondRaw_of_idle {s : State} (rtype : Byte) (value : Word16) (h : s.busy = false) :
    exec (.respondRaw rtype value) s =
      .next { s with cmdRtype := rtype, cmdValue := value, status := statusStarted, seq := 1#4 } :=
  congrArg Host.Outcome.next (State.startCommand_idle s rtype value h)

theorem exec_stamp (s : State) :
    exec .stamp s = .next { s with fb := Memory.write s.fb s.cfg.offMc s.pendingCount, seq := 2#4 } := rfl

theorem exec_dispatch_unsupported {s : State} (h : s.cfg.supports s.cmdRtype = false) :
    exec .dispatch s = .next { s with status := statusAborted s.status, seq := 0#4 } := by
  obtain ⟨hack, htimer, hnack⟩ := Config.supports_eq_false_iff.1 h
  change execDispatch s = _
  rw [execDispatch, if_neg hack, if_neg (not_or.2 ⟨htimer, hnack⟩)]
  rfl

/-- `Respond` stamps the count and sends nothing (R126). -/
theorem respond_unsupported {c : Config} {rtype : Byte} (h : c.supports rtype = false) (fb : Memory) (v : Word16)
    (u : Uid) (count : Byte) : respond c fb rtype v u count = .ok (Memory.write fb c.offMc count, none) := by
  obtain ⟨hack, htimer, hnack⟩ := Config.supports_eq_false_iff.1 h
  rw [respond, if_neg hack, if_neg (not_or.2 ⟨htimer, hnack⟩)]

/-- Settles O30: START, the stamp of the count and the abort, each by its own rule, and `Respond` beside them. -/
theorem unknownTypeIsTheSilentAbort : Obligations.UnknownTypeIsTheSilentAbort := by
  intro s rtype value hbusy hunsupported
  refine ⟨Memory.write s.fb s.cfg.offMc s.pendingCount, ?_, respond_unsupported hunsupported _ _ _ _,
    Memory.read_write _ _ _⟩
  rw [execAll_cons_next (exec_respondRaw_of_idle rtype value hbusy), execAll_cons_next (exec_stamp _),
    execAll_cons_next (exec_dispatch_unsupported hunsupported), execAll, statusAborted_statusStarted]

end Sys2Proof.Machine
end

section
/-! The frame encoder (41_frame_encoder.md): what its phases answer where every byte they read has been written. -/

namespace Sys2Proof.Machine

/-- The end of DISPATCH where the length byte has been written (R142). -/
theorem latchLength_of_read {s : State} {n : Byte} (h : Memory.read s.fb s.cfg.offMl = some n) :
    latchLength s = .next { s with len := n, seq := 3#4 } := by
  rw [latchLength, Memory.load_of_read h]
  rfl

/-- DISPATCH on the ACK path: RT_ACK stands at OFF_RT, which is not the length byte's place. -/
theorem exec_dispatch_ack {s : State} {n : Byte} (hc : s.cfg.valid = true) (hack : s.cmdRtype = s.cfg.rtAck)
    (hn : Memory.read s.fb s.cfg.offMl = some n) :
    exec .dispatch s = .next { s with fb := Memory.write s.fb s.cfg.offRt s.cfg.rtAck, len := n, seq := 3#4 } := by
  have hne : s.cfg.offMl ≠ s.cfg.offRt := by
    have := Config.layout_of_valid hc
    omega
  have hkept : Memory.read (Memory.write s.fb s.cfg.offRt s.cfg.rtAck) s.cfg.offMl = some n := by
    rw [Memory.read_write, if_neg hne, hn]
  change execDispatch s = _
  rw [execDispatch, if_pos hack]
  exact latchLength_of_read hkept

/-- DISPATCH on the two paths with a value: LEN is the length byte that the phase itself stores. -/
theorem exec_dispatch_value {s : State} (hc : s.cfg.valid = true)
    (htype : s.cmdRtype = s.cfg.rtAckTimer ∨ s.cmdRtype = s.cfg.rtNackReason) :
    exec .dispatch s =
      .next { s with fb := Memory.storeValueResponse s.cfg s.fb s.cmdRtype s.cmdValue, len := s.cfg.valueLength,
                     seq := 3#4 } := by
  obtain ⟨hat, han, -⟩ := Config.types_of_valid hc
  have hnack : s.cmdRtype ≠ s.cfg.rtAck := by
    rcases htype with h | h
    · exact h ▸ hat.symm
    · exact h ▸ han.symm
  change execDispatch s = _
  rw [execDispatch, if_neg hnack, if_pos htype]
  exact latchLength_of_read (Memory.read_storeValueResponse_length hc _ _ _)

/-- The stores of DISPATCH with a value land on five different offsets, so their order does not matter: they read in
the order of the frame. -/
theorem Memory.read_storeValueResponse_of_valid {c : Config} (hc : c.valid = true) (m : Memory) (rtype : Byte)
    (value : Word16) (x : Nat) :
    Memory.read (Memory.storeValueResponse c m rtype value) x =
      if x = c.offMl then some c.valueLength else if x = c.offRt then some rtype
      else if x = c.offPdl then some 2#8 else if x = c.offPd then some (hi8 value)
      else if x = c.offPd + 1 then some (lo8 value) else Memory.read m x := by
  have horder : c.offMl < c.offRt ∧ c.offRt < c.minSize - 1 ∧ c.minSize - 1 < c.minSize := by
    have := Config.layout_of_valid hc
    omega
  rw [Memory.read_storeValueResponse, Config.offPdl, Config.offPd]
  by_cases hml : x = c.offMl
  · rw [if_neg (by omega), if_neg (by omega), if_neg (by omega), if_neg (by omega),
      if_pos hml, if_pos hml]
  rw [if_neg hml, if_neg hml]
  by_cases hrt : x = c.offRt
  · rw [if_neg (by omega), if_neg (by omega), if_neg (by omega), if_pos hrt, if_pos hrt]
  rw [if_neg hrt, if_neg hrt]
  by_cases hpdl : x = c.minSize - 1
  · rw [if_neg (by omega), if_neg (by omega), if_pos hpdl, if_pos hpdl]
  rw [if_neg hpdl, if_neg hpdl]
  by_cases hpd : x = c.minSize
  · rw [if_neg (by omega), if_pos hpd, if_pos hpd]
  · rw [if_neg hpd, if_neg hpd]

/-- Settles O23: each path's own equation; the frame follows from what a write leaves. -/
theorem dispatchFollowsTheResponseType : Obligations.DispatchFollowsTheResponseType := by
  intro s hc
  refine ⟨fun n hack hn => ?_, fun htype => ?_, fun hack htimer hnack => ?_⟩
  · exact ⟨_, exec_dispatch_ack hc hack hn, Memory.read_write _ _ _⟩
  · exact ⟨_, exec_dispatch_value hc htype, Memory.read_storeValueResponse_of_valid hc _ _ _⟩
  · obtain ⟨hbusy, hdone, hsent, haborted⟩ := statusAborted_flags s.status
    exact ⟨_, exec_dispatch_unsupported (Config.supports_eq_false_iff.2 ⟨hack, htimer, hnack⟩), haborted, hdone,
      hbusy, hsent⟩

theorem exec_swap_of_swapUid {s : State} {m : Memory} (h : Memory.swapUid s.cfg s.ownUid 6 0 s.fb = .ok m) :
    exec .swap s = .next { s with fb := m, seq := 4#4 } := by
  change execSwap s = _
  rw [execSwap, h]
  rfl

/-- Settles O24: the loop's six turns together, under the layout that keeps the two UID fields apart. -/
theorem swapTakesTheOldSourceAndTheOwnUid : Obligations.SwapTakesTheOldSourceAndTheOwnUid := by
  intro s hc hsrc
  have hl : s.cfg.offDst + 6 ≤ s.cfg.offSrc := by
    have := Config.layout_of_valid hc
    omega
  obtain ⟨m, hm⟩ := Memory.swapUid_ok_of_read hl s.ownUid 6 0 s.fb (by decide) hsrc
  have hread := Memory.read_swapUid hl s.ownUid 6 0 s.fb m (by decide) hm
  simp only [Nat.add_zero] at hread
  refine ⟨m, exec_swap_of_swapUid hm, fun i hi => ⟨?_, ?_⟩, fun a ha => ?_⟩
  · rw [hread, if_pos (by omega), Nat.add_sub_cancel_left]
  · rw [hread, if_neg (by omega), if_pos (by omega), Nat.add_sub_cancel_left]
  · have hdst : ¬ (s.cfg.offDst ≤ a ∧ a < s.cfg.offDst + 6) := fun h =>
      (ha (a - s.cfg.offDst) (by omega)).1 (by omega)
    have hown : ¬ (s.cfg.offSrc ≤ a ∧ a < s.cfg.offSrc + 6) := fun h =>
      (ha (a - s.cfg.offSrc) (by omega)).2 (by omega)
    rw [hread, if_neg hdst, if_neg hown]

/-- APPEND is a big-endian store at LEN: the 9-bit offset LEN + 1 does not wrap (R147). -/
theorem exec_append (s : State) :
    exec .append s = .next { s with fb := Memory.write16be s.fb s.len.toNat s.csum, seq := 7#4 } :=
  congrArg Host.Outcome.next (execAppend_next (s := s) rfl)

/-- Settles O27: the two bytes stand at different offsets, so the high byte survives the store of the low one. -/
theorem appendStoresTheChecksum : Obligations.AppendStoresTheChecksum := by
  intro s
  refine ⟨_, exec_append s, fun a => ?_⟩
  rw [Memory.read_write16be]
  by_cases hhigh : a = s.len.toNat
  · rw [if_neg (by omega), if_pos hhigh, if_pos hhigh]
  · rw [if_neg hhigh, if_neg hhigh]

/-- Settles O22: STAMP is one store into the frame. -/
theorem stampWritesThePendingCount : Obligations.StampWritesThePendingCount :=
  fun s => ⟨_, exec_stamp s, Memory.read_write _ _ _⟩

theorem exec_classAdvance_of_read {s : State} {b : Byte} (h : Memory.read s.fb s.cfg.offCc = some b) :
    exec .classAdvance s = .next { s with fb := Memory.write s.fb s.cfg.offCc (b + 1#8), seq := 5#4 } := by
  change execClass s = _
  rw [execClass, Memory.load_of_read h]
  rfl

/-- Settles O25: CLASS is one load and one store at the same offset. -/
theorem classAdvancesByOne : Obligations.ClassAdvancesByOne :=
  fun _ _ hb => ⟨_, exec_classAdvance_of_read hb, Memory.read_write _ _ _⟩

end Sys2Proof.Machine
end

section
/-! A host access as the machine answers it: what one step is when the host moves, by name or by register index (R40,
R200), and what each access answers (R201 to R210). -/

namespace Sys2Proof.Machine

/-! Whose move it is. -/

theorem step_of_moved {s : State} {m : Move} {rest : List Move} {r : Result} (hs : s.schedule = m :: rest)
    (hm : fetchMove m { s with schedule := rest } = .moved r) : step s = r := by
  rw [step, fetch, hs]
  simp only [hm]

theorem step_of_run {s t : State} {m : Move} {rest : List Move} {i : Instr} (hs : s.schedule = m :: rest)
    (hm : fetchMove m { s with schedule := rest } = .run i t) : step s = exec i t := by
  rw [step, fetch, hs]
  simp only [hm]

/-- What the machine answers to a host access: the meaning of the command word it brings (R201), or the access's own
answer. -/
def HostAccess.perform (a : HostAccess) (s : State) : Result :=
  match hostAccess a s with
  | .run i t => exec i t
  | .moved r => r

/-- The next move is the host's access `a`, made by name or through the register index that means it (R40). -/
def State.NextAccess (s : State) (a : HostAccess) (rest : List Move) : Prop :=
  s.schedule = .host a :: rest ∨
    (∃ i v, s.schedule = .regWrite i v :: rest ∧ a = HostAccess.ofWrite s.cfg i v) ∨
    (∃ i, s.schedule = .regRead i :: rest ∧ a = HostAccess.ofRead i)

theorem State.NextAccess.step_eq {s : State} {a : HostAccess} {rest : List Move} (h : s.NextAccess a rest) :
    step s = a.perform { s with schedule := rest } := by
  rcases h with hs | ⟨i, v, hs, rfl⟩ | ⟨i, hs, rfl⟩ <;> rw [step, fetch, hs] <;> rfl

theorem State.nextAccess_of_read {s : State} {rest : List Move} {i : Nat}
    (h : s.schedule = .regRead i :: rest ∨ s.schedule = .host (HostAccess.ofRead i) :: rest) :
    s.NextAccess (HostAccess.ofRead i) rest :=
  h.elim (fun hs => .inr (.inr ⟨i, hs, rfl⟩)) .inl

theorem State.nextAccess_of_regWrite {s : State} {rest : List Move} {i v : Nat}
    (h : s.schedule = .regWrite i v :: rest) : s.NextAccess (HostAccess.ofWrite s.cfg i v) rest :=
  .inr (.inl ⟨i, v, h, rfl⟩)

/-! Writes. -/

theorem State.idleWrite_of_idle {s : State} (hb : s.busy = false) (t : State) : State.idleWrite s t = t :=
  if_neg (by simp [hb])

theorem State.idleWrite_of_busy {s : State} (hb : s.busy = true) (t : State) : State.idleWrite s t = s :=
  if_pos hb

theorem State.readFbByte_of_read {s : State} {off : Nat} {b : Byte} (hb : s.busy = false)
    (hr : Memory.read s.fb off = some b) : State.readFbByte s off = State.answer s (.fb off b) := by
  simp [State.readFbByte, hb, hr]

/-- RD_FB has no specified result while BUSY = 1, and none for a byte that nothing has written (R203). -/
theorem State.readFbByte_unspecified {s : State} {off : Nat} (h : s.busy = true ∨ Memory.read s.fb off = none) :
    State.readFbByte s off = State.answerFreeByte s off := by
  rcases h with hb | hr
  · exact if_pos hb
  · simp [State.readFbByte, hr]

/-- With COUNT_WIDTH = 8 a value written to PENDING_COUNT keeps its low byte (R32). -/
theorem countOf_of_valid {c : Config} (hc : c.valid = true) (v : Nat) : countOf c v = BitVec.ofNat 8 v := by
  rw [countOf, Config.countWidth_of_valid hc]
  exact BitVec.eq_of_toNat_eq (by simp)

namespace HostAccess

theorem perform_start (w : CmdWord) (s : State) :
    perform (.start w) s = .next (State.startCommand s (cmdRtypeField w) (cmdValueField w)) :=
  exec_decodeCmd s w

theorem perform_start_of_idle {s : State} {w : CmdWord} (hb : s.busy = false) :
    perform (.start w) s = .next { s with cmdRtype := (w >>> 16).setWidth 8, cmdValue := w.setWidth 16,
                                          status := 0b0001#4, seq := 1#4 } := by
  rw [perform_start, State.startCommand_word w hb]

theorem perform_wrFb {s : State} {off : Nat} {b : Byte} (ho : off < s.cfg.fbSize) :
    perform (.wrFb off b) s = .next (State.idleWrite s (State.storeFb s off b)) :=
  if_pos ho

theorem perform_wrFb_outside {s : State} {off : Nat} {b : Byte} (ho : s.cfg.fbSize ≤ off) :
    perform (.wrFb off b) s = .refused (.noSuchFbOffset off) :=
  if_neg (Nat.not_lt.2 ho)

theorem perform_wrFb_of_idle {s : State} {off : Nat} {b : Byte} (hb : s.busy = false) (ho : off < s.cfg.fbSize) :
    perform (.wrFb off b) s = .next { s with fb := Memory.write s.fb off b } := by
  rw [perform_wrFb ho, State.idleWrite_of_idle hb]
  rfl

theorem perform_wrUid (u : Uid) (s : State) :
    perform (.wrUid u) s = .next (State.idleWrite s { s with ownUid := u }) := rfl

theorem perform_wrUid_of_idle {s : State} {u : Uid} (hb : s.busy = false) :
    perform (.wrUid u) s = .next { s with ownUid := u } := by
  rw [perform_wrUid, State.idleWrite_of_idle hb]

theorem perform_wrRxEnd (v : Nat) (s : State) :
    perform (.wrRxEnd v) s = .next (State.idleWrite s { s with rxEndTs := tickTrunc s.cfg.timeWidth v }) := rfl

theorem perform_wrRxEnd_of_idle {s : State} {v : Nat} (hb : s.busy = false) (hv : v < 2 ^ s.cfg.timeWidth) :
    perform (.wrRxEnd v) s = .next { s with rxEndTs := v } := by
  rw [perform_wrRxEnd, State.idleWrite_of_idle hb, tickTrunc, Nat.mod_eq_of_lt hv]

theorem perform_rxEndCap (s : State) :
    perform .rxEndCap s = .next (State.idleWrite s { s with rxEndTs := s.now }) := rfl

theorem perform_rxEndCap_of_idle {s : State} (hb : s.busy = false) :
    perform .rxEndCap s = .next { s with rxEndTs := s.now } := by
  rw [perform_rxEndCap, State.idleWrite_of_idle hb]

theorem perform_setCnt (c : Byte) (s : State) : perform (.setCnt c) s = .next { s with pendingCount := c } := rfl

theorem perform_forbiddenWrite {index : Nat} (hi : index < 8) (s : State) :
    perform (.forbiddenWrite index) s = .next s :=
  if_pos hi

theorem perform_forbiddenWrite_outside {index : Nat} (hi : 8 ≤ index) (s : State) :
    perform (.forbiddenWrite index) s = .refused (.noSuchRegister index) :=
  if_neg (Nat.not_lt.2 hi)

/-! Reads. -/

theorem perform_rdFb {s : State} {off : Nat} (ho : off < s.cfg.fbSize) :
    perform (.rdFb off) s = .next (State.readFbByte s off) :=
  if_pos ho

theorem perform_rdFb_of_read {s : State} {off : Nat} {b : Byte} (hb : s.busy = false) (ho : off < s.cfg.fbSize)
    (hr : Memory.read s.fb off = some b) : perform (.rdFb off) s = .next (State.answer s (.fb off b)) := by
  rw [perform_rdFb ho, State.readFbByte_of_read hb hr]

theorem perform_rdFb_unspecified {s : State} {off : Nat} (ho : off < s.cfg.fbSize)
    (h : s.busy = true ∨ Memory.read s.fb off = none) : perform (.rdFb off) s = .next (State.answerFreeByte s off) := by
  rw [perform_rdFb ho, State.readFbByte_unspecified h]

theorem perform_rdFb_outside {s : State} {off : Nat} (ho : s.cfg.fbSize ≤ off) :
    perform (.rdFb off) s = .refused (.noSuchFbOffset off) :=
  if_neg (Nat.not_lt.2 ho)

theorem perform_forbiddenRead {index : Nat} (hi : index < 8) (s : State) :
    perform (.forbiddenRead index) s = .next (State.answerFreeReg s index) :=
  if_pos hi

theorem perform_forbiddenRead_outside {index : Nat} (hi : 8 ≤ index) (s : State) :
    perform (.forbiddenRead index) s = .refused (.noSuchRegister index) :=
  if_neg (Nat.not_lt.2 hi)

/-! The register index table beyond its last row (R40). -/

theorem ofWrite_of_ge {i : Nat} (hi : 8 ≤ i) (c : Config) (v : Nat) : ofWrite c i v = .forbiddenWrite i := by
  obtain ⟨n, rfl⟩ := Nat.exists_eq_add_of_le' hi
  rfl

theorem ofRead_of_ge {i : Nat} (hi : 8 ≤ i) : ofRead i = .forbiddenRead i := by
  obtain ⟨n, rfl⟩ := Nat.exists_eq_add_of_le' hi
  rfl

end HostAccess

/-- DIRSTAT as a number: PULLUP is bit 1 and DIR is bit 0 (R40). -/
theorem State.dirstat_toNat (s : State) :
    s.dirstat.toNat = if s.pullup = true then (if s.dir = .output then 3 else 2)
      else (if s.dir = .output then 1 else 0) := by
  unfold State.dirstat
  cases s.pullup <;> cases s.dir <;> rfl

/-! Starting a command. -/

/-- Settles O20: every command word's meaning is START, which latches the word's two fields or drops it. -/
theorem writeToCmdStartsOrIsDropped : Obligations.WriteToCmdStartsOrIsDropped := by
  refine fun s w => ⟨fun hidle => ?_, fun hbusy => ?_⟩
  · rw [exec_decodeCmd, State.startCommand_word w hidle]
  · rw [exec_decodeCmd, State.startCommand_busy s _ _ hbusy]

/-- Settles O19: each of the four meanings is START with that command's type. -/
theorem commandsStartWhenIdle : Obligations.CommandsStartWhenIdle := by
  intro s rtype value hidle
  have start (r : Byte) := congrArg (Host.Outcome.next : State → Result) (State.startCommand_idle s r value hidle)
  exact ⟨start _, start _, start _, start _⟩

/-! The writes and the reads. -/

/-- Settles O54: an access that is not dropped is one assignment. -/
theorem hostWritesWhileIdle : Obligations.HostWritesWhileIdle := by
  intro s rest hidle
  have access {a : HostAccess} (hs : s.schedule = .host a :: rest) := State.NextAccess.step_eq (.inl hs)
  refine ⟨fun off b hs ho => ⟨_, ?_, Memory.read_write s.fb off b⟩, fun u hs => ?_, fun v hs hv => ?_, fun hs => ?_,
    fun c hs => ?_⟩
  · exact (access hs).trans (HostAccess.perform_wrFb_of_idle hidle ho)
  · exact (access hs).trans (HostAccess.perform_wrUid_of_idle hidle)
  · exact (access hs).trans (HostAccess.perform_wrRxEnd_of_idle hidle hv)
  · exact (access hs).trans (HostAccess.perform_rxEndCap_of_idle hidle)
  · exact (access hs).trans (HostAccess.perform_setCnt c _)

/-- Settles O55: each index stands for the access of its row. -/
theorem indexedWritesFollowTheRegisterTable : Obligations.IndexedWritesFollowTheRegisterTable := by
  intro s rest v hc
  have access {i : Nat} (hs : s.schedule = .regWrite i v :: rest) := (State.nextAccess_of_regWrite hs).step_eq
  refine ⟨fun hidle hs _ => ?_, fun hs _ => ?_, fun hidle hs hv => ?_, fun hidle hs => ?_, fun i hi hs => ?_⟩
  · exact (access hs).trans (HostAccess.perform_wrUid_of_idle hidle)
  · rw [← countOf_of_valid hc]
    exact (access hs).trans (HostAccess.perform_setCnt _ _)
  · exact (access hs).trans (HostAccess.perform_wrRxEnd_of_idle hidle hv)
  · exact (access hs).trans (HostAccess.perform_rxEndCap_of_idle hidle)
  · have hrow : HostAccess.ofWrite s.cfg i v = .forbiddenWrite i := by
      rcases hi with rfl | rfl | rfl <;> rfl
    have hnext : s.NextAccess (.forbiddenWrite i) rest :=
      hs.elim (fun h => hrow ▸ State.nextAccess_of_regWrite h) .inl
    exact hnext.step_eq.trans (HostAccess.perform_forbiddenWrite (by omega) _)

/-- Settles O56: by name or by index the access is the same, and its answer is the register. -/
theorem hostReadsAnswerTheRegister : Obligations.HostReadsAnswerTheRegister := by
  intro s rest
  have access (i : Nat) (h : s.schedule = .regRead i :: rest ∨ s.schedule = .host (HostAccess.ofRead i) :: rest) :=
    (State.nextAccess_of_read h).step_eq
  refine ⟨fun off b hs hidle ho hr => ?_, access 1, access 2, access 3, access 4, access 5, fun hs => ?_⟩
  · exact (State.NextAccess.step_eq (.inl hs)).trans (HostAccess.perform_rdFb_of_read hidle ho hr)
  · rw [← State.dirstat_toNat]
    exact access 6 hs

/-- Settles O57: such a read draws one free value. -/
theorem unspecifiedReadsAnswerSomeValue : Obligations.UnspecifiedReadsAnswerSomeValue := by
  refine fun s rest => ⟨fun off hs ho hun => ?_, fun i hi hs => ?_⟩
  · exact ⟨_, (State.NextAccess.step_eq (.inl hs)).trans (HostAccess.perform_rdFb_unspecified ho hun)⟩
  · have hrow : HostAccess.ofRead i = .forbiddenRead i := by
      rcases hi with rfl | rfl <;> rfl
    have hnext : s.NextAccess (.forbiddenRead i) rest :=
      hs.elim (fun h => hrow ▸ State.nextAccess_of_read (.inl h)) .inl
    exact ⟨_, hnext.step_eq.trans (HostAccess.perform_forbiddenRead (by omega) _)⟩

/-! Which accesses get no next state. -/

/-- The accesses that exist: an offset inside FB, an index of the register table. -/
def HostAccess.inRange (c : Config) : HostAccess → Prop
  | .wrFb off _ => off < c.fbSize
  | .rdFb off => off < c.fbSize
  | .forbiddenWrite index => index < 8
  | .forbiddenRead index => index < 8
  | _ => True

theorem HostAccess.perform_answers (a : HostAccess) (s : State) (h : a.inRange s.cfg) : ∃ t, a.perform s = .next t := by
  cases a with
  | start w => exact ⟨_, perform_start w s⟩
  | wrFb off b => exact ⟨_, perform_wrFb h⟩
  | rdFb off => exact ⟨_, perform_rdFb h⟩
  | forbiddenWrite index => exact ⟨_, perform_forbiddenWrite h s⟩
  | forbiddenRead index => exact ⟨_, perform_forbiddenRead h s⟩
  | _ => exact ⟨_, rfl⟩

theorem HostAccess.ofWrite_inRange {i : Nat} (hi : i < 8) (c : Config) (v : Nat) : (ofWrite c i v).inRange c := by
  unfold ofWrite
  split
  case h_6 => exact hi
  all_goals trivial

theorem HostAccess.ofRead_inRange {i : Nat} (hi : i < 8) (c : Config) : (ofRead i).inRange c := by
  unfold ofRead
  split
  case h_7 => exact hi
  all_goals trivial

/-- An access out of range is one of four, and each is refused by the name of what does not exist. -/
theorem HostAccess.perform_of_not_inRange {a : HostAccess} {s : State} (h : ¬ a.inRange s.cfg) :
    (∃ off, s.cfg.fbSize ≤ off ∧ a.perform s = .refused (.noSuchFbOffset off) ∧
      (a = .rdFb off ∨ ∃ b, a = .wrFb off b)) ∨
    (∃ index, 8 ≤ index ∧ a.perform s = .refused (.noSuchRegister index) ∧
      (a = .forbiddenRead index ∨ a = .forbiddenWrite index)) := by
  cases a with
  | wrFb off b =>
    have ho := Nat.not_lt.1 h
    exact .inl ⟨off, ho, perform_wrFb_outside ho, .inr ⟨b, rfl⟩⟩
  | rdFb off =>
    have ho := Nat.not_lt.1 h
    exact .inl ⟨off, ho, perform_rdFb_outside ho, .inl rfl⟩
  | forbiddenWrite index =>
    have hi := Nat.not_lt.1 h
    exact .inr ⟨index, hi, perform_forbiddenWrite_outside hi s, .inr rfl⟩
  | forbiddenRead index =>
    have hi := Nat.not_lt.1 h
    exact .inr ⟨index, hi, perform_forbiddenRead_outside hi s, .inl rfl⟩
  | _ => exact absurd trivial h

theorem HostAccess.inRange_of_perform {a : HostAccess} {s t : State} (h : a.perform s = .next t) : a.inRange s.cfg := by
  by_contra hout
  rcases perform_of_not_inRange hout with ⟨off, -, hr, -⟩ | ⟨index, -, hr, -⟩
  · cases hr.symm.trans h
  · cases hr.symm.trans h

/-- Settles O58: an access in range is answered, one out of range refused; the indices below 8 are those in range. -/
theorem hostAccessesNeverFault : Obligations.HostAccessesNeverFault := by
  refine ⟨fun s a rest hs => ?_, fun s rest i v hs => ?_, fun s rest off b ho hs => ?_⟩
  · rw [State.NextAccess.step_eq (.inl hs)]
    by_cases hin : a.inRange s.cfg
    · exact .inl (a.perform_answers _ hin)
    · exact .inr (HostAccess.perform_of_not_inRange (s := { s with schedule := rest }) hin)
  · split
    · next hi =>
      rcases hs with hs | hs
      · rw [(State.nextAccess_of_regWrite hs).step_eq]
        exact HostAccess.perform_answers _ _ (HostAccess.ofWrite_inRange hi _ v)
      · rw [(State.nextAccess_of_read (.inl hs)).step_eq]
        exact HostAccess.perform_answers _ _ (HostAccess.ofRead_inRange hi _)
    · next hi =>
      have hge := Nat.not_lt.1 hi
      rcases hs with hs | hs
      · rw [(State.nextAccess_of_regWrite hs).step_eq, HostAccess.ofWrite_of_ge hge]
        exact HostAccess.perform_forbiddenWrite_outside hge _
      · rw [(State.nextAccess_of_read (.inl hs)).step_eq, HostAccess.ofRead_of_ge hge]
        exact HostAccess.perform_forbiddenRead_outside hge _
  · rcases hs with hs | hs
    · exact (State.NextAccess.step_eq (.inl hs)).trans (HostAccess.perform_rdFb_outside ho)
    · exact (State.NextAccess.step_eq (.inl hs)).trans (HostAccess.perform_wrFb_outside ho)

/-! The host while a command runs (R210, R261). -/

/-- While BUSY = 1 an access that is not SETCNT leaves an answer at most. -/
theorem HostAccess.perform_of_busy {a : HostAccess} {s t : State} (hb : s.busy = true) (hne : ∀ c, a ≠ .setCnt c)
    (h : a.perform s = .next t) : t = { s with answers := t.answers, draws := t.draws } := by
  have hin := inRange_of_perform h
  have dropped {u : State} (hu : a.perform s = .next (State.idleWrite s u)) :
      t = { s with answers := t.answers, draws := t.draws } := by
    rw [hu, State.idleWrite_of_busy hb] at h
    cases h
    rfl
  cases a with
  | setCnt c => exact absurd rfl (hne c)
  | start w =>
    rw [perform_start, State.startCommand_busy s _ _ hb] at h
    cases h
    rfl
  | wrFb off b => exact dropped (perform_wrFb hin)
  | wrUid u => exact dropped (perform_wrUid u s)
  | wrRxEnd v => exact dropped (perform_wrRxEnd v s)
  | rxEndCap => exact dropped (perform_rxEndCap s)
  | rdFb off =>
    rw [perform_rdFb_unspecified hin (.inl hb)] at h
    cases h
    rfl
  | forbiddenWrite index =>
    rw [perform_forbiddenWrite hin] at h
    cases h
    rfl
  | forbiddenRead index =>
    rw [perform_forbiddenRead hin] at h
    cases h
    rfl
  | _ =>
    cases h
    rfl

/-- A level of `tx_ready` at which no byte is taken is driven, and nothing else happens (R178). -/
theorem driveReady_of_held {s : State} {level : Bool} (h : level = false → s.txValid = true → s.txReady = false) :
    driveReady s level = .next { s with txReady := level } := by
  cases level with
  | true => rfl
  | false =>
    rw [driveReady, if_neg Bool.false_ne_true, takeOffered_held (h rfl)]
    rfl

/-- A level of `tx_idle` at which no report is seen is driven, and nothing else happens (R45). -/
theorem State.driveIdle_of_unreported {s : State} {level : Bool}
    (h : level = false → s.txActive = true → s.txValid = false → s.len.toNat + 2 ≤ s.idx.toNat → s.txIdle = false) :
    State.driveIdle s level = { s with txIdle := level } := by
  cases level with
  | true => rfl
  | false =>
    rcases State.seeReport_cases s with ⟨hactive, hvalid, hidx, htxIdle, -⟩ | ⟨-, hsee⟩
    · simp [h rfl hactive hvalid hidx] at htxIdle
    · rw [State.driveIdle, if_neg Bool.false_ne_true, hsee]

/-- Settles O53: a host access is SETCNT or leaves an answer at most; the inputs by what each level brings about. -/
theorem hostIsLockedOutWhileBusy : Obligations.HostIsLockedOutWhileBusy := by
  intro s t rest hbusy hstep
  have answered {u : State} (h : step s = .next u) : t = u := Host.Outcome.next.inj (hstep.symm.trans h)
  refine ⟨fun a ha => ?_, fun v hs hc => ?_, fun c hs => ?_, fun level hs hheld => ?_, fun level hs hunreported => ?_⟩
  · have hnext : s.NextAccess a rest := ha
    by_cases hset : ∃ c, a = .setCnt c
    · obtain ⟨c, rfl⟩ := hset
      obtain rfl := answered (hnext.step_eq.trans (HostAccess.perform_setCnt c _))
      exact ⟨rfl, fun d hd => ⟨HostAccess.setCnt.inj hd, rfl, rfl⟩, fun hne => absurd rfl (hne c)⟩
    · have hne := not_exists.1 hset
      have ht := HostAccess.perform_of_busy (s := { s with schedule := rest }) hbusy hne
        (hnext.step_eq.symm.trans hstep)
      rw [ht]
      exact ⟨rfl, fun c hc => absurd hc (hne c), fun _ => rfl⟩
  · rw [← countOf_of_valid hc]
    exact answered ((State.nextAccess_of_regWrite hs).step_eq.trans (HostAccess.perform_setCnt _ _))
  · exact answered (step_of_moved hs rfl)
  · exact answered ((step_of_moved hs rfl).trans (driveReady_of_held hheld))
  · exact answered ((step_of_moved hs rfl).trans (congrArg _ (State.driveIdle_of_unreported hunreported)))

/-! Loading a frame (R69, R211). -/

/-- The host's accesses that write `bytes` from offset `off` on. -/
def loadMoves (off : Nat) (bytes : List Byte) : List Move :=
  (List.range bytes.length).map fun k => .host (.wrFb (off + k) (bytes.getD k 0#8))

theorem loadMoves_cons (off : Nat) (b : Byte) (bytes : List Byte) :
    loadMoves off (b :: bytes) = .host (.wrFb off b) :: loadMoves (off + 1) bytes := by
  simp [loadMoves, List.range_succ_eq_map, Function.comp_def, Nat.add_assoc, Nat.add_comm 1]

/-- FB with `bytes` written from offset `off` on. -/
def Memory.writeBytes : Memory → Nat → List Byte → Memory
  | m, _, [] => m
  | m, off, b :: bytes => Memory.writeBytes (Memory.write m off b) (off + 1) bytes

theorem Memory.read_writeBytes (m : Memory) (off : Nat) (bytes : List Byte) (a : Nat) :
    Memory.read (Memory.writeBytes m off bytes) a =
      if off ≤ a ∧ a < off + bytes.length then bytes[a - off]? else Memory.read m a := by
  induction bytes generalizing m off with
  | nil => rw [Memory.writeBytes, if_neg (by simp)]
  | cons b bytes ih =>
    rw [Memory.writeBytes, ih, Memory.read_write, List.length_cons]
    by_cases hfirst : a = off
    · rw [if_neg (by omega), if_pos hfirst, if_pos (by omega), hfirst, Nat.sub_self, List.getElem?_cons_zero]
    · rw [if_neg hfirst]
      by_cases hrest : off + 1 ≤ a ∧ a < off + 1 + bytes.length
      · rw [if_pos hrest, if_pos (by omega), show a - off = a - (off + 1) + 1 by omega, List.getElem?_cons_succ]
      · rw [if_neg hrest, if_neg (by omega)]

theorem runSteps_cons {s t : State} (h : step s = .next t) (k : Nat) : runSteps (k + 1) s = runSteps k t := by
  rw [runSteps, h]

theorem runSteps_snoc {s t u : State} {k : Nat} (hrun : runSteps k s = .next t) (hstep : step t = .next u) :
    runSteps (k + 1) s = .next u :=
  (runSteps_add k 1 s t hrun).trans (runSteps_cons hstep 0)

/-- While BUSY = 0 the load writes its bytes and changes nothing else. -/
theorem runSteps_loadMoves {s : State} {off : Nat} {bytes : List Byte} {tail : List Move} (hidle : s.busy = false)
    (hin : off + bytes.length ≤ s.cfg.fbSize) (hs : s.schedule = loadMoves off bytes ++ tail) :
    runSteps bytes.length s = .next { s with schedule := tail, fb := Memory.writeBytes s.fb off bytes } := by
  induction bytes generalizing s off with
  | nil =>
    obtain rfl : s.schedule = tail := hs
    rfl
  | cons b bytes ih =>
    rw [loadMoves_cons, List.cons_append] at hs
    rw [List.length_cons] at hin
    have hstep := (State.NextAccess.step_eq (.inl hs)).trans
      (HostAccess.perform_wrFb_of_idle hidle (show off < s.cfg.fbSize by omega))
    rw [List.length_cons, runSteps_cons hstep]
    exact ih hidle (show off + 1 + bytes.length ≤ s.cfg.fbSize by omega) rfl

theorem step_stamp {s : State} {rest : List Move} (hs : s.schedule = .sequencer :: rest) (hseq : s.seq = 1#4) :
    step s = .next { s with schedule := rest, fb := Memory.write s.fb s.cfg.offMc s.pendingCount, seq := 2#4 } := by
  have hphase : fetchMove .sequencer { s with schedule := rest } = .run .stamp { s with schedule := rest } := by
    rw [fetchMove, fetchPhase, hseq]
    rfl
  rw [step_of_run hs hphase, exec_stamp]

/-- Settles O59: the load by induction on its bytes, then one step of START and one of STAMP. -/
theorem loadedFrameIsSeenByTheCommand : Obligations.LoadedFrameIsSeenByTheCommand := by
  intro s off bytes w rest hidle hin hs
  have hload := runSteps_loadMoves hidle hin hs
  have hstarted := runSteps_snoc hload
    ((State.NextAccess.step_eq (.inl rfl)).trans (HostAccess.perform_start_of_idle hidle))
  have hstamped := runSteps_snoc hstarted (step_stamp rfl rfl)
  exact ⟨_, _, hstarted, Memory.read_writeBytes s.fb off bytes, hstamped, Memory.read_write _ _ _⟩

end Sys2Proof.Machine
end

section
/-! The two formats read back (R96, R100, R105), and the wide values as their bytes (R10, R31). -/

namespace Sys2Proof

/-- Settles O1: a command word gives its two fields back, and each type has its own row. -/
theorem decodeOfEncodeIsTheInstruction : Obligations.DecodeOfEncodeIsTheInstruction := by
  intro c i hc hwf
  cases i with
  | respondAck v => rw [encode, decode, decodeCmd_of_ack (by simp), cmdValueField_cmdWordOf]
  | respondAckTimer v => rw [encode, decode, decodeCmd_of_ackTimer hc (by simp), cmdValueField_cmdWordOf]
  | respondNack v => rw [encode, decode, decodeCmd_of_nackReason hc (by simp), cmdValueField_cmdWordOf]
  | respondRaw r v =>
    have hother : c.supports r = false := by simpa [Instr.wf] using hwf
    obtain ⟨hack, htimer, hnack⟩ := Config.supports_eq_false_iff.1 hother
    rw [encode, decode, decodeCmd_of_other (by simpa) (by simpa) (by simpa), cmdRtypeField_cmdWordOf,
      cmdValueField_cmdWordOf]
  | _ => rfl

theorem encode_decodeCmd (c : Config) (w : CmdWord) : encode c (decodeCmd c w) = .cmd w := by
  unfold decodeCmd
  split_ifs with hack htimer hnack
  · rw [encode, ← hack, cmdWordOf_fields]
  · rw [encode, ← htimer, cmdWordOf_fields]
  · rw [encode, ← hnack, cmdWordOf_fields]
  · rw [encode, cmdWordOf_fields]

theorem decodeCmd_wf (c : Config) (w : CmdWord) : (decodeCmd c w).wf c = true := by
  unfold decodeCmd
  split_ifs with hack htimer hnack
  · rfl
  · rfl
  · rfl
  · simp [Instr.wf, Config.supports_eq_false_iff.2 ⟨hack, htimer, hnack⟩]

/-- Settles O2: the row that a command word takes writes the same type back; a phase is the one with its code. -/
theorem encodeOfDecodeIsTheCode : Obligations.EncodeOfDecodeIsTheCode := by
  intro c code i h
  cases code with
  | cmd w =>
    obtain rfl : decodeCmd c w = i := Decoded.ok.inj h
    exact ⟨encode_decodeCmd c w, decodeCmd_wf c w⟩
  | seq code =>
    rcases Machine.decodeSeq_ok h with ⟨rfl, rfl⟩ | ⟨rfl, rfl⟩ | ⟨rfl, rfl⟩ | ⟨rfl, rfl⟩ | ⟨rfl, rfl⟩ | ⟨rfl, rfl⟩ |
      ⟨rfl, rfl⟩ | ⟨rfl, rfl⟩ | ⟨rfl, rfl⟩ | ⟨rfl, rfl⟩ | ⟨rfl, rfl⟩ | ⟨rfl, rfl⟩ <;> exact ⟨rfl, rfl⟩

/-- Settles O4: closed words and codes. -/
theorem writtenOutWordsDecode : Obligations.WrittenOutWordsDecode := by
  unfold Obligations.WrittenOutWordsDecode
  decide

/-- Settles O5: neighbouring slices join to a wider slice, and the slice of all bits is the value. -/
theorem wideValuesAreTheirBytes : Obligations.WideValuesAreTheirBytes := by
  refine ⟨fun u => ?_, fun v => ?_⟩
  · simp only [Machine.uidByte]
    iterate 5 rw [BitVec.extractLsb'_append_extractLsb'_eq_extractLsb' (by decide)]
    exact BitVec.extractLsb'_eq_self
  · rw [Machine.hi8, Machine.lo8, BitVec.extractLsb'_append_extractLsb'_eq_extractLsb' (by decide)]
    exact BitVec.extractLsb'_eq_self

end Sys2Proof
end

section
/-! One step: the instruction that the next move brings (R24, R72, R77), and what reset leaves (R51, R250). -/

namespace Sys2Proof.Machine

theorem fetchPhase_of_decode {s : State} {i : Instr} (h : decodeSeq s.seq = .ok i) : fetchPhase s = .run i s := by
  rw [fetchPhase, h]

theorem step_of_nil {s : State} {i : Instr} (hs : s.schedule = []) (h : decodeSeq s.seq = .ok i) : step s = exec i s := by
  rw [step, fetch, hs]
  simp only [fetchPhase_of_decode h]

theorem step_sequencer {s : State} {rest : List Move} {i : Instr} (hs : s.schedule = .sequencer :: rest)
    (h : decodeSeq s.seq = .ok i) : step s = exec i { s with schedule := rest } :=
  step_of_run hs (fetchPhase_of_decode (s := { s with schedule := rest }) h)

/-- Settles O6: the fetch of each move that brings an instruction. -/
theorem stepRunsTheFetchedInstruction : Obligations.StepRunsTheFetchedInstruction :=
  fun _ _ => ⟨fun _ => step_of_nil, fun _ => step_sequencer, fun _ hs => step_of_run hs rfl,
    fun _ hs => step_of_run hs rfl⟩

theorem decodeSeq_of_ge {code : SeqCode} (h : 12 ≤ code.toNat) : decodeSeq code = .rejected (.unreachableSeqCode code) := by
  have hall : ∀ c : SeqCode, 12 ≤ c.toNat → decodeSeq c = .rejected (.unreachableSeqCode c) := by decide
  exact hall code h

/-- Settles O7: the decoder rejects the code, so the fetch has no instruction. -/
theorem unreachableSeqCodesAreRefused : Obligations.UnreachableSeqCodesAreRefused := by
  intro s hs hcode
  rw [step, fetch, hs]
  simp only [fetchPhase, decodeSeq_of_ge hcode]

theorem decodeTableWord_eq_some {nbits w : Nat} {i : Instr} (h : decodeTableWord nbits w = some i) :
    ∃ code, codeOfTableWord nbits w = some code ∧ decode Config.defaults code = .ok i := by
  unfold decodeTableWord at h
  split at h
  · next code hcode =>
    split at h
    · next j hj => exact ⟨code, hcode, (Option.some.inj h) ▸ hj⟩
    · cases h
  · cases h

theorem codeOfTableWord_cmd {w : Nat} {code : Code} (h : codeOfTableWord 24 w = some code) :
    code = .cmd (BitVec.ofNat 24 w) := by
  rw [codeOfTableWord, if_pos rfl] at h
  split_ifs at h
  exact (Option.some.inj h).symm

theorem codeOfTableWord_seq {nbits w : Nat} {code : Code} (hn : nbits ≠ 24) (h : codeOfTableWord nbits w = some code) :
    code = .seq (BitVec.ofNat 4 w) := by
  rw [codeOfTableWord, if_neg hn] at h
  split_ifs at h
  exact (Option.some.inj h).symm

/-- Settles O8: the placed word is the host's next write to CMD, or the code that SEQ holds. -/
theorem placedTableWordRunsNext : Obligations.PlacedTableWordRunsNext := by
  intro s nbits w i hcfg hword
  obtain ⟨code, hcode, hdecode⟩ := decodeTableWord_eq_some hword
  by_cases hn : nbits = 24
  · subst hn
    obtain rfl := codeOfTableWord_cmd hcode
    have hi : decodeCmd s.cfg (BitVec.ofNat 24 w) = i := hcfg ▸ Decoded.ok.inj hdecode
    rw [State.withFetchWord, if_pos rfl, if_pos rfl, ← hi]
    exact step_of_run rfl rfl
  · obtain rfl := codeOfTableWord_seq hn hcode
    rw [State.withFetchWord, if_neg hn, if_neg hn]
    exact step_sequencer rfl hdecode

/-- Settles O9: every value named is a field of the reset state. -/
theorem resetLeavesTheStatedValues : Obligations.ResetLeavesTheStatedValues :=
  ⟨fun _ => ⟨rfl, rfl, rfl, rfl, rfl, rfl, rfl, fun _ => rfl⟩, fun _ _ hs =>
    ⟨_, step_of_moved hs rfl, rfl, rfl, rfl, rfl, rfl, rfl, rfl, fun _ => rfl, rfl, rfl, rfl⟩⟩

/-- The phases that drive the line are the codes 9 to 11. -/
theorem State.drivesLine_iff (s : State) : s.drivesLine ↔ 9 ≤ s.seq.toNat ∧ s.seq.toNat ≤ 11 := by
  have hall : ∀ c : SeqCode, (c = 9#4 ∨ c = 10#4 ∨ c = 11#4) ↔ 9 ≤ c.toNat ∧ c.toNat ≤ 11 := by decide
  exact hall s.seq

/-- Settles O10: after reset the block is idle, the line is an input and nothing is offered. -/
theorem resetMeetsTheInvariant : Obligations.ResetMeetsTheInvariant := by
  intro c hc
  have hpos : 0 < 2 ^ c.timeWidth := Nat.two_pow_pos _
  exact
    { cfgValid := hc
      fbWf := rfl
      fbInside := fun _ _ => rfl
      seqCode := show (0#4).toNat < 12 by decide
      busyIff := show (0#4).getLsbD 0 = true ↔ 0#4 ≠ 0#4 by decide
      statusLegal := .inl rfl
      dirIff := ⟨nofun, fun h => absurd ((State.drivesLine_iff _).1 h).1 (show ¬ 9 ≤ (0#4).toNat by decide)⟩
      pullupEq := rfl
      txActiveSend := nofun
      idxBound := nofun
      offered := nofun
      offering := nofun
      delayPhase := nofun
      gateDelay := nofun
      settleBegun := nofun
      settleDelay := nofun
      nowBound := hpos
      rxEndBound := hpos
      t0Bound := hpos
      dlyBound := hpos }

end Sys2Proof.Machine
end

section
/-! What one step changes, said once for every agent: at most one hand-over or report of the serialiser (R45, R178), and
then one change by the agent that moved. The invariants of the block are proved over these changes. -/

namespace Sys2Proof.Machine

/-! Stores into the frame buffer. -/

/-- FB after some stores, each at an offset that exists (R63). -/
inductive Memory.Stores (c : Config) (m : Memory) : Memory → Prop where
  | none : Stores c m m
  | write {m' : Memory} (h : Stores c m m') (a : Nat) (b : Byte) (ha : a < c.fbSize) : Stores c m (Memory.write m' a b)

namespace Memory.Stores

variable {c : Config} {m m' : Memory}

theorem wf (h : Stores c m m') (hm : Memory.wf m = true) : Memory.wf m' = true := by
  induction h with
  | none => exact hm
  | write _ a b _ ih => exact Memory.wf_write _ a b ih

theorem read_outside (h : Stores c m m') {x : Nat} (hx : c.fbSize ≤ x) : Memory.read m' x = Memory.read m x := by
  induction h with
  | none => rfl
  | write _ a b ha ih => rw [Memory.read_write, if_neg (by omega), ih]

/-- A byte that has been written stays written. -/
theorem written (h : Stores c m m') {x : Nat} (hx : ∃ b, Memory.read m x = some b) : ∃ b, Memory.read m' x = some b := by
  induction h with
  | none => exact hx
  | write _ a b _ ih =>
    rw [Memory.read_write]
    split
    · exact ⟨b, rfl⟩
    · exact ih

theorem trans {m'' : Memory} (h : Stores c m m') (h' : Stores c m' m'') : Stores c m m'' := by
  induction h' with
  | none => exact h
  | write _ a b ha ih => exact ih.write a b ha

theorem write16be (h : Stores c m m') (a : Nat) (v : Word16) (ha : a + 1 < c.fbSize) :
    Stores c m (Memory.write16be m' a v) :=
  (h.write a _ (by omega)).write (a + 1) _ ha

theorem storeValueResponse (hc : c.valid = true) (m : Memory) (rtype : Byte) (value : Word16) :
    Stores c m (Memory.storeValueResponse c m rtype value) := by
  have := Config.layout_of_valid hc
  exact (((none.write c.offMl _ (by omega)).write c.offRt _ (by omega)).write (c.minSize - 1) _
    (by omega)).write16be c.minSize _ (by omega)

theorem swapUid (hc : c.valid = true) (u : Uid) : ∀ (count i : Nat) (m₁ m₂ : Memory), i + count ≤ 6 →
    Stores c m m₁ → Memory.swapUid c u count i m₁ = .ok m₂ → Stores c m m₂
  | 0, _, _, _, _, h, hswap => (Except.ok.inj hswap) ▸ h
  | count + 1, i, m₁, m₂, hi, h, hswap => by
    have := Config.layout_of_valid hc
    unfold Memory.swapUid at hswap
    split at hswap
    · exact swapUid hc u count (i + 1) _ m₂ (by omega) ((h.write _ _ (by omega)).write _ _ (by omega)) hswap
    · cases hswap

end Memory.Stores

/-! The changes. -/

/-- What a phase leaves, apart from a byte taken and the end of SEND (`Sends`). -/
inductive PhaseChange (s : State) : State → Prop where
  /-- IDLE (R120). -/
  | idle (hs : s.seq = 0#4) : PhaseChange s s
  /-- STAMP to APPEND, but for the abort (R141 to R147). -/
  | encoded (m : Memory) (n : Byte) (v : Word16) (i : Index) (c : SeqCode)
      (hs : 1 ≤ s.seq.toNat ∧ s.seq.toNat ≤ 6) (hc : c = s.seq + 1#4) (hm : s.cfg.valid = true → Memory.Stores s.cfg s.fb m)
      (hsup : s.seq = 2#4 → s.cfg.supports s.cmdRtype = true) :
      PhaseChange s { s with fb := m, len := n, csum := v, idx := i, seq := c }
  /-- DISPATCH on an unsupported type (R125). -/
  | aborted (hs : s.seq = 2#4) (hsup : s.cfg.supports s.cmdRtype = false) :
      PhaseChange s { s with status := statusAborted s.status, seq := 0#4 }
  /-- GATE begins to wait (R173). -/
  | gateBegun (hs : s.seq = 7#4) (hd : s.delaying = false) (he : s.elapsed < s.cfg.spacing) :
      PhaseChange s { s with t0 := s.now, dly := s.cfg.spacing - s.elapsed, delaying := true }
  /-- GATE with no wait (R173). -/
  | gateSkipped (hs : s.seq = 7#4) (hd : s.delaying = false) (he : s.cfg.spacing ≤ s.elapsed) :
      PhaseChange s { s with t0 := s.now, dly := 0, seq := 8#4 }
  /-- GATE or SETTLE while its delay runs (R171). -/
  | delayHeld (hs : s.seq = 7#4 ∨ s.seq = 10#4) (hd : s.delaying = true) (hw : s.waited < s.dly) : PhaseChange s s
  /-- The end of the delay of GATE or SETTLE (R172). -/
  | delayEnded (c : SeqCode) (hs : s.seq = 7#4 ∨ s.seq = 10#4) (hc : c = s.seq + 1#4) (hd : s.delaying = true)
      (hw : s.dly ≤ s.waited) : PhaseChange s { s with delaying := false, seq := c }
  /-- DIR_OUT (R175). -/
  | dirOut (hs : s.seq = 8#4) :
      PhaseChange s { s with dir := .output, pullup := s.cfg.pullupOut,
                             trace := s.trace ++ [Event.dir s.now .output s.cfg.pullupOut], seq := 9#4 }
  /-- The entry of SEND (R177). -/
  | sendBegun (hs : s.seq = 9#4) (ha : s.txActive = false) (b : Byte) (hb : Memory.read s.fb 0 = some b) :
      PhaseChange s { s with idx := 0#9, txActive := true, txData := b, txValid := true }
  /-- An offer of SEND (R177). -/
  | sendOffered (hs : s.seq = 9#4) (ha : s.txActive = true) (hi : s.idx.toNat < s.len.toNat + 2) (hv : s.txValid = false)
      (b : Byte) (hb : Memory.read s.fb s.idx.toNat = some b) :
      PhaseChange s { s with txData := b, txValid := true }
  /-- SEND while `tx_ready` is 0 (R171). -/
  | sendHeld (hs : s.seq = 9#4) (ha : s.txActive = true) (hi : s.idx.toNat < s.len.toNat + 2) (hv : s.txValid = true)
      (hr : s.txReady = false) : PhaseChange s s
  /-- SEND after the last byte, while `tx_idle` is 0 (R171). -/
  | sendWaits (hs : s.seq = 9#4) (ha : s.txActive = true) (hi : s.len.toNat + 2 ≤ s.idx.toNat) (hx : s.txIdle = false) :
      PhaseChange s { s with txValid := false }
  /-- SETTLE from the beginning of its delay (R180). -/
  | settleBegun (hs : s.seq = 10#4) (hd : s.delaying = false) :
      PhaseChange s { s with t0 := s.now, dly := s.cfg.dirSwitch, delaying := true }
  /-- SETTLE with no delay (R180). -/
  | settleSkipped (hs : s.seq = 10#4) (hd : s.delaying = false) : PhaseChange s { s with t0 := s.now, dly := 0, seq := 11#4 }
  /-- DIR_IN (R182). -/
  | dirIn (hs : s.seq = 11#4) :
      PhaseChange s { s with dir := .input, pullup := s.cfg.pullupIn,
                             trace := s.trace ++ [Event.dir s.now .input s.cfg.pullupIn],
                             status := statusSent s.status, seq := 0#4 }

/-- What the serialiser brings about in a step: nothing, a byte taken (R178), or the report of the end (R45). -/
inductive Sends (s : State) : State → Prop where
  | nothing : Sends s s
  | byte {t : State} (hv : s.txValid = true) (hr : s.txReady = true) (h : handOver s = .next t) : Sends s t
  | done (ha : s.txActive = true) (hi : s.len.toNat + 2 ≤ s.idx.toNat) (hx : s.txIdle = true) :
      Sends s { s with txActive := false, txValid := false, t0 := s.now, dly := s.cfg.dirSwitch, delaying := true,
                       trace := s.trace ++ [Event.txDone s.now], seq := 10#4 }

/-- The one change that is the moving agent's own. -/
inductive Change (s : State) : State → Prop where
  | phase {t : State} (h : PhaseChange s t) : Change s t
  | started (hb : s.busy = false) (rtype : Byte) (value : Word16) :
      Change s { s with cmdRtype := rtype, cmdValue := value, status := statusStarted, seq := 1#4 }
  | ticked : Change s { s with now := tickSucc s.cfg.timeWidth s.now }
  /-- An answer to the host, an input driven, or nothing at all. -/
  | outside (answers : List HostAnswer) (draws : Nat) (count : Byte) (ready idle : Bool) :
      Change s { s with answers := answers, draws := draws, pendingCount := count, txReady := ready, txIdle := idle }
  | fbWritten (off : Nat) (b : Byte) (hb : s.busy = false) (ho : off < s.cfg.fbSize) :
      Change s { s with fb := Memory.write s.fb off b }
  | uidWritten (u : Uid) (hb : s.busy = false) : Change s { s with ownUid := u }
  | stampWritten (v : Nat) (hb : s.busy = false) (hv : v < 2 ^ s.cfg.timeWidth ∨ v = s.now) :
      Change s { s with rxEndTs := v }

theorem Change.none (s : State) : Change s s := .outside s.answers s.draws s.pendingCount s.txReady s.txIdle

/-! Every phase makes one of these changes. -/

theorem Config.supports_of_ack {c : Config} {r : Byte} (h : r = c.rtAck) : c.supports r = true := by
  simp [Config.supports, h]

theorem Config.supports_of_value {c : Config} {r : Byte} (h : r = c.rtAckTimer ∨ r = c.rtNackReason) :
    c.supports r = true := by
  rcases h with h | h <;> simp [Config.supports, h]

theorem execStamp_change {s t : State} (hs : s.seq = 1#4) (hx : execStamp s = .next t) : PhaseChange s t := by
  obtain rfl := execStamp_next hx
  exact .encoded _ s.len s.csum s.idx 2#4 (by rw [hs]; decide) (by rw [hs]; rfl)
    (fun hc => Memory.Stores.none.write _ _ (by have := Config.layout_of_valid hc; omega)) (by simp [hs])

theorem execDispatch_change {s t : State} (hs : s.seq = 2#4) (hx : execDispatch s = .next t) : PhaseChange s t := by
  rcases execDispatch_next hx with ⟨hack, n, -, rfl⟩ | ⟨-, hvalue, n, -, rfl⟩ | ⟨hsup, rfl⟩
  · exact .encoded _ n s.csum s.idx 3#4 (by rw [hs]; decide) (by rw [hs]; rfl)
      (fun hc => Memory.Stores.none.write _ _ (by have := Config.layout_of_valid hc; omega))
      fun _ => Config.supports_of_ack hack
  · exact .encoded _ n s.csum s.idx 3#4 (by rw [hs]; decide) (by rw [hs]; rfl)
      (fun hc => Memory.Stores.storeValueResponse hc _ _ _) fun _ => Config.supports_of_value hvalue
  · exact .aborted hs hsup

theorem execSwap_change {s t : State} (hs : s.seq = 3#4) (hx : execSwap s = .next t) : PhaseChange s t := by
  obtain ⟨m, hm, rfl⟩ := execSwap_next hx
  exact .encoded m s.len s.csum s.idx 4#4 (by rw [hs]; decide) (by rw [hs]; rfl)
    (fun hc => Memory.Stores.swapUid hc _ 6 0 _ _ (by decide) .none hm) (by simp [hs])

theorem execClass_change {s t : State} (hs : s.seq = 4#4) (hx : execClass s = .next t) : PhaseChange s t := by
  obtain ⟨b, -, rfl⟩ := execClass_next hx
  exact .encoded _ s.len s.csum s.idx 5#4 (by rw [hs]; decide) (by rw [hs]; rfl)
    (fun hc => Memory.Stores.none.write _ _ (by have := Config.layout_of_valid hc; omega)) (by simp [hs])

theorem execCsum_change {s t : State} (hs : s.seq = 5#4) (hx : execCsum s = .next t) : PhaseChange s t := by
  obtain ⟨v, -, rfl⟩ := execCsum_next hx
  exact .encoded s.fb s.len v s.lenIndex 6#4 (by rw [hs]; decide) (by rw [hs]; rfl) (fun _ => .none) (by simp [hs])

theorem execAppend_change {s t : State} (hs : s.seq = 6#4) (hx : execAppend s = .next t) : PhaseChange s t := by
  obtain rfl := execAppend_next hx
  have := s.len.isLt
  exact .encoded _ s.len s.csum s.idx 7#4 (by rw [hs]; decide) (by rw [hs]; rfl)
    (fun hc => Memory.Stores.none.write16be _ _ (by have := Config.layout_of_valid hc; omega)) (by simp [hs])

theorem execGate_change {s t : State} (hs : s.seq = 7#4) (hx : execGate s = .next t) : PhaseChange s t := by
  rcases execGate_next hx with ⟨hd, he, rfl⟩ | ⟨hd, he, rfl⟩ | ⟨hd, hw, rfl⟩ | ⟨hd, hw, rfl⟩
  · exact .gateBegun hs hd he
  · exact .gateSkipped hs hd he
  · exact .delayEnded 8#4 (.inl hs) (by rw [hs]; rfl) hd hw
  · exact .delayHeld (.inl hs) hd hw

theorem execSend_change {s t : State} (hs : s.seq = 9#4) (hx : execSend s = .next t) :
    PhaseChange s t ∨ (s.txActive = true ∧ Sends s t) := by
  rcases execSend_next hx with ⟨ha, b, hb, rfl⟩ | ⟨ha, hi, hv, b, hb, rfl⟩ | ⟨ha, hi, hv, hr, b, hb, hmore⟩ |
    ⟨ha, hi, hv, hr, rfl⟩ | ⟨ha, hi, hidle, rfl⟩ | ⟨ha, hi, hidle, rfl⟩
  · exact .inl (.sendBegun hs ha b hb)
  · exact .inl (.sendOffered hs ha hi hv b hb)
  · rcases hmore with ⟨hlt, c, hc, rfl⟩ | ⟨hlast, rfl⟩
    · exact .inr ⟨ha, .byte hv hr (handOver_more hlt hb hc)⟩
    · exact .inr ⟨ha, .byte hv hr (handOver_last hlast hb)⟩
  · exact .inl (.sendHeld hs ha hi hv hr)
  · exact .inr ⟨ha, .done ha hi hidle⟩
  · exact .inl (.sendWaits hs ha hi hidle)

theorem execSettle_change {s t : State} (hs : s.seq = 10#4) (hx : execSettle s = .next t) : PhaseChange s t := by
  rcases execSettle_next hx with ⟨hd, -, rfl⟩ | ⟨hd, -, rfl⟩ | ⟨hd, hw, rfl⟩ | ⟨hd, hw, rfl⟩
  · exact .settleBegun hs hd
  · exact .settleSkipped hs hd
  · exact .delayEnded 11#4 (.inr hs) (by rw [hs]; rfl) hd hw
  · exact .delayHeld (.inr hs) hd hw

/-- The phase that the sequencer executes is the one whose code SEQ holds. -/
theorem seq_eq_of_decode {code c : SeqCode} {i : Instr} (hd : decodeSeq code = .ok i)
    (hi : encode Config.defaults i = .seq c) : code = c :=
  Code.seq.inj ((encodeOfDecodeIsTheCode Config.defaults (.seq code) i hd).1.symm.trans hi)

theorem not_decodeSeq_cmd {code : SeqCode} {i : Instr} {w : CmdWord} (hi : encode Config.defaults i = .cmd w) :
    decodeSeq code ≠ .ok i := fun hd =>
  Code.noConfusion ((encodeOfDecodeIsTheCode Config.defaults (.seq code) i hd).1.symm.trans hi)

/-- A phase's step is its own change, or, in SEND, a byte taken or the report. -/
theorem exec_phase_change {i : Instr} {s t : State} (hd : decodeSeq s.seq = .ok i) (hx : exec i s = .next t) :
    PhaseChange s t ∨ (s.seq = 9#4 ∧ s.txActive = true ∧ Sends s t) := by
  cases i with
  | respondAck v => exact absurd hd (not_decodeSeq_cmd rfl)
  | respondAckTimer v => exact absurd hd (not_decodeSeq_cmd rfl)
  | respondNack v => exact absurd hd (not_decodeSeq_cmd rfl)
  | respondRaw r v => exact absurd hd (not_decodeSeq_cmd rfl)
  | idle =>
    obtain rfl : s = t := Host.Outcome.next.inj hx
    exact .inl (.idle (seq_eq_of_decode hd rfl))
  | stamp => exact .inl (execStamp_change (seq_eq_of_decode hd rfl) hx)
  | dispatch => exact .inl (execDispatch_change (seq_eq_of_decode hd rfl) hx)
  | swap => exact .inl (execSwap_change (seq_eq_of_decode hd rfl) hx)
  | classAdvance => exact .inl (execClass_change (seq_eq_of_decode hd rfl) hx)
  | csum => exact .inl (execCsum_change (seq_eq_of_decode hd rfl) hx)
  | append => exact .inl (execAppend_change (seq_eq_of_decode hd rfl) hx)
  | gate => exact .inl (execGate_change (seq_eq_of_decode hd rfl) hx)
  | dirOut =>
    obtain rfl := execDirOut_next hx
    exact .inl (.dirOut (seq_eq_of_decode hd rfl))
  | send =>
    have hs := seq_eq_of_decode hd rfl
    exact (execSend_change hs hx).imp id fun h => ⟨hs, h⟩
  | settle => exact .inl (execSettle_change (seq_eq_of_decode hd rfl) hx)
  | dirIn =>
    obtain rfl := execDirIn_next hx
    exact .inl (.dirIn (seq_eq_of_decode hd rfl))

/-! Every step makes them. -/

theorem HostEffect.change {s t : State} (h : HostEffect s t) : Change s t := by
  cases h with
  | answered answers draws => exact .outside answers draws _ _ _
  | dropped => exact .none s
  | counted c => exact .outside _ _ c _ _
  | fbWritten off b hb ho => exact .fbWritten off b hb ho
  | uidWritten u hb => exact .uidWritten u hb
  | stampWritten v hb => exact .stampWritten _ hb (.inl (Nat.mod_lt _ (Nat.two_pow_pos _)))
  | stampCaptured hb => exact .stampWritten _ hb (.inr rfl)

theorem State.startCommand_change (s : State) (rtype : Byte) (value : Word16) :
    Change s (State.startCommand s rtype value) := by
  cases hb : s.busy with
  | false =>
    rw [State.startCommand_idle s rtype value hb]
    exact .started hb rtype value
  | true =>
    rw [State.startCommand_busy s rtype value hb]
    exact .none s

/-- A tick: what the serialiser brings about, and then NOW counts (R36, R178). -/
theorem countTick_sends {s t : State} (h : countTick s = .next t) :
    ∃ u, Sends s u ∧ t = { u with now := tickSucc u.cfg.timeWidth u.now } := by
  rcases countTick_next h with ⟨hv, hr, u, hu, rfl⟩ | ⟨ha, -, hi, hx, rfl⟩ | ⟨-, -, rfl⟩
  · refine ⟨u, .byte hv hr hu, ?_⟩
    obtain ⟨b, -, hframe⟩ := handOver_frame hu
    rw [hframe]
  · exact ⟨_, .done ha hi hx, rfl⟩
  · exact ⟨s, .nothing, rfl⟩

theorem driveReady_sends {s t : State} {level : Bool} (h : driveReady s level = .next t) :
    ∃ u, Sends s u ∧ t = { u with txReady := level } := by
  rcases driveReady_next h with ⟨rfl, hv, hr, u, hu, rfl⟩ | ⟨-, rfl⟩
  · exact ⟨u, .byte hv hr hu, rfl⟩
  · exact ⟨s, .nothing, rfl⟩

theorem State.seeReport_sends (s : State) : Sends s (State.seeReport s) := by
  rcases State.seeReport_cases s with ⟨ha, -, hi, hx, h⟩ | ⟨-, h⟩ <;> rw [h]
  · exact .done ha hi hx
  · exact .nothing

theorem State.driveIdle_sends (s : State) (level : Bool) :
    ∃ u, Sends s u ∧ State.driveIdle s level = { u with txIdle := level } := by
  cases level with
  | true => exact ⟨s, .nothing, rfl⟩
  | false => exact ⟨State.seeReport s, s.seeReport_sends, rfl⟩

/-- Every next state of a step, but for the reset input's, is what the serialiser brings about, and then one change. -/
theorem step_change {s t : State} (h : step s = .next t) :
    (s.schedule.head? = some .reset ∧ t = State.resetInput s.taken) ∨ ∃ u, Sends s.taken u ∧ Change u t := by
  cases step_effect h with
  | phase _ i hd hx =>
    rcases exec_phase_change (s := s.taken) hd hx with hphase | ⟨-, -, hsends⟩
    · exact .inr ⟨_, .nothing, .phase hphase⟩
    · exact .inr ⟨t, hsends, .none t⟩
  | start w _ hx => exact .inr ⟨_, .nothing, hx ▸ State.startCommand_change _ _ _⟩
  | host _ _ hx => exact .inr ⟨_, .nothing, hx.change⟩
  | tick _ hx =>
    obtain ⟨u, hsends, rfl⟩ := countTick_sends hx
    exact .inr ⟨u, hsends, .ticked⟩
  | pendingCount c _ hx => exact .inr ⟨_, .nothing, hx ▸ .outside _ _ c _ _⟩
  | txReady level _ hx =>
    obtain ⟨u, hsends, rfl⟩ := driveReady_sends hx
    exact .inr ⟨u, hsends, .outside _ _ _ level _⟩
  | txIdle level _ hx =>
    obtain ⟨u, hsends, ht⟩ := State.driveIdle_sends s.taken level
    exact .inr ⟨u, hsends, hx.trans ht ▸ .outside _ _ _ _ level⟩
  | reset hm hx => exact .inl ⟨hm, hx⟩

end Sys2Proof.Machine
end

section
/-! The invariant (R52 and what it rests on) over every change. -/

namespace Sys2Proof.Machine

/-! What the invariant says of a phase: which of the transmitter, the line and the delay is at rest in it. -/

/-- The next code's number, in the encoder's phases. -/
theorem seq_succ_toNat {code c : SeqCode} (hc : c = code + 1#4) (hle : code.toNat ≤ 6) : c.toNat = code.toNat + 1 := by
  rw [hc, BitVec.toNat_add, BitVec.toNat_ofNat]
  omega

theorem State.seq_ne {s : State} {c : SeqCode} (hs : s.seq.toNat ≠ c.toNat) : s.seq ≠ c :=
  fun hc => hs (congrArg BitVec.toNat hc)

namespace State.Inv

variable {s : State}

theorem status_of_busy (h : s.Inv) (hb : s.busy = true) : s.status = 0b0001#4 := by
  unfold State.busy at hb
  rcases h.statusLegal with hst | hst | hst | hst
  · simp [hst] at hb
  · exact hst
  · simp [hst] at hb
  · simp [hst] at hb

theorem busy_of_seq (h : s.Inv) (hs : s.seq ≠ 0#4) : s.busy = true := h.busyIff.2 hs

theorem seq_of_not_busy (h : s.Inv) (hb : s.busy = false) : s.seq = 0#4 := by
  by_contra hs
  simp [h.busy_of_seq hs] at hb

theorem inactive (h : s.Inv) (hs : s.seq ≠ 9#4) : s.txActive = false :=
  Bool.eq_false_iff.2 fun ha => hs (h.txActiveSend ha)

theorem not_offering (h : s.Inv) (ha : s.txActive = false) : s.txValid = false := by
  refine Bool.eq_false_iff.2 fun hv => ?_
  obtain ⟨hactive, -⟩ := h.offered hv
  simp [ha] at hactive

theorem not_delaying (h : s.Inv) (h7 : s.seq ≠ 7#4) (h10 : s.seq ≠ 10#4) : s.delaying = false :=
  Bool.eq_false_iff.2 fun hd => (h.delayPhase hd).elim h7 h10

theorem dir_input (h : s.Inv) (hs : s.seq.toNat < 9) : s.dir = .input := by
  cases hd : s.dir with
  | input => rfl
  | output =>
    have := (State.drivesLine_iff s).1 (h.dirIff.1 hd)
    omega

theorem dir_output (h : s.Inv) (hs : 9 ≤ s.seq.toNat) : s.dir = .output :=
  h.dirIff.2 ((State.drivesLine_iff s).2 ⟨hs, by have := h.seqCode; omega⟩)

/-! What keeps the invariant. -/

theorem taken (h : s.Inv) : s.taken.Inv := { h with }

theorem ticked (h : s.Inv) : ({ s with now := tickSucc s.cfg.timeWidth s.now } : State).Inv :=
  { h with nowBound := tickSucc_lt _ _ }

theorem outside (h : s.Inv) (answers : List HostAnswer) (draws : Nat) (count : Byte) (ready idle : Bool) :
    ({ s with answers := answers, draws := draws, pendingCount := count, txReady := ready, txIdle := idle } : State).Inv :=
  { h with }

/-- FB may be stored into while nothing is being sent. -/
theorem stored (h : s.Inv) (ha : s.txActive = false) {m : Memory} (hm : Memory.Stores s.cfg s.fb m) :
    ({ s with fb := m } : State).Inv :=
  { h with
    fbWf := hm.wf h.fbWf
    fbInside := fun a hx => (hm.read_outside hx).trans (h.fbInside a hx)
    offered := fun hv => absurd hv (Bool.eq_false_iff.1 (h.not_offering ha)) }

/-- LEN, CSUM and IDX are free while nothing is being sent. -/
theorem latched (h : s.Inv) (ha : s.txActive = false) (n : Byte) (v : Word16) (i : Index) :
    ({ s with len := n, csum := v, idx := i } : State).Inv :=
  { h with
    idxBound := fun hactive => absurd hactive (Bool.eq_false_iff.1 ha)
    offered := fun hv => absurd hv (Bool.eq_false_iff.1 (h.not_offering ha))
    offering := fun hactive => absurd hactive (Bool.eq_false_iff.1 ha) }

/-- From a phase before SEND to another one, no delay being waited out. -/
theorem entered (h : s.Inv) (hs : s.seq.toNat < 9) (hd : s.delaying = false) (status : BitVec 4) (c : SeqCode)
    (hc : c.toNat < 9) (hst : status = 0b0001#4 ∧ c ≠ 0#4 ∨ status = 0b1010#4 ∧ c = 0#4) :
    ({ s with status := status, seq := c } : State).Inv :=
  have ha : s.txActive ≠ true := Bool.eq_false_iff.1 (h.inactive (State.seq_ne (by change _ ≠ 9; omega)))
  have hd : s.delaying ≠ true := Bool.eq_false_iff.1 hd
  have hne : c ≠ 10#4 := by rintro rfl; exact absurd hc (by decide)
  have hnot : ¬ ({ s with status := status, seq := c } : State).drivesLine := fun hdrives => by
    have := ((State.drivesLine_iff _).1 hdrives).1
    change 9 ≤ c.toNat at this
    omega
  { h with
    seqCode := show c.toNat < 12 by omega
    busyIff := show status.getLsbD 0 = true ↔ c ≠ 0#4 by
      rcases hst with ⟨rfl, hne⟩ | ⟨rfl, rfl⟩
      · exact ⟨fun _ => hne, fun _ => rfl⟩
      · decide
    statusLegal := hst.elim (fun h => .inr (.inl h.1)) fun h => .inr (.inr (.inr h.1))
    dirIff := ⟨fun hout => by simp [h.dir_input hs] at hout, fun hdrives => absurd hdrives hnot⟩
    txActiveSend := fun hactive => absurd hactive ha
    delayPhase := fun hdelaying => absurd hdelaying hd
    gateDelay := fun hdelaying => absurd hdelaying hd
    settleBegun := fun hten => absurd hten hne
    settleDelay := fun hten => absurd hten hne }

/-- The time registers of the delay are free while none is waited out, but in SETTLE. -/
theorem sampled (h : s.Inv) (hd : s.delaying = false) (hs : s.seq ≠ 10#4) (dly : Nat) (hdly : dly < 2 ^ s.cfg.timeWidth) :
    ({ s with t0 := s.now, dly := dly } : State).Inv :=
  { h with
    gateDelay := fun hdelaying => absurd hdelaying (Bool.eq_false_iff.1 hd)
    settleDelay := fun hten => absurd hten hs
    t0Bound := h.nowBound
    dlyBound := hdly }

theorem gateEnded (h : s.Inv) (hs : s.seq = 7#4) : ({ s with delaying := false } : State).Inv :=
  { h with
    delayPhase := nofun
    gateDelay := nofun
    settleBegun := fun hten => absurd (hs.symm.trans hten) (by decide) }

theorem gateBegun (h : s.Inv) (hs : s.seq = 7#4) (he : s.elapsed < s.cfg.spacing) :
    ({ s with t0 := s.now, dly := s.cfg.spacing - s.elapsed, delaying := true } : State).Inv :=
  { h with
    delayPhase := fun _ => .inl hs
    gateDelay := fun _ _ => ⟨he, rfl⟩
    settleBegun := fun _ => rfl
    settleDelay := fun hten => absurd (hs.symm.trans hten) (by decide)
    t0Bound := h.nowBound
    dlyBound := (Nat.sub_le _ _).trans_lt (Config.times_of_valid h.cfgValid).2.2.1 }

/-- DIR_OUT, and the end of SETTLE: from one phase to the next, nothing being sent. -/
theorem linePhase (h : s.Inv) (hs : s.seq = 8#4 ∨ s.seq = 10#4) (c : SeqCode) (hc : c = s.seq + 1#4) (trace : List Event) :
    ({ s with dir := .output, pullup := s.cfg.pullupOut, trace := trace, seq := c, delaying := false } : State).Inv := by
  have ha : s.txActive ≠ true := Bool.eq_false_iff.1 (h.inactive (by rcases hs with hs | hs <;> rw [hs] <;> decide))
  have hbusy : s.busy = true := h.busy_of_seq (by rcases hs with hs | hs <;> rw [hs] <;> decide)
  have hnine : c = 9#4 ∨ c = 11#4 := by
    rcases hs with hs | hs <;> rw [hs] at hc
    · exact .inl hc
    · exact .inr hc
  exact
  { h with
    seqCode := show c.toNat < 12 by rcases hnine with rfl | rfl <;> decide
    busyIff := ⟨fun _ => show c ≠ 0#4 by rcases hnine with rfl | rfl <;> decide, fun _ => hbusy⟩
    dirIff := ⟨fun _ => (State.drivesLine_iff _).2 (show 9 ≤ c.toNat ∧ c.toNat ≤ 11 by
      rcases hnine with rfl | rfl <;> decide), fun _ => rfl⟩
    pullupEq := rfl
    txActiveSend := fun hactive => absurd hactive ha
    delayPhase := nofun
    gateDelay := nofun
    settleBegun := show c = 10#4 → false = true by rcases hnine with rfl | rfl <;> decide
    settleDelay := show c = 10#4 → _ from fun hten => absurd hten (by rcases hnine with rfl | rfl <;> decide) }

theorem sendBegun (h : s.Inv) (hs : s.seq = 9#4) {b : Byte} (hb : Memory.read s.fb 0 = some b) :
    ({ s with idx := 0#9, txActive := true, txData := b, txValid := true } : State).Inv :=
  { h with
    txActiveSend := fun _ => hs
    idxBound := fun _ => Nat.zero_le _
    offered := fun _ => ⟨rfl, Nat.succ_pos _, hb⟩
    offering := fun _ _ => rfl }

/-- A byte taken: IDX moves on, and the next byte is offered where there is one. -/
theorem byteTaken (h : s.Inv) {t : State} (hv : s.txValid = true) (ht : handOver s = .next t) : t.Inv := by
  obtain ⟨hactive, hi, -⟩ := h.offered hv
  have hidx := State.idx_succ_toNat hi
  obtain ⟨b, -, ⟨hlt, c, hc, rfl⟩ | ⟨hlast, rfl⟩⟩ := handOver_next hi ht
  · exact
    { h with
      idxBound := fun _ => show (s.idx + 1#9).toNat ≤ s.len.toNat + 2 by omega
      offered := fun _ => ⟨hactive, show (s.idx + 1#9).toNat < s.len.toNat + 2 by omega,
        show Memory.read s.fb (s.idx + 1#9).toNat = some c by rw [hidx, hc]⟩
      offering := fun _ _ => rfl }
  · exact
    { h with
      idxBound := fun _ => show (s.idx + 1#9).toNat ≤ s.len.toNat + 2 by omega
      offered := nofun
      offering := fun _ (hlt : (s.idx + 1#9).toNat < s.len.toNat + 2) => absurd hlt (by omega) }

theorem sendDone (h : s.Inv) (ha : s.txActive = true) (trace : List Event) :
    ({ s with txActive := false, txValid := false, t0 := s.now, dly := s.cfg.dirSwitch, delaying := true,
              trace := trace, seq := 10#4 } : State).Inv := by
  have hs : s.seq = 9#4 := h.txActiveSend ha
  exact
  { h with
    seqCode := show (10#4).toNat < 12 by decide
    busyIff := ⟨fun _ => show 10#4 ≠ 0#4 by decide, fun _ => h.busy_of_seq (by rw [hs]; decide)⟩
    dirIff := ⟨fun _ => .inr (.inl rfl), fun _ => h.dir_output (by rw [hs]; decide)⟩
    txActiveSend := nofun
    idxBound := nofun
    offered := nofun
    offering := nofun
    delayPhase := fun _ => .inr rfl
    gateDelay := fun _ (hseven : 10#4 = 7#4) => absurd hseven (by decide)
    settleBegun := fun _ => rfl
    settleDelay := fun _ => rfl
    t0Bound := h.nowBound
    dlyBound := (Config.times_of_valid h.cfgValid).2.2.2 }

theorem dirIn (h : s.Inv) (hs : s.seq = 11#4) (trace : List Event) :
    ({ s with dir := .input, pullup := s.cfg.pullupIn, trace := trace, status := statusSent s.status, seq := 0#4 } :
      State).Inv := by
  have ha : s.txActive ≠ true := Bool.eq_false_iff.1 (h.inactive (by rw [hs]; decide))
  have hd : s.delaying ≠ true := Bool.eq_false_iff.1 (h.not_delaying (by rw [hs]; decide) (by rw [hs]; decide))
  have hst : s.status = 0b0001#4 := h.status_of_busy (h.busy_of_seq (by rw [hs]; decide))
  exact
  { h with
    seqCode := show (0#4).toNat < 12 by decide
    busyIff := show (statusSent s.status).getLsbD 0 = true ↔ 0#4 ≠ 0#4 by rw [hst]; decide
    statusLegal := .inr (.inr (.inl (show statusSent s.status = 0b0110#4 by rw [hst]; decide)))
    dirIff := ⟨nofun, fun hdrives => absurd ((State.drivesLine_iff _).1 hdrives).1 (show ¬ 9 ≤ (0#4).toNat by decide)⟩
    pullupEq := rfl
    txActiveSend := fun hactive => absurd hactive ha
    delayPhase := fun hdelaying => absurd hdelaying hd
    gateDelay := fun hdelaying => absurd hdelaying hd
    settleBegun := fun (hten : 0#4 = 10#4) => absurd hten (by decide)
    settleDelay := fun (hten : 0#4 = 10#4) => absurd hten (by decide) }

theorem reset (h : s.Inv) : (State.resetInput s).Inv :=
  { resetMeetsTheInvariant s.cfg h.cfgValid with nowBound := h.nowBound }

end State.Inv

/-! The changes one by one. -/

theorem Sends.inv {s t : State} (hx : Sends s t) (h : s.Inv) : t.Inv := by
  cases hx with
  | nothing => exact h
  | byte hv _ ht => exact h.byteTaken hv ht
  | done ha _ _ => exact h.sendDone ha _

theorem PhaseChange.inv {s t : State} (hx : PhaseChange s t) (h : s.Inv) : t.Inv := by
  cases hx with
  | idle _ => exact h
  | encoded m n v i c hs hc hm _ =>
    have hne (d : SeqCode) (hd : 7 ≤ d.toNat) : s.seq ≠ d := State.seq_ne (by omega)
    have hnext := seq_succ_toNat hc hs.2
    have ha := h.inactive (hne 9#4 (by decide))
    have hst := h.status_of_busy (h.busy_of_seq (State.seq_ne (show _ ≠ 0 by omega)))
    refine ((h.stored ha (hm h.cfgValid)).latched ha n v i).entered (show s.seq.toNat < 9 by omega)
      (h.not_delaying (hne 7#4 (by decide)) (hne 10#4 (by decide))) s.status c (by omega) (.inl ⟨hst, ?_⟩)
    rintro rfl
    simp at hnext
  | aborted hs _ =>
    have hst := h.status_of_busy (h.busy_of_seq (by rw [hs]; decide))
    exact h.entered (by rw [hs]; decide) (h.not_delaying (by rw [hs]; decide) (by rw [hs]; decide)) _ _ (by decide)
      (.inr ⟨by rw [hst]; decide, rfl⟩)
  | gateBegun hs _ he => exact h.gateBegun hs he
  | gateSkipped hs hd _ =>
    exact (h.sampled hd (by rw [hs]; decide) 0 (Nat.two_pow_pos _)).entered (by rw [hs]; decide) hd s.status 8#4
      (by decide) (.inl ⟨h.status_of_busy (h.busy_of_seq (by rw [hs]; decide)), by decide⟩)
  | delayHeld _ _ _ => exact h
  | delayEnded c hs hc _ _ =>
    rcases hs with hs | hs
    · rw [hs] at hc
      exact (h.gateEnded hs).entered (by rw [hs]; decide) rfl s.status c (by rw [hc]; decide)
        (.inl ⟨h.status_of_busy (h.busy_of_seq (by rw [hs]; decide)), by rw [hc]; decide⟩)
    · have hout : s.dir = .output := h.dir_output (by rw [hs]; decide)
      have hpull : s.pullup = s.cfg.pullupOut := by rw [h.pullupEq, if_pos hout]
      have := h.linePhase (.inr hs) c hc s.trace
      rwa [← hout, ← hpull] at this
  | dirOut hs =>
    have hd := h.not_delaying (by rw [hs]; decide) (by rw [hs]; decide)
    have := h.linePhase (.inl hs) 9#4 (by rw [hs]; rfl) (s.trace ++ [Event.dir s.now .output s.cfg.pullupOut])
    rwa [← hd] at this
  | sendBegun hs _ b hb => exact h.sendBegun hs hb
  | sendOffered _ ha hi _ b hb => exact { h with offered := fun _ => ⟨ha, hi, hb⟩, offering := fun _ _ => rfl }
  | sendHeld _ _ _ _ _ => exact h
  | sendWaits _ _ hi _ =>
    exact { h with offered := nofun, offering := fun _ hlt => absurd hlt (Nat.not_lt.2 hi) }
  | settleBegun hs hd => simp [h.settleBegun hs] at hd
  | settleSkipped hs hd => simp [h.settleBegun hs] at hd
  | dirIn hs => exact h.dirIn hs _

theorem Change.inv {s t : State} (hx : Change s t) (h : s.Inv) : t.Inv := by
  cases hx with
  | phase hx => exact hx.inv h
  | started hb r v =>
    have hs := h.seq_of_not_busy hb
    have hd := h.not_delaying (by rw [hs]; decide) (by rw [hs]; decide)
    exact { h.entered (by rw [hs]; decide) hd 0b0001#4 1#4 (by decide) (.inl ⟨rfl, by decide⟩) with }
  | ticked => exact h.ticked
  | outside answers draws count ready idle => exact h.outside answers draws count ready idle
  | fbWritten off b hb ho =>
    exact h.stored (h.inactive (by rw [h.seq_of_not_busy hb]; decide)) (Memory.Stores.none.write off b ho)
  | uidWritten u hb => exact { h with }
  | stampWritten v hb hv =>
    have hs := h.seq_of_not_busy hb
    exact
    { h with
      gateDelay := fun _ hseven => absurd (hs.symm.trans hseven) (by decide)
      rxEndBound := hv.elim id fun hnow => hnow ▸ h.nowBound }

/-- Settles O11: the serialiser's part of a step keeps the invariant, and so does the moving agent's change; reset meets
it anew. -/
theorem everyStepKeepsTheInvariant : Obligations.EveryStepKeepsTheInvariant := by
  intro s t h hstep
  rcases step_change hstep with ⟨-, rfl⟩ | ⟨u, hsends, hchange⟩
  · exact h.taken.reset
  · exact hchange.inv (hsends.inv h.taken)

/-! Runs. -/

/-- What every step keeps, a run keeps. -/
theorem runSteps_induction {P : State → Prop} (hP : ∀ s t, P s → step s = .next t → P t) :
    ∀ (k : Nat) (s t : State), P s → runSteps k s = .next t → P t
  | 0, _, _, hs, hrun => Host.Outcome.next.inj hrun ▸ hs
  | k + 1, s, t, hs, hrun => by
    unfold runSteps at hrun
    split at hrun
    · next u hu => exact runSteps_induction hP k u t (hP s u hs hu) hrun
    · cases hrun
    · cases hrun

/-- Settles O12: the invariant holds at reset, so it holds of every state a run reaches. -/
theorem reachableStatesMeetR52 : Obligations.ReachableStatesMeetR52 := by
  intro c moves k t hc hrun
  have hreset : ({ State.resetWith c with schedule := moves } : State).Inv := { resetMeetsTheInvariant c hc with }
  have h : t.Inv := runSteps_induction everyStepKeepsTheInvariant k _ t hreset hrun
  have hflags : ∀ v : BitVec 4, v = 0b0000#4 ∨ v = 0b0001#4 ∨ v = 0b0110#4 ∨ v = 0b1010#4 →
      ¬ (v.getLsbD 2 = true ∧ v.getLsbD 3 = true) ∧ ¬ (v.getLsbD 1 = true ∧ v.getLsbD 0 = true) := by decide
  exact ⟨h.busyIff, h.dirIff.1, fun hs => h.dir_input (by rw [hs]; decide), h.txActiveSend, hflags _ h.statusLegal⟩

/-! What no change but one kind touches. -/

theorem Sends.cfg_eq {s t : State} (hx : Sends s t) : t.cfg = s.cfg := by
  cases hx with
  | nothing => rfl
  | byte _ _ ht =>
    obtain ⟨b, -, hframe⟩ := handOver_frame ht
    rw [hframe]
  | done _ _ _ => rfl

theorem Change.cfg_eq {s t : State} (hx : Change s t) : t.cfg = s.cfg := by
  cases hx with
  | phase hx => cases hx <;> rfl
  | _ => rfl

theorem step_cfg {s t : State} (h : step s = .next t) : t.cfg = s.cfg := by
  rcases step_change h with ⟨-, rfl⟩ | ⟨u, hsends, hchange⟩
  · rfl
  · exact hchange.cfg_eq.trans hsends.cfg_eq

/-- Settles O13: no change writes a parameter. -/
theorem parametersNeverChange : Obligations.ParametersNeverChange := fun _ _ => step_cfg

end Sys2Proof.Machine
end

section
/-! Who writes NOW, the line and the trace (R36, R50, R176), and the phase graph (R121). -/

namespace Sys2Proof.Machine

/-! What each kind of change adds to the trace, and that NOW is the clock's. -/

theorem Sends.now_eq {s t : State} (hx : Sends s t) : t.now = s.now := by
  cases hx with
  | nothing => rfl
  | byte _ _ ht =>
    obtain ⟨b, -, hframe⟩ := handOver_frame ht
    rw [hframe]
  | done _ _ _ => rfl

/-- A byte taken is recorded, and so is the report; the line stays as it is. -/
theorem Sends.trace_eq {s t : State} (hx : Sends s t) :
    t.trace = s.trace ∨ (∃ k b, s.txValid = true ∧ t.trace = s.trace ++ [Event.tx s.now k b]) ∨
      t.trace = s.trace ++ [Event.txDone s.now] := by
  cases hx with
  | nothing => exact .inl rfl
  | byte hv _ ht =>
    obtain ⟨b, -, hframe⟩ := handOver_frame ht
    exact .inr (.inl ⟨s.idx.toNat, b, hv, by rw [hframe]⟩)
  | done _ _ _ => exact .inr (.inr rfl)

theorem Sends.line_eq {s t : State} (hx : Sends s t) : t.dir = s.dir ∧ t.pullup = s.pullup := by
  cases hx with
  | nothing => exact ⟨rfl, rfl⟩
  | byte _ _ ht =>
    obtain ⟨b, -, hframe⟩ := handOver_frame ht
    rw [hframe]
    exact ⟨rfl, rfl⟩
  | done _ _ _ => exact ⟨rfl, rfl⟩

theorem PhaseChange.now_eq {s t : State} (hx : PhaseChange s t) : t.now = s.now := by
  cases hx <;> rfl

/-- Apart from what SEND adds, the trace and the line are those of DIR_OUT and DIR_IN. -/
theorem PhaseChange.line_cases {s t : State} (hx : PhaseChange s t) :
    (t.trace = s.trace ∧ t.dir = s.dir ∧ t.pullup = s.pullup) ∨
    (s.seq = 8#4 ∧ t.trace = s.trace ++ [Event.dir s.now .output s.cfg.pullupOut]) ∨
    (s.seq = 11#4 ∧ t.trace = s.trace ++ [Event.dir s.now .input s.cfg.pullupIn]) := by
  cases hx with
  | dirOut hs => exact .inr (.inl ⟨hs, rfl⟩)
  | dirIn hs => exact .inr (.inr ⟨hs, rfl⟩)
  | _ => exact .inl ⟨rfl, rfl, rfl⟩

theorem Change.trace_cases {s t : State} (hx : Change s t) :
    t.trace = s.trace ∨ (s.seq = 8#4 ∧ t.trace = s.trace ++ [Event.dir s.now .output s.cfg.pullupOut]) ∨
    (s.seq = 11#4 ∧ t.trace = s.trace ++ [Event.dir s.now .input s.cfg.pullupIn]) := by
  cases hx with
  | phase hx => exact hx.line_cases.imp And.left id
  | _ => exact .inl rfl

theorem exec_phase_now {i : Instr} {s t : State} (hd : decodeSeq s.seq = .ok i) (hx : exec i s = .next t) :
    t.now = s.now :=
  (exec_phase_change hd hx).elim PhaseChange.now_eq fun h => h.2.2.now_eq

theorem State.startCommand_eq_or (s : State) (rtype : Byte) (value : Word16) :
    State.startCommand s rtype value = s ∨
      State.startCommand s rtype value =
        { s with cmdRtype := rtype, cmdValue := value, status := statusStarted, seq := 1#4 } := by
  cases hb : s.busy with
  | false => exact .inr (State.startCommand_idle s rtype value hb)
  | true => exact .inl (State.startCommand_busy s rtype value hb)

theorem HostEffect.frame {s t : State} (hx : HostEffect s t) :
    t.now = s.now ∧ t.trace = s.trace ∧ t.dir = s.dir ∧ t.pullup = s.pullup := by
  cases hx <;> exact ⟨rfl, rfl, rfl, rfl⟩

theorem State.startCommand_frame (s : State) (rtype : Byte) (value : Word16) :
    (State.startCommand s rtype value).now = s.now ∧ (State.startCommand s rtype value).trace = s.trace ∧
      (State.startCommand s rtype value).dir = s.dir ∧ (State.startCommand s rtype value).pullup = s.pullup := by
  rcases s.startCommand_eq_or rtype value with h | h <;> rw [h] <;> exact ⟨rfl, rfl, rfl, rfl⟩

/-- Settles O14: of all a step can be, only a tick moves NOW. -/
theorem onlyTheClockWritesNow : Obligations.OnlyTheClockWritesNow := by
  intro s t hstep
  refine ⟨fun htick => ?_, fun hne => ?_⟩
  · have hx : countTick s.taken = .next t :=
      (step_of_moved (State.schedule_eq_cons_tail htick) rfl).symm.trans hstep
    obtain ⟨u, hsends, ht⟩ := countTick_sends hx
    refine ⟨?_, fun hheld hunreported => ?_⟩
    · rw [ht, hsends.cfg_eq, hsends.now_eq]
      rfl
    · rcases countTick_next hx with ⟨hv, hr, -⟩ | ⟨ha, hv, hi, hidle, -⟩ | ⟨-, -, ht⟩
      · simp [State.taken, hheld hv] at hr
      · simp [State.taken, hunreported ha hv hi] at hidle
      · exact ht
  · cases step_effect hstep with
    | phase _ i hd hx => exact exec_phase_now (s := s.taken) hd hx
    | start w _ hx => rw [hx]; exact (State.startCommand_frame s.taken _ _).1
    | host _ _ hx => exact hx.frame.1
    | tick hm _ => exact absurd hm hne
    | pendingCount c _ hx => rw [hx]; rfl
    | txReady level _ hx =>
      obtain ⟨u, hsends, ht⟩ := driveReady_sends hx
      rw [ht]
      exact hsends.now_eq
    | txIdle level _ hx =>
      obtain ⟨u, hsends, ht⟩ := State.driveIdle_sends s.taken level
      rw [hx, ht]
      exact hsends.now_eq
    | reset _ hx => rw [hx]; rfl

/-- The line written, or a `Dir` event recorded, from `s` to `t` (R37, R38, R50). -/
def State.LineWritten (s t : State) : Prop :=
  t.dir ≠ s.dir ∨ t.pullup ≠ s.pullup ∨ ∃ u d p, t.trace = s.trace ++ [Event.dir u d p]

theorem State.not_lineWritten {s t : State} (htrace : t.trace = s.trace) (hdir : t.dir = s.dir)
    (hpullup : t.pullup = s.pullup) : ¬ s.LineWritten t := by
  rintro (h | h | ⟨u, d, p, h⟩)
  · exact h hdir
  · exact h hpullup
  · simp [htrace] at h

theorem Sends.not_lineWritten {s t : State} (hx : Sends s t) : ¬ s.LineWritten t := by
  rintro (h | h | ⟨u, d, p, h⟩)
  · exact h hx.line_eq.1
  · exact h hx.line_eq.2
  · rcases hx.trace_eq with h' | ⟨k, b, -, h'⟩ | h' <;> simp [h'] at h

/-- Settles O17: the serialiser records no `Dir` event, and no other agent's move touches the line. -/
theorem onlyTheDirectionPhasesWriteTheLine : Obligations.OnlyTheDirectionPhasesWriteTheLine := by
  intro s t hstep hline
  have hline : s.taken.LineWritten t := hline
  cases step_effect hstep with
  | phase hm i hd hx =>
    refine .inr ⟨hm, ?_⟩
    rcases exec_phase_change (s := s.taken) hd hx with hphase | ⟨-, -, hsends⟩
    · rcases hphase.line_cases with ⟨htrace, hdir, hpullup⟩ | ⟨hs, -⟩ | ⟨hs, -⟩
      · exact absurd hline (State.not_lineWritten htrace hdir hpullup)
      · exact .inl hs
      · exact .inr hs
    · exact absurd hline hsends.not_lineWritten
  | start w _ hx =>
    obtain ⟨-, htrace, hdir, hpullup⟩ := State.startCommand_frame s.taken (cmdRtypeField w) (cmdValueField w)
    exact absurd (hx ▸ hline) (State.not_lineWritten htrace hdir hpullup)
  | host _ _ hx =>
    obtain ⟨-, htrace, hdir, hpullup⟩ := hx.frame
    exact absurd hline (State.not_lineWritten htrace hdir hpullup)
  | tick _ hx =>
    obtain ⟨u, hsends, rfl⟩ := countTick_sends hx
    exact absurd hline hsends.not_lineWritten
  | pendingCount c _ hx => exact absurd (hx ▸ hline) (State.not_lineWritten rfl rfl rfl)
  | txReady level _ hx =>
    obtain ⟨u, hsends, rfl⟩ := driveReady_sends hx
    exact absurd hline hsends.not_lineWritten
  | txIdle level _ hx =>
    obtain ⟨u, hsends, ht⟩ := State.driveIdle_sends s.taken level
    obtain rfl := hx.trans ht
    exact absurd hline hsends.not_lineWritten
  | reset hm _ => exact .inl hm

/-! The phase graph. -/

theorem Sends.seq_cases {s t : State} (hx : Sends s t) : t.seq = s.seq ∨ (s.txActive = true ∧ t.seq = 10#4) := by
  cases hx with
  | nothing => exact .inl rfl
  | byte _ _ ht =>
    obtain ⟨b, -, hframe⟩ := handOver_frame ht
    exact .inl (by rw [hframe])
  | done ha _ _ => exact .inr ⟨ha, rfl⟩

/-- A phase past the encoder goes on to the next code. -/
theorem State.goesOn {s t : State} {c : SeqCode} (hs : s.seq = c) (ht : t.seq = c + 1#4)
    (hc : c ≠ 0#4 ∧ c ≠ 11#4 ∧ c ≠ 2#4) :
    t.seq = s.seq + 1#4 ∧ s.seq ≠ 0#4 ∧ s.seq ≠ 11#4 ∧ (s.seq = 2#4 → s.cfg.supports s.cmdRtype = true) := by
  obtain ⟨hidle, hdirIn, hdispatch⟩ := hc
  subst hs
  exact ⟨ht, hidle, hdirIn, fun h => absurd h hdispatch⟩

/-- Settles O18: each phase's change names the code it goes to. -/
theorem phasesFollowTheGraph : Obligations.PhasesFollowTheGraph := by
  intro i s t hd hx
  rcases exec_phase_change hd hx with hphase | ⟨hs, -, hsends⟩
  · cases hphase with
    | idle hs => exact .inl ⟨rfl, .inl hs⟩
    | encoded m n v k c hs hc _ hsup =>
      exact .inr (.inl ⟨hc, State.seq_ne (show _ ≠ 0 by omega), State.seq_ne (show _ ≠ 11 by omega), hsup⟩)
    | aborted hs hsup => exact .inr (.inr (.inr ⟨rfl, hs, hsup⟩))
    | gateBegun hs _ _ => exact .inl ⟨rfl, .inr (.inl hs)⟩
    | gateSkipped hs _ _ => exact .inr (.inl (State.goesOn hs rfl (by decide)))
    | delayHeld hs _ _ => exact .inl ⟨rfl, .inr (hs.imp id .inr)⟩
    | delayEnded c hs hc _ _ =>
      rcases hs with hs | hs <;> rw [hs] at hc <;> exact .inr (.inl (State.goesOn hs hc (by decide)))
    | dirOut hs => exact .inr (.inl (State.goesOn hs rfl (by decide)))
    | sendBegun hs _ b _ => exact .inl ⟨rfl, .inr (.inr (.inl hs))⟩
    | sendOffered hs _ _ _ b _ => exact .inl ⟨rfl, .inr (.inr (.inl hs))⟩
    | sendHeld hs _ _ _ _ => exact .inl ⟨rfl, .inr (.inr (.inl hs))⟩
    | sendWaits hs _ _ _ => exact .inl ⟨rfl, .inr (.inr (.inl hs))⟩
    | settleBegun hs _ => exact .inl ⟨rfl, .inr (.inr (.inr hs))⟩
    | settleSkipped hs _ => exact .inr (.inl (State.goesOn hs rfl (by decide)))
    | dirIn hs => exact .inr (.inr (.inl ⟨rfl, hs⟩))
  · rcases hsends.seq_cases with h | ⟨-, h⟩
    · exact .inl ⟨h, .inr (.inr (.inl hs))⟩
    · exact .inr (.inl (State.goesOn hs h (by decide)))

/-! The trace in time. -/

theorem State.TraceInTime.of_trace_eq {s t : State} (h : s.TraceInTime) (hnow : s.now ≤ t.now)
    (htrace : t.trace = s.trace) : t.TraceInTime := by
  obtain ⟨hsorted, hbound⟩ := h
  rw [State.TraceInTime, htrace]
  exact ⟨hsorted, fun e he => (hbound e he).trans hnow⟩

/-- An event stamped with NOW is not before any other. -/
theorem State.TraceInTime.of_trace_append {s t : State} {e : Event} (h : s.TraceInTime) (hnow : t.now = s.now)
    (he : e.time = s.now) (htrace : t.trace = s.trace ++ [e]) : t.TraceInTime := by
  obtain ⟨hsorted, hbound⟩ := h
  rw [State.TraceInTime, htrace, hnow]
  refine ⟨List.pairwise_append.2 ⟨hsorted, List.pairwise_singleton _ _, fun f hf g hg => ?_⟩, fun f hf => ?_⟩
  · rw [List.mem_singleton.1 hg, he]
    exact hbound f hf
  · rcases List.mem_append.1 hf with hf | hf
    · exact hbound f hf
    · rw [List.mem_singleton.1 hf, he]

theorem Sends.traceInTime {s t : State} (hx : Sends s t) (h : s.TraceInTime) : t.TraceInTime := by
  rcases hx.trace_eq with htrace | ⟨k, b, -, htrace⟩ | htrace
  · exact h.of_trace_eq hx.now_eq.ge htrace
  · exact h.of_trace_append hx.now_eq rfl htrace
  · exact h.of_trace_append hx.now_eq rfl htrace

theorem PhaseChange.traceInTime {s t : State} (hx : PhaseChange s t) (h : s.TraceInTime) : t.TraceInTime := by
  rcases hx.line_cases with ⟨htrace, -⟩ | ⟨-, htrace⟩ | ⟨-, htrace⟩
  · exact h.of_trace_eq hx.now_eq.ge htrace
  · exact h.of_trace_append hx.now_eq rfl htrace
  · exact h.of_trace_append hx.now_eq rfl htrace

theorem tickSucc_of_lt {w a : Nat} (h : a + 1 < 2 ^ w) : tickSucc w a = a + 1 := Nat.mod_eq_of_lt h

theorem Change.traceInTime {s t : State} (hx : Change s t) (h : s.TraceInTime) (hwrap : s.now + 1 < 2 ^ s.cfg.timeWidth) :
    t.TraceInTime := by
  cases hx with
  | phase hx => exact hx.traceInTime h
  | ticked => exact h.of_trace_eq (by rw [tickSucc_of_lt hwrap]; exact Nat.le_succ _) rfl
  | _ => exact h.of_trace_eq le_rfl rfl

/-- Settles O50: what is recorded is stamped with NOW, and NOW only grows. -/
theorem traceStampsNeverDecrease : Obligations.TraceStampsNeverDecrease := by
  intro s t h hwrap hstep
  have htaken : s.taken.TraceInTime := h
  rcases step_change hstep with ⟨-, rfl⟩ | ⟨u, hsends, hchange⟩
  · exact ⟨List.Pairwise.nil, nofun⟩
  · exact hchange.traceInTime (hsends.traceInTime htaken) (by rw [hsends.cfg_eq, hsends.now_eq]; exact hwrap)

end Sys2Proof.Machine
end

section
/-! The timing of the bus (R174, R180, R183): differences of time, the packet spacing, the settling delay. -/

namespace Sys2Proof.Machine

/-! Differences of time. -/

theorem tickSub_self (w a : Nat) : tickSub w a a = 0 := by
  have hlt := Nat.mod_lt a (Nat.two_pow_pos w)
  rw [tickSub, Nat.add_sub_cancel' hlt.le, Nat.mod_self]

/-- Settles O39: on W-bit values the modular difference has two cases, with and without a wrap in between. -/
theorem timeDifferencesAreModular : Obligations.TimeDifferencesAreModular := by
  intro w t n ht hn
  have hsum : (t + n) % 2 ^ w = if t + n < 2 ^ w then t + n else t + n - 2 ^ w := by
    split
    · next h => exact Nat.mod_eq_of_lt h
    · next h => rw [Nat.mod_eq_sub_mod (by omega), Nat.mod_eq_of_lt (by omega)]
  have hlt := Nat.mod_lt (t + n) (Nat.two_pow_pos w)
  rw [tickSub_eq hlt ht, tickSub_eq ht hlt, hsum]
  split_ifs <;> omega

namespace State

variable {s : State}

/-- A tick adds one to the ticks elapsed, until they wrap (R174). -/
theorem elapsed_ticked (h : s.Inv) (hwrap : s.elapsed + 1 < 2 ^ s.cfg.timeWidth) :
    State.elapsed { s with now := tickSucc s.cfg.timeWidth s.now } = s.elapsed + 1 :=
  tickSub_tickSucc h.nowBound h.rxEndBound hwrap

theorem waited_ticked (h : s.Inv) (hwrap : s.waited + 1 < 2 ^ s.cfg.timeWidth) :
    State.waited { s with now := tickSucc s.cfg.timeWidth s.now } = s.waited + 1 :=
  tickSub_tickSucc h.nowBound h.t0Bound hwrap

/-! The packet spacing. -/

/-- From DIR_OUT on the spacing has been waited out. -/
theorem SpacingKept.spacing_le (hk : s.SpacingKept) (h : s.Inv) (hs : 8 ≤ s.seq.toNat) : s.cfg.spacing ≤ s.elapsed := by
  by_cases hout : s.seq = 8#4
  · exact hk.2 (.inl hout)
  · have hne : s.seq.toNat ≠ 8 := fun h8 => hout (BitVec.eq_of_toNat_eq h8)
    exact hk.2 (.inr ((State.drivesLine_iff s).2 ⟨by omega, by have := h.seqCode; omega⟩))

theorem spacingKept_of_late (hs : 8 ≤ s.seq.toNat) (he : s.cfg.spacing ≤ s.elapsed) : s.SpacingKept :=
  ⟨fun hgate => absurd (hgate ▸ hs) (by decide), fun _ => he⟩

theorem not_late (hs : s.seq.toNat < 8) : ¬ (s.seq = 8#4 ∨ s.drivesLine) := by
  rintro (hout | hdrives)
  · rw [hout] at hs
    exact absurd hs (by decide)
  · have := (State.drivesLine_iff s).1 hdrives
    omega

theorem spacingKept_of_early (hs : s.seq.toNat < 8) (hd : s.delaying = false) : s.SpacingKept :=
  ⟨fun _ hdelaying => by simp [hd] at hdelaying, fun hlate => absurd hlate (not_late hs)⟩

end State

theorem Sends.spacingKept {s t : State} (hx : Sends s t) (h : s.Inv) (hk : s.SpacingKept) : t.SpacingKept := by
  cases hx with
  | nothing => exact hk
  | byte _ _ ht =>
    obtain ⟨b, -, hframe⟩ := handOver_frame ht
    rw [hframe]
    exact hk
  | done ha _ _ =>
    exact State.spacingKept_of_late (show 8 ≤ (10#4).toNat by decide)
      (hk.spacing_le h (by rw [h.txActiveSend ha]; decide))

/-- The ticks before and after GATE's sample make up the spacing when its delay ends (R173, R174). -/
theorem State.SpacingKept.spacing_le_of_gate {s : State} (hk : s.SpacingKept) (h : s.Inv) (hs : s.seq = 7#4)
    (hd : s.delaying = true) (hw : s.dly ≤ s.waited) : s.cfg.spacing ≤ s.elapsed := by
  obtain ⟨-, hdly⟩ := h.gateDelay hd hs
  have helapsed := hk.1 hs hd
  omega

theorem PhaseChange.spacingKept {s t : State} (hx : PhaseChange s t) (h : s.Inv) (hk : s.SpacingKept) :
    t.SpacingKept := by
  cases hx with
  | encoded m n v i c hs hc _ _ =>
    have hnext := seq_succ_toNat hc hs.2
    exact State.spacingKept_of_early (show c.toNat < 8 by omega) (h.not_delaying (State.seq_ne (show _ ≠ 7 by omega))
      (State.seq_ne (show _ ≠ 10 by omega)))
  | aborted hs _ =>
    exact State.spacingKept_of_early (show (0#4).toNat < 8 by decide)
      (h.not_delaying (by rw [hs]; decide) (by rw [hs]; decide))
  | gateBegun hs _ _ =>
    exact ⟨fun _ _ => (congrArg (s.elapsed + ·) (tickSub_self _ s.now)).symm,
      fun hlate => absurd hlate (State.not_late (show s.seq.toNat < 8 by rw [hs]; decide))⟩
  | gateSkipped _ _ he => exact State.spacingKept_of_late (show 8 ≤ (8#4).toNat by decide) he
  | delayEnded c hs hc hd hw =>
    rcases hs with hs | hs <;> rw [hs] at hc <;> subst hc
    · exact State.spacingKept_of_late (show 8 ≤ (7#4 + 1#4).toNat by decide) (hk.spacing_le_of_gate h hs hd hw)
    · exact State.spacingKept_of_late (show 8 ≤ (10#4 + 1#4).toNat by decide) (hk.spacing_le h (by rw [hs]; decide))
  | dirOut hs =>
    exact State.spacingKept_of_late (show 8 ≤ (9#4).toNat by decide) (hk.spacing_le h (by rw [hs]; decide))
  | settleBegun hs hd => simp [h.settleBegun hs] at hd
  | settleSkipped hs hd => simp [h.settleBegun hs] at hd
  | dirIn hs =>
    exact State.spacingKept_of_early (show (0#4).toNat < 8 by decide)
      (h.not_delaying (by rw [hs]; decide) (by rw [hs]; decide))
  | _ => exact hk

theorem Change.spacingKept {s t : State} (hx : Change s t) (h : s.Inv) (hk : s.SpacingKept)
    (hwrap : s.elapsed + 1 < 2 ^ s.cfg.timeWidth) : t.SpacingKept := by
  cases hx with
  | phase hx => exact hx.spacingKept h hk
  | started hb r v =>
    have hs := h.seq_of_not_busy hb
    exact State.spacingKept_of_early (show (1#4).toNat < 8 by decide)
      (h.not_delaying (by rw [hs]; decide) (by rw [hs]; decide))
  | ticked =>
    refine ⟨fun hs hd => ?_, fun hlate => ?_⟩
    · have helapsed := hk.1 hs hd
      rw [State.elapsed_ticked h hwrap, State.waited_ticked h (by omega), helapsed]
      exact Nat.add_assoc _ _ _
    · rw [State.elapsed_ticked h hwrap]
      exact (hk.2 hlate).trans (Nat.le_succ _)
  | stampWritten v hb _ =>
    have hs := h.seq_of_not_busy hb
    exact State.spacingKept_of_early (show s.seq.toNat < 8 by rw [hs]; decide)
      (h.not_delaying (by rw [hs]; decide) (by rw [hs]; decide))
  | _ => exact hk

theorem Sends.elapsed_eq {s t : State} (hx : Sends s t) : t.elapsed = s.elapsed := by
  cases hx with
  | nothing => rfl
  | byte _ _ ht =>
    obtain ⟨b, -, hframe⟩ := handOver_frame ht
    rw [hframe]
    rfl
  | done _ _ _ => rfl

/-- Settles O40: GATE's sample splits the elapsed ticks in two, and the clock adds to both sums alike. -/
theorem packetSpacingIsKept : Obligations.PacketSpacingIsKept := by
  intro s t h hk hwrap hstep
  rcases step_change hstep with ⟨-, rfl⟩ | ⟨u, hsends, hchange⟩
  · exact State.spacingKept_of_early (show (0#4).toNat < 8 by decide) rfl
  · refine hchange.spacingKept (hsends.inv h.taken) (hsends.spacingKept h.taken hk) ?_
    rw [hsends.elapsed_eq, hsends.cfg_eq]
    exact hwrap

/-! The settling delay. -/

theorem State.settlingKept_of_seq {s : State} {c : SeqCode} (hs : s.seq = c) (hc : c ≠ 10#4 ∧ c ≠ 11#4) :
    s.SettlingKept :=
  fun h => absurd h (not_or.2 (hs ▸ hc))

theorem State.Inv.handOver_seq {s t : State} (h : s.Inv) (hv : s.txValid = true) (ht : handOver s = .next t) :
    t.seq = 9#4 := by
  obtain ⟨hactive, -⟩ := h.offered hv
  obtain ⟨b, -, hframe⟩ := handOver_frame ht
  rw [hframe]
  exact h.txActiveSend hactive

theorem Sends.settlingKept {s t : State} (hx : Sends s t) (h : s.Inv) (hk : s.SettlingKept) : t.SettlingKept := by
  cases hx with
  | nothing => exact hk
  | byte hv _ ht => exact State.settlingKept_of_seq (h.handOver_seq hv ht) (by decide)
  | done _ _ _ => exact fun _ => ⟨⟨s.trace, rfl⟩, fun (hdirIn : 10#4 = 11#4) => absurd hdirIn (by decide)⟩

theorem PhaseChange.settlingKept {s t : State} (hx : PhaseChange s t) (h : s.Inv) (hk : s.SettlingKept) :
    t.SettlingKept := by
  cases hx with
  | encoded m n v i c hs hc _ _ =>
    have hnext := seq_succ_toNat hc hs.2
    exact State.settlingKept_of_seq rfl
      ⟨State.seq_ne (show c.toNat ≠ 10 by omega), State.seq_ne (show c.toNat ≠ 11 by omega)⟩
  | aborted _ _ => exact State.settlingKept_of_seq (c := 0#4) rfl (by decide)
  | gateBegun hs _ _ =>
    exact State.settlingKept_of_seq (c := 7#4) hs (by decide)
  | gateSkipped _ _ _ => exact State.settlingKept_of_seq (c := 8#4) rfl (by decide)
  | delayEnded c hs hc hd hw =>
    rcases hs with hs | hs <;> rw [hs] at hc <;> subst hc
    · exact State.settlingKept_of_seq (c := 7#4 + 1#4) rfl (by decide)
    · exact fun _ => ⟨(hk (.inl hs)).1, fun _ => (h.settleDelay hs) ▸ hw⟩
  | dirOut _ => exact State.settlingKept_of_seq (c := 9#4) rfl (by decide)
  | settleBegun hs hd => simp [h.settleBegun hs] at hd
  | settleSkipped hs hd => simp [h.settleBegun hs] at hd
  | dirIn _ => exact State.settlingKept_of_seq (c := 0#4) rfl (by decide)
  | _ => exact hk

theorem Change.settlingKept {s t : State} (hx : Change s t) (h : s.Inv) (hk : s.SettlingKept)
    (hwrap : s.seq = 11#4 → s.waited + 1 < 2 ^ s.cfg.timeWidth) : t.SettlingKept := by
  cases hx with
  | phase hx => exact hx.settlingKept h hk
  | started _ _ _ => exact State.settlingKept_of_seq (c := 1#4) rfl (by decide)
  | ticked =>
    refine fun hs => ⟨(hk hs).1, fun hdirIn => ?_⟩
    rw [State.waited_ticked h (hwrap hdirIn)]
    exact ((hk hs).2 hdirIn).trans (Nat.le_succ _)
  | _ => exact hk

/-- Settles O41: SEND's end records `TxDone` with T0, and DIR_IN is entered only when the delay from T0 is over. -/
theorem settlingDelayIsKept : Obligations.SettlingDelayIsKept := by
  intro s t h hk hwrap hstep
  rcases step_change hstep with ⟨-, rfl⟩ | ⟨u, hsends, hchange⟩
  · exact State.settlingKept_of_seq (c := 0#4) rfl (by decide)
  · refine hchange.settlingKept (hsends.inv h.taken) (hsends.settlingKept h.taken hk) fun hdirIn => ?_
    cases hsends with
    | nothing => exact hwrap hdirIn
    | byte hv _ ht =>
      exact absurd ((h.taken.handOver_seq hv ht).symm.trans hdirIn) (by decide)
    | done _ _ _ => exact absurd (show 10#4 = 11#4 from hdirIn) (by decide)

end Sys2Proof.Machine
end

section
/-! The events of a command (R183), and the document's properties of the trace (R127). -/

namespace Sys2Proof.Machine

namespace State

variable {s : State} {before : List Event}

/-- One more byte of the response (R177). -/
theorem ResponseEvents.snoc {n : Nat} {evs : List Event} {b : Byte} (h : s.ResponseEvents n evs)
    (hb : Memory.read s.fb n = some b) (u : Nat) : s.ResponseEvents (n + 1) (evs ++ [Event.tx u n b]) := by
  obtain ⟨t, sent, rfl, hlen, hsent⟩ := h
  refine ⟨t, sent ++ [Event.tx u n b], rfl, by rw [List.length_append, hlen]; rfl, fun k hk => ?_⟩
  by_cases hlast : k = n
  · refine ⟨u, b, ?_, hlast ▸ hb⟩
    rw [hlast, ← hlen, List.getElem?_concat_length]
  · obtain ⟨v, c, hc, hread⟩ := hsent k (by omega)
    exact ⟨v, c, by rw [List.getElem?_append_left (by omega), hc], hread⟩

/-! What a command's trace is in each part of its run: the other clauses ask nothing there. -/

namespace CommandTrace

theorem of_early (hpos : 1 ≤ s.seq.toNat) (hle : s.seq.toNat ≤ 8) (htrace : s.trace = before) : s.CommandTrace before where
  untilDirOut _ _ := htrace
  sending hs := absurd (hs ▸ hle) (by decide)
  settling hs := hs.elim (fun hs => absurd (hs ▸ hle) (by decide)) fun hs => absurd (hs ▸ hle) (by decide)
  returned hs := absurd (hs ▸ hpos) (by decide)
  abortedSilently hs := absurd (hs ▸ hpos) (by decide)

theorem of_send (hs : s.seq = 9#4) {evs : List Event} (htrace : s.trace = before ++ evs)
    (hevs : s.ResponseEvents (if s.txActive then s.idx.toNat else 0) evs) : s.CommandTrace before where
  untilDirOut _ hle := absurd (hs ▸ hle) (by decide)
  sending _ := ⟨evs, htrace, hevs⟩
  settling hs' := by rw [hs] at hs'; exact absurd hs' (by decide)
  returned hs' := absurd (hs.symm.trans hs') (by decide)
  abortedSilently hs' := absurd (hs.symm.trans hs') (by decide)

theorem of_settle (hs : s.seq = 10#4 ∨ s.seq = 11#4) {evs : List Event} {t : Nat}
    (htrace : s.trace = before ++ evs ++ [Event.txDone t]) (hevs : s.ResponseEvents (s.len.toNat + 2) evs) :
    s.CommandTrace before where
  untilDirOut _ hle := by rcases hs with hs | hs <;> exact absurd (hs ▸ hle) (by decide)
  sending hs' := by rw [hs'] at hs; exact absurd hs (by decide)
  settling _ := ⟨evs, t, htrace, hevs⟩
  returned hs' := by rw [hs'] at hs; exact absurd hs (by decide)
  abortedSilently hs' := by rw [hs'] at hs; exact absurd hs (by decide)

theorem of_idle (hs : s.seq = 0#4)
    (hsent : s.sent = true → ∃ evs t u, s.trace = before ++ evs ++ [Event.txDone t, Event.dir u .input s.cfg.pullupIn] ∧
      s.ResponseEvents (s.len.toNat + 2) evs)
    (haborted : s.aborted = true → s.trace = before) : s.CommandTrace before where
  untilDirOut hpos _ := absurd (hs ▸ hpos) (by decide)
  sending hs' := absurd (hs.symm.trans hs') (by decide)
  settling hs' := by rw [hs] at hs'; exact absurd hs' (by decide)
  returned _ := hsent
  abortedSilently _ := haborted

end CommandTrace

end State

theorem Sends.commandTrace {s t : State} {before : List Event} (hx : Sends s t) (h : s.Inv)
    (hk : s.CommandTrace before) : t.CommandTrace before := by
  cases hx with
  | nothing => exact hk
  | byte hv _ ht =>
    obtain ⟨hactive, hi, -⟩ := h.offered hv
    have hs := h.txActiveSend hactive
    obtain ⟨evs, htrace, hevs⟩ := hk.sending hs
    rw [if_pos hactive] at hevs
    obtain ⟨b, hb, hframe⟩ := handOver_frame ht
    rw [hframe]
    refine .of_send hs (evs := evs ++ [Event.tx s.now s.idx.toNat b]) ?_ ?_
    · change s.trace ++ _ = _
      rw [htrace, List.append_assoc]
    · change s.ResponseEvents (if s.txActive then (s.idx + 1#9).toNat else 0) _
      rw [if_pos hactive, State.idx_succ_toNat hi]
      exact hevs.snoc hb s.now
  | done hactive hi _ =>
    have hlast : s.idx.toNat = s.len.toNat + 2 := le_antisymm (h.idxBound hactive) hi
    obtain ⟨evs, htrace, hevs⟩ := hk.sending (h.txActiveSend hactive)
    rw [if_pos hactive, hlast] at hevs
    exact .of_settle (.inl rfl) (congrArg (· ++ [Event.txDone s.now]) htrace) hevs

theorem PhaseChange.commandTrace {s t : State} {before : List Event} (hx : PhaseChange s t) (h : s.Inv)
    (hk : s.CommandTrace before) : t.CommandTrace before := by
  cases hx with
  | encoded m n v i c hs hc _ _ =>
    have hnext := seq_succ_toNat hc hs.2
    exact .of_early (show 1 ≤ c.toNat by omega) (show c.toNat ≤ 8 by omega) (hk.untilDirOut hs.1 (by omega))
  | aborted hs _ =>
    have hst := h.status_of_busy (h.busy_of_seq (by rw [hs]; decide))
    refine .of_idle rfl (fun hsent => ?_) fun _ => hk.untilDirOut (by rw [hs]; decide) (by rw [hs]; decide)
    change (statusAborted s.status).getLsbD 2 = true at hsent
    rw [hst] at hsent
    exact absurd hsent (by decide)
  | gateSkipped hs _ _ =>
    exact .of_early (show 1 ≤ (8#4).toNat by decide) (show (8#4).toNat ≤ 8 by decide)
      (hk.untilDirOut (by rw [hs]; decide) (by rw [hs]; decide))
  | delayEnded c hs hc _ _ =>
    rcases hs with hs | hs <;> rw [hs] at hc <;> subst hc
    · exact .of_early (show 1 ≤ (7#4 + 1#4).toNat by decide) (show (7#4 + 1#4).toNat ≤ 8 by decide)
        (hk.untilDirOut (by rw [hs]; decide) (by rw [hs]; decide))
    · obtain ⟨evs, u, htrace, hevs⟩ := hk.settling (.inl hs)
      exact .of_settle (.inr rfl) htrace hevs
  | dirOut hs =>
    have ha : s.txActive = false := h.inactive (by rw [hs]; decide)
    have htrace : s.trace = before := hk.untilDirOut (by rw [hs]; decide) (by rw [hs]; decide)
    refine .of_send rfl (evs := [Event.dir s.now .output s.cfg.pullupOut]) (congrArg (· ++ _) htrace) ?_
    change s.ResponseEvents (if s.txActive then s.idx.toNat else 0) _
    rw [ha]
    exact ⟨s.now, [], rfl, rfl, nofun⟩
  | sendBegun hs ha b _ =>
    obtain ⟨evs, htrace, hevs⟩ := hk.sending hs
    rw [ha] at hevs
    exact .of_send hs htrace hevs
  | settleBegun hs hd => simp [h.settleBegun hs] at hd
  | settleSkipped hs hd => simp [h.settleBegun hs] at hd
  | dirIn hs =>
    have hst := h.status_of_busy (h.busy_of_seq (by rw [hs]; decide))
    obtain ⟨evs, u, htrace, hevs⟩ := hk.settling (.inr hs)
    refine .of_idle rfl (fun _ => ⟨evs, u, s.now, ?_, hevs⟩) fun haborted => ?_
    · change s.trace ++ _ = _
      rw [htrace, List.append_assoc]
      rfl
    · change (statusSent s.status).getLsbD 3 = true at haborted
      rw [hst] at haborted
      exact absurd haborted (by decide)
  | sendOffered hs _ _ _ b _ =>
    obtain ⟨evs, htrace, hevs⟩ := hk.sending hs
    exact .of_send hs htrace hevs
  | sendWaits hs _ _ _ =>
    obtain ⟨evs, htrace, hevs⟩ := hk.sending hs
    exact .of_send hs htrace hevs
  | gateBegun hs _ _ =>
    exact .of_early (show 1 ≤ s.seq.toNat by rw [hs]; decide) (show s.seq.toNat ≤ 8 by rw [hs]; decide)
      (hk.untilDirOut (by rw [hs]; decide) (by rw [hs]; decide))
  | idle _ => exact hk
  | delayHeld _ _ _ => exact hk
  | sendHeld _ _ _ _ _ => exact hk

theorem Sends.busy_eq {s t : State} (hx : Sends s t) : t.busy = s.busy := by
  cases hx with
  | nothing => rfl
  | byte _ _ ht =>
    obtain ⟨b, -, hframe⟩ := handOver_frame ht
    rw [hframe]
    rfl
  | done _ _ _ => rfl

/-- What a command has recorded does not rest on the clock, on the inputs or on what the host reads. -/
theorem State.CommandTrace.congr {s t : State} {before : List Event} (hk : s.CommandTrace before)
    (ht : t = { s with now := t.now, answers := t.answers, draws := t.draws, pendingCount := t.pendingCount,
                       txReady := t.txReady, txIdle := t.txIdle }) : t.CommandTrace before := by
  obtain ⟨hearly, hsending, hsettling, hreturned, haborted⟩ := hk
  rw [ht]
  exact ⟨hearly, hsending, hsettling, hreturned, haborted⟩

theorem Change.commandTrace {s t : State} {before : List Event} (hx : Change s t) (h : s.Inv) (hbusy : s.busy = true)
    (hk : s.CommandTrace before) : t.CommandTrace before := by
  cases hx with
  | phase hx => exact hx.commandTrace h hk
  | ticked => exact hk.congr rfl
  | outside answers draws count ready idle => exact hk.congr rfl
  | started hb _ _ => simp [hbusy] at hb
  | fbWritten _ _ hb _ => simp [hbusy] at hb
  | uidWritten _ hb => simp [hbusy] at hb
  | stampWritten _ hb _ => simp [hbusy] at hb

/-- Settles O49: each phase of a running command adds its own events, and nothing else adds any. -/
theorem commandAddsTheEventsOfR183 : Obligations.CommandAddsTheEventsOfR183 := by
  intro before s t h hbusy hne hk hstep
  have hk : s.taken.CommandTrace before := by
    obtain ⟨hearly, hsending, hsettling, hreturned, haborted⟩ := hk
    exact ⟨hearly, hsending, hsettling, hreturned, haborted⟩
  rcases step_change hstep with ⟨hreset, -⟩ | ⟨u, hsends, hchange⟩
  · exact absurd hreset hne
  · exact hchange.commandTrace (hsends.inv h.taken) (hsends.busy_eq.trans hbusy) (hsends.commandTrace h.taken hk)

/-! The document's properties of the trace. -/

/-- From `s` to `t` the trace is as it was, or has gained an event in time. -/
def State.RecordsInTime (s t : State) : Prop :=
  t.trace = s.trace ∨ ∃ e, t.trace = s.trace ++ [e] ∧ TimingProperty s e

theorem Sends.recordsInTime {s t : State} (hx : Sends s t) (h : s.Inv) (hk : s.SpacingKept) : s.RecordsInTime t := by
  rcases hx.trace_eq with htrace | ⟨k, b, hv, htrace⟩ | htrace
  · exact .inl htrace
  · obtain ⟨hactive, -⟩ := h.offered hv
    exact .inr ⟨_, htrace, hk.spacing_le h (by rw [h.txActiveSend hactive]; decide)⟩
  · exact .inr ⟨_, htrace, trivial⟩

theorem Change.recordsInTime {s t : State} (hx : Change s t) (h : s.Inv) (hk : s.SpacingKept) : s.RecordsInTime t := by
  rcases hx.trace_cases with htrace | ⟨hs, htrace⟩ | ⟨-, htrace⟩
  · exact .inl htrace
  · exact .inr ⟨_, htrace, hk.spacing_le h (by rw [hs]; decide)⟩
  · exact .inr ⟨_, htrace, trivial⟩

theorem Sends.timingProperty {s t : State} (hx : Sends s t) {e : Event} (he : TimingProperty t e) : TimingProperty s e := by
  cases hx with
  | nothing => exact he
  | byte _ _ ht =>
    obtain ⟨b, -, hframe⟩ := handOver_frame ht
    rw [hframe] at he
    exact he
  | done _ _ _ => exact he

theorem append_singleton_eq_iff {l : List Event} {e f : Event} : l ++ [e] = l ++ [f] ↔ e = f := by simp

/-- A step that adds one event adds it in time: bytes and the line's turn come from DIR_OUT on. -/
theorem timingProperty_of_step {s t : State} {e : Event} (h : s.Inv) (hk : s.SpacingKept) (hstep : step s = .next t)
    (he : t.trace = s.trace ++ [e]) : TimingProperty s e := by
  have h : s.taken.Inv := h.taken
  have hk : s.taken.SpacingKept := hk
  have he : t.trace = s.taken.trace ++ [e] := he
  rcases step_change hstep with ⟨-, rfl⟩ | ⟨u, hsends, hchange⟩
  · exact absurd he.symm (List.append_ne_nil_of_right_ne_nil _ (List.cons_ne_nil _ _))
  rcases hsends.recordsInTime h hk with hu | ⟨f, hu, hf⟩ <;>
    rcases hchange.recordsInTime (hsends.inv h) (hsends.spacingKept h hk) with ht | ⟨g, ht, hg⟩ <;> rw [ht, hu] at he
  · simp at he
  · exact append_singleton_eq_iff.1 he ▸ hsends.timingProperty hg
  · exact append_singleton_eq_iff.1 he ▸ hf
  · simp at he

/-- Settles O34: the abort by O30, the timing by the spacing kept, the direction by the invariant. -/
theorem traceMeetsTheDocumentsProperties : Obligations.TraceMeetsTheDocumentsProperties := by
  refine ⟨fun s t rtype value hidle hsup hrun => ?_, fun s t e h hk hstep he => timingProperty_of_step h hk hstep he,
    fun s t h hstep hidle _ => ?_⟩
  · obtain ⟨m, hrun', -⟩ := unknownTypeIsTheSilentAbort s rtype value hidle hsup
    obtain rfl := Host.Outcome.next.inj (hrun'.symm.trans hrun)
    exact ⟨⟨rfl, rfl, rfl⟩, show (0b1010#4).getLsbD 3 = true by decide⟩
  · have ht : t.Inv := everyStepKeepsTheInvariant s t h hstep
    exact ht.dir_input (by rw [ht.seq_of_not_busy hidle]; decide)

end Sys2Proof.Machine
end

section
/-! The bus phases as equations (42_bus_timing_tx.md), and what the serialiser's levels bring about in a tick (R178). -/

namespace Sys2Proof.Machine

/-! The delays of GATE and SETTLE (R172, R173, R180). -/

theorem State.beginDelay_zero (s : State) (phase : SeqCode) :
    State.beginDelay s 0 phase = { s with t0 := s.now, dly := 0, seq := phase } := rfl

theorem State.beginDelay_pos (s : State) {n : Nat} (hn : 0 < n) (phase : SeqCode) :
    State.beginDelay s n phase = { s with t0 := s.now, dly := n, delaying := true } :=
  if_neg (by omega)

theorem State.awaitDelay_of_le {s : State} (h : s.dly ≤ s.waited) (phase : SeqCode) :
    State.awaitDelay s phase = { s with delaying := false, seq := phase } :=
  if_pos h

theorem State.awaitDelay_of_lt {s : State} (h : s.waited < s.dly) (phase : SeqCode) : State.awaitDelay s phase = s :=
  if_neg (by omega)

theorem exec_gate_of_delaying {s : State} (hd : s.delaying = true) :
    exec .gate s = .next (State.awaitDelay s 8#4) :=
  if_pos hd

theorem exec_gate_of_early {s : State} (hd : s.delaying = false) (he : s.elapsed < s.cfg.spacing) :
    exec .gate s = .next (State.beginDelay s (s.cfg.spacing - s.elapsed) 8#4) := by
  change execGate s = _
  rw [execGate, if_neg (by simp [hd]), if_pos he]

theorem exec_gate_of_late {s : State} (hd : s.delaying = false) (he : s.cfg.spacing ≤ s.elapsed) :
    exec .gate s = .next (State.beginDelay s 0 8#4) := by
  change execGate s = _
  rw [execGate, if_neg (by simp [hd]), if_neg (by omega)]

/-- Settles O38: the two ways into the delay primitive, and the two ways out of its wait. -/
theorem gateWaitsOutTheSpacing : Obligations.GateWaitsOutTheSpacing := by
  refine fun s => ⟨fun hd he => ?_, fun hd he => ?_, fun hd hw => ?_, fun hd hw => ?_⟩
  · rw [exec_gate_of_early hd he, State.beginDelay_pos s (by omega)]
  · rw [exec_gate_of_late hd he, State.beginDelay_zero]
  · rw [exec_gate_of_delaying hd, State.awaitDelay_of_le hw]
  · rw [exec_gate_of_delaying hd, State.awaitDelay_of_lt hw]

theorem exec_settle_of_delaying {s : State} (hd : s.delaying = true) :
    exec .settle s = .next (State.awaitDelay s 11#4) :=
  if_pos hd

theorem exec_settle_of_entry {s : State} (hd : s.delaying = false) :
    exec .settle s = .next (State.beginDelay s s.cfg.dirSwitch 11#4) :=
  if_neg (by simp [hd])

/-- Settles O46: the same of SETTLE's delay. -/
theorem settleWaitsOutTheSwitchDelay : Obligations.SettleWaitsOutTheSwitchDelay := by
  refine fun s => ⟨fun hd hpos => ?_, fun hd hzero => ?_, fun hd hw => ?_, fun hd hw => ?_⟩
  · rw [exec_settle_of_entry hd, State.beginDelay_pos s hpos]
  · rw [exec_settle_of_entry hd, hzero, State.beginDelay_zero]
  · rw [exec_settle_of_delaying hd, State.awaitDelay_of_le hw]
  · rw [exec_settle_of_delaying hd, State.awaitDelay_of_lt hw]

/-! The line (R175, R182). -/

/-- Settles O43: DIR_OUT is one setting of the line. -/
theorem dirOutDrivesTheLine : Obligations.DirOutDrivesTheLine := fun _ => rfl

/-- Settles O47: DIR_IN is one setting of the line, and the flags of a command that has been sent. -/
theorem dirInRestoresTheLine : Obligations.DirInRestoresTheLine := by
  intro s
  obtain ⟨hbusy, hdone, hsent, haborted⟩ := statusSent_flags s.status
  exact ⟨statusSent s.status, rfl, hsent, hdone, hbusy, haborted⟩

/-! SEND (R177). -/

theorem offerByte_of_read {s : State} {b : Byte} (h : Memory.read s.fb s.idx.toNat = some b) :
    offerByte s = .next { s with txData := b, txValid := true } := by
  rw [offerByte, Memory.load_of_read h, withRead_ok]

theorem exec_send_entry {s : State} (ha : s.txActive = false) :
    exec .send s = offerByte { s with idx := 0#9, txActive := true } :=
  if_pos ha

/-- SEND while bytes are left. -/
theorem exec_send_of_lt {s : State} (ha : s.txActive = true) (hi : s.idx.toNat < s.len.toNat + 2) :
    exec .send s = if s.txValid = false then offerByte s else if s.txReady then handOver s else .next s := by
  change execSend s = _
  rw [execSend, if_neg (by simp [ha]), if_pos ((State.idx_lt_sendCount s).2 hi)]

/-- SEND after the last byte. -/
theorem exec_send_of_le {s : State} (ha : s.txActive = true) (hi : s.len.toNat + 2 ≤ s.idx.toNat) :
    exec .send s = if s.txIdle then .next (State.sendDone s) else .next { s with txValid := false } := by
  change execSend s = _
  rw [execSend, if_neg (by simp [ha]), if_neg (by rw [State.idx_lt_sendCount]; omega)]

theorem exec_send_offer {s : State} (ha : s.txActive = true) (hi : s.idx.toNat < s.len.toNat + 2) (hv : s.txValid = false) :
    exec .send s = offerByte s := by
  rw [exec_send_of_lt ha hi, if_pos hv]

theorem exec_send_handOver {s : State} (ha : s.txActive = true) (hi : s.idx.toNat < s.len.toNat + 2)
    (hv : s.txValid = true) (hr : s.txReady = true) : exec .send s = handOver s := by
  rw [exec_send_of_lt ha hi, if_neg (by simp [hv]), if_pos hr]

/-- Settles O44: one equation for each part of SEND. -/
theorem sendHandsOverByteByByte : Obligations.SendHandsOverByteByByte := by
  refine fun s b c => ⟨fun ha hb => ?_, fun ha hv hi hb => ?_, fun ha hv hr hi hb hc => ?_, fun ha hv hr hi hb => ?_,
    fun ha hv hr hi => ?_, fun ha hv hx hi => ?_, fun ha hx hi => ?_⟩
  · rw [exec_send_entry ha]
    exact offerByte_of_read hb
  · rw [exec_send_offer ha hi hv, offerByte_of_read hb]
  · rw [exec_send_handOver ha (by omega) hv hr, handOver_more hi hb hc, hv]
  · rw [exec_send_handOver ha (by omega) hv hr, handOver_last hi hb]
  · rw [exec_send_of_lt ha hi, if_neg (by simp [hv]), if_neg (by simp [hr])]
  · rw [exec_send_of_le ha hi, if_neg (by simp [hx]), ← hv]
  · rw [exec_send_of_le ha hi, if_pos hx]
    rfl

/-- What the five bus phases leave alone (R62, R79). -/
def State.FrameKept (s t : State) : Prop :=
  t.fb = s.fb ∧ t.len = s.len ∧ t.csum = s.csum ∧ t.cmdRtype = s.cmdRtype ∧ t.cmdValue = s.cmdValue ∧
    t.ownUid = s.ownUid ∧ t.rxEndTs = s.rxEndTs ∧ t.pendingCount = s.pendingCount ∧ t.now = s.now

theorem execGate_frameKept {s t : State} (h : execGate s = .next t) : s.FrameKept t := by
  rcases execGate_next h with ⟨-, -, rfl⟩ | ⟨-, -, rfl⟩ | ⟨-, -, rfl⟩ | ⟨-, -, rfl⟩ <;>
    exact ⟨rfl, rfl, rfl, rfl, rfl, rfl, rfl, rfl, rfl⟩

theorem execSettle_frameKept {s t : State} (h : execSettle s = .next t) : s.FrameKept t := by
  rcases execSettle_next h with ⟨-, -, rfl⟩ | ⟨-, -, rfl⟩ | ⟨-, -, rfl⟩ | ⟨-, -, rfl⟩ <;>
    exact ⟨rfl, rfl, rfl, rfl, rfl, rfl, rfl, rfl, rfl⟩

theorem execSend_frameKept {s t : State} (h : execSend s = .next t) : s.FrameKept t := by
  rcases execSend_next h with ⟨-, b, -, rfl⟩ | ⟨-, -, -, b, -, rfl⟩ |
    ⟨-, -, -, -, b, -, ⟨-, c, -, rfl⟩ | ⟨-, rfl⟩⟩ | ⟨-, -, -, -, rfl⟩ | ⟨-, -, -, rfl⟩ | ⟨-, -, -, rfl⟩ <;>
    exact ⟨rfl, rfl, rfl, rfl, rfl, rfl, rfl, rfl, rfl⟩

/-- Settles O48: phase by phase, from what each can answer. -/
theorem busPhasesLeaveTheFrameAlone : Obligations.BusPhasesLeaveTheFrameAlone := by
  intro i s t hi hx
  simp only [List.mem_cons, List.not_mem_nil, or_false] at hi
  rcases hi with rfl | rfl | rfl | rfl | rfl
  · exact execGate_frameKept hx
  · obtain rfl := execDirOut_next hx
    exact ⟨rfl, rfl, rfl, rfl, rfl, rfl, rfl, rfl, rfl⟩
  · exact execSend_frameKept hx
  · exact execSettle_frameKept hx
  · obtain rfl := execDirIn_next hx
    exact ⟨rfl, rfl, rfl, rfl, rfl, rfl, rfl, rfl, rfl⟩

/-! A tick, and a level that falls. -/

theorem countTick_of_handOver {s t : State} (hv : s.txValid = true) (hr : s.txReady = true) (h : handOver s = .next t) :
    countTick s = .next { t with now := tickSucc t.cfg.timeWidth t.now } := by
  obtain ⟨b, -, hframe⟩ := handOver_frame h
  have hidle : t.txIdle = false := by rw [hframe]
  rw [countTick, takeOffered_ready hv hr, h, mapNext, State.seeReport_of_busy hidle]

theorem countTick_of_held {s : State} (h : s.txValid = true → s.txReady = false) :
    countTick s =
      .next { State.seeReport s with now := tickSucc (State.seeReport s).cfg.timeWidth (State.seeReport s).now } := by
  rw [countTick, takeOffered_held h, mapNext]

theorem driveReady_of_handOver {s t : State} (hv : s.txValid = true) (hr : s.txReady = true) (h : handOver s = .next t) :
    driveReady s false = .next { t with txReady := false } := by
  rw [driveReady, if_neg Bool.false_ne_true, takeOffered_ready hv hr, h, mapNext]

/-- The fault of a hand-over is the fault of the move that brings it. -/
theorem fault_of_handOver {s : State} {e : Fault} (hv : s.txValid = true) (hr : s.txReady = true)
    (h : handOver s = .fault e) : countTick s = .fault e ∧ driveReady s false = .fault e := by
  rw [countTick, driveReady, if_neg Bool.false_ne_true, takeOffered_ready hv hr, h]
  exact ⟨rfl, rfl⟩

/-- Settles O15: a tick and the fall of `tx_ready` bring SEND's own hand-over. -/
theorem offeredByteIsTakenInItsTick : Obligations.OfferedByteIsTakenInItsTick := by
  intro s rest b c hv hr hb
  refine ⟨fun hi hc => ?_, fun hi => ?_, fun hi hc hs => ?_, fun h => ?_⟩
  · have hover := handOver_more (s := { s with schedule := rest }) hi hb hc
    refine ⟨fun hs => ?_, fun hs => ?_⟩
    · rw [step_of_moved hs rfl, countTick_of_handOver (s := { s with schedule := rest }) hv hr hover, hv]
      rfl
    · rw [step_of_moved hs rfl, driveReady_of_handOver (s := { s with schedule := rest }) hv hr hover, hv]
  · have hover := handOver_last (s := { s with schedule := rest }) hi hb
    refine ⟨fun hs => ?_, fun hs => ?_⟩
    · rw [step_of_moved hs rfl, countTick_of_handOver (s := { s with schedule := rest }) hv hr hover]
      rfl
    · rw [step_of_moved hs rfl, driveReady_of_handOver (s := { s with schedule := rest }) hv hr hover]
  · obtain ⟨htick, hready⟩ := fault_of_handOver (s := { s with schedule := rest }) hv hr (handOver_unwritten hi hb hc)
    rcases hs with hs | hs
    · rw [step_of_moved hs rfl, htick]
    · rw [step_of_moved hs rfl, hready]
  · obtain ⟨-, -, hoffered⟩ := h.offered hv
    exact Option.some.inj (hb.symm.trans hoffered)

theorem State.seeReport_of_over {s : State} (ha : s.txActive = true) (hv : s.txValid = false)
    (hi : s.len.toNat + 2 ≤ s.idx.toNat) (hx : s.txIdle = true) : State.seeReport s = State.sendDone s :=
  if_pos ⟨ha, hv, by rw [BitVec.le_def, State.sendCount_toNat]; exact hi, hx⟩

/-- Settles O16: the report is seen, and then the tick counts or the level falls. -/
theorem reportedEndIsSeenInItsTick : Obligations.ReportedEndIsSeenInItsTick := by
  intro s rest ha hv hi hx
  have hsee := State.seeReport_of_over (s := { s with schedule := rest }) ha hv hi hx
  refine ⟨fun hs => ?_, fun hs => ?_⟩
  · rw [step_of_moved hs rfl, countTick_of_held (by simp [hv]), hsee, hv]
    rfl
  · rw [step_of_moved hs rfl, State.driveIdle, if_neg Bool.false_ne_true, hsee, hv]
    rfl

/-! GATE over a run of ticks (R171). -/

/-- With nothing being sent a tick counts and does nothing else. -/
theorem countTick_of_inactive {s : State} (h : s.Inv) (ha : s.txActive = false) :
    countTick s = .next { s with now := tickSucc s.cfg.timeWidth s.now } := by
  rw [countTick_of_held (by simp [h.not_offering ha]), State.seeReport_of_inactive ha]

/-- Settles O42: by induction on the ticks, each of which adds one to the ticks waited. -/
theorem gateEndsOnceTheClockHasTicked : Obligations.GateEndsOnceTheClockHasTicked := by
  intro s n
  induction n generalizing s with
  | zero =>
    intro h hseq hd _ hle hs
    have hstep := (step_sequencer (i := .gate) hs (by rw [hseq]; rfl)).trans
      ((exec_gate_of_delaying (s := { s with schedule := [] }) hd).trans
        (congrArg Host.Outcome.next (State.awaitDelay_of_le (s := { s with schedule := [] }) hle 8#4)))
    exact ⟨_, runSteps_cons hstep 0, rfl, (Nat.mod_eq_of_lt h.nowBound).symm, rfl⟩
  | succ n ih =>
    intro h hseq hd hlt hle hs
    have ha : s.txActive = false := h.inactive (by rw [hseq]; decide)
    have hstep := (step_of_moved hs rfl).trans
      (countTick_of_inactive (s := { s with schedule := List.replicate n .tick ++ [.sequencer] }) { h with } ha)
    have hwaited : State.waited { s with now := tickSucc s.cfg.timeWidth s.now } + n = s.waited + (n + 1) := by
      rw [State.waited_ticked h (by omega), Nat.add_assoc, Nat.add_comm 1]
    obtain ⟨t, hrun, htseq, htnow, htfb⟩ := ih _ (everyStepKeepsTheInvariant _ _ h hstep) hseq hd
      (lt_of_eq_of_lt hwaited hlt) (le_of_le_of_eq hle hwaited.symm) rfl
    refine ⟨t, (runSteps_cons hstep _).trans hrun, htseq, htnow.trans ?_, htfb⟩
    change ((s.now + 1) % 2 ^ s.cfg.timeWidth + n) % 2 ^ s.cfg.timeWidth = _
    rw [Nat.mod_add_mod, Nat.add_assoc, Nat.add_comm 1]

/-! SEND with a serialiser that stays ready (R177). -/

/-- SEND under way, byte IDX offered to a serialiser that is ready, over a frame whose bytes are `b`. -/
def State.HandsOver (s : State) (b : Nat → Byte) : Prop :=
  s.seq = 9#4 ∧ s.schedule = [] ∧ s.txActive = true ∧ s.txValid = true ∧ s.txReady = true ∧
    ∀ k, k < s.len.toNat + 2 → Memory.read s.fb k = some (b k)

theorem sentBytes_append_tx (trace : List Event) (u k : Nat) (b : Byte) :
    sentBytes (trace ++ [Event.tx u k b]) = sentBytes trace ++ [(k, b)] := by
  rw [sentBytes, List.filterMap_append]
  rfl

/-- What SEND has done `t` when it has handed over the last `n` bytes from `s` on. -/
def State.HandedOver (s t : State) (b : Nat → Byte) (n : Nat) : Prop :=
  sentBytes t.trace = sentBytes s.trace ++ (List.range' s.idx.toNat n).map (fun k => (k, b k)) ∧ t.fb = s.fb ∧
    t.len = s.len ∧ t.seq = 9#4 ∧ t.txActive = true ∧ t.txValid = false ∧ t.idx.toNat = s.len.toNat + 2

theorem State.HandsOver.step_eq {s : State} {b : Nat → Byte} (h : s.HandsOver b) (hi : s.idx.toNat < s.len.toNat + 2) :
    step s = handOver s := by
  obtain ⟨hseq, hs, ha, hv, hr, -⟩ := h
  rw [step_of_nil (i := .send) hs (by rw [hseq]; rfl), exec_send_handOver ha hi hv hr]

/-- A byte handed over with another to follow. -/
theorem State.HandsOver.more {s : State} {b : Nat → Byte} (h : s.HandsOver b) (hi : s.idx.toNat + 1 < s.len.toNat + 2) :
    ∃ u, step s = .next u ∧ u.HandsOver b ∧ u.idx.toNat = s.idx.toNat + 1 ∧ u.len = s.len ∧ u.fb = s.fb ∧
      sentBytes u.trace = sentBytes s.trace ++ [(s.idx.toNat, b s.idx.toNat)] := by
  have hstep := h.step_eq (by omega)
  obtain ⟨hseq, hs, ha, -, hr, hb⟩ := h
  rw [handOver_more hi (hb _ (by omega)) (hb _ hi)] at hstep
  exact ⟨_, hstep, ⟨hseq, hs, ha, rfl, hr, hb⟩, State.idx_succ_toNat (by omega), rfl, rfl, sentBytes_append_tx _ _ _ _⟩

theorem runSteps_handsOver (b : Nat → Byte) : ∀ (n : Nat) (s : State), s.HandsOver b →
    s.idx.toNat + (n + 1) = s.len.toNat + 2 → ∃ t, runSteps (n + 1) s = .next t ∧ s.HandedOver t b (n + 1)
  | 0, s, h, hn => by
    have hstep := h.step_eq (by omega)
    obtain ⟨hseq, -, ha, -, -, hb⟩ := h
    rw [handOver_last hn (hb _ (by omega))] at hstep
    exact ⟨_, runSteps_cons hstep 0, sentBytes_append_tx _ _ _ _, rfl, rfl, hseq, ha, rfl,
      (State.idx_succ_toNat (by omega)).trans hn⟩
  | n + 1, s, h, hn => by
    obtain ⟨u, hstep, hu, hidx, hlen, hfb, hsent⟩ := h.more (by omega)
    obtain ⟨t, hrun, ht⟩ := runSteps_handsOver b n u hu (by rw [hidx, hlen]; omega)
    refine ⟨t, (runSteps_cons hstep _).trans hrun, ?_⟩
    unfold State.HandedOver at ht ⊢
    rw [hsent, hidx, hlen, hfb, List.append_assoc] at ht
    exact ht

/-- Settles O45: SEND's entry offers byte 0, and every further step hands over one byte. -/
theorem sendSendsTheWholeFrameInOrder : Obligations.SendSendsTheWholeFrameInOrder := by
  intro s b hseq hs ha hr hb
  have hstep := (step_of_nil (i := .send) hs (by rw [hseq]; rfl)).trans ((exec_send_entry ha).trans
    (offerByte_of_read (s := { s with idx := 0#9, txActive := true }) (hb 0 (by omega))))
  obtain ⟨t, hrun, ht⟩ := runSteps_handsOver b (s.len.toNat + 1)
    { s with idx := 0#9, txActive := true, txData := b 0, txValid := true } ⟨hseq, hs, rfl, rfl, hr, hb⟩ (Nat.zero_add _)
  rw [List.range_eq_range']
  exact ⟨t, (runSteps_cons hstep _).trans hrun, ht⟩

end Sys2Proof.Machine
end

section
/-! The frame encoder as a whole (41_frame_encoder.md, R126): what STAMP and DISPATCH leave in FB, and the frame that the
other four phases make of it. `Respond` and the phases are the same function of FB. -/

namespace Sys2Proof.Machine

/-! A reading phase in a sequence of phases. -/

theorem withRead_bind {α β : Type} (r : Except Fault α) (f : α → Except Fault β) (k : β → Result) :
    withRead (r >>= f) k = withRead r fun a => withRead (f a) k := by
  cases r <;> rfl

theorem mapNext_withRead {α : Type} (f : State → State) (r : Except Fault α) (k : α → Result) :
    mapNext f (withRead r k) = withRead r fun a => mapNext f (k a) := by
  cases r <;> rfl

theorem execAll_cons_withRead {α : Type} {i : Instr} {s : State} {r : Except Fault α} {f : α → State}
    (h : exec i s = withRead r fun a => .next (f a)) (rest : List Instr) :
    execAll (i :: rest) s = withRead r fun a => execAll rest (f a) := by
  rw [execAll, h]
  cases r <;> rfl

/-! The frame. -/

/-- FB after STAMP and DISPATCH, for a supported type (R141, R142). -/
def Memory.dispatched (c : Config) (fb : Memory) (rtype : Byte) (value : Word16) (count : Byte) : Memory :=
  if rtype = c.rtAck then Memory.write (Memory.write fb c.offMc count) c.offRt c.rtAck
  else Memory.storeValueResponse c (Memory.write fb c.offMc count) rtype value

/-- LEN, CSUM and FB after SWAP, CLASS, CSUM and APPEND, from FB as DISPATCH leaves it (R143 to R147). -/
def encodeFrame (c : Config) (fb : Memory) (u : Uid) : Except Fault (Byte × Word16 × Memory) := do
  let len ← Memory.load fb c.offMl
  let swapped ← Memory.swapUid c u Config.uidSize 0 fb
  let class' ← Memory.load swapped c.offCc
  let summed := Memory.write swapped c.offCc (class' + 1#8)
  let sum ← Memory.sum summed len.toNat 0 0#16
  return (len, sum, Memory.write16be summed len.toNat sum)

/-- The state that the encoder leaves (R126). -/
def State.encoded (s : State) (frame : Byte × Word16 × Memory) : State :=
  { s with fb := frame.2.2, len := frame.1, csum := frame.2.1, idx := frame.1.setWidth 9, seq := 7#4 }

/-- What the six phases make of FB in state `s`. -/
def State.frame (s : State) : Except Fault (Byte × Word16 × Memory) :=
  encodeFrame s.cfg (Memory.dispatched s.cfg s.fb s.cmdRtype s.cmdValue s.pendingCount) s.ownUid

theorem Config.supports_cases {c : Config} {r : Byte} (h : c.supports r = true) :
    r = c.rtAck ∨ (r ≠ c.rtAck ∧ (r = c.rtAckTimer ∨ r = c.rtNackReason)) := by
  by_cases hack : r = c.rtAck
  · exact .inl hack
  · exact .inr ⟨hack, by simpa [Config.supports, hack] using h⟩

/-- DISPATCH after STAMP. -/
theorem exec_dispatch_stamped {s : State} (h : s.cfg.supports s.cmdRtype = true) :
    exec .dispatch { s with fb := Memory.write s.fb s.cfg.offMc s.pendingCount, seq := 2#4 } = withRead
      (Memory.load (Memory.dispatched s.cfg s.fb s.cmdRtype s.cmdValue s.pendingCount) s.cfg.offMl) fun n =>
        .next { s with fb := Memory.dispatched s.cfg s.fb s.cmdRtype s.cmdValue s.pendingCount, len := n, seq := 3#4 } := by
  rcases Config.supports_cases h with hack | ⟨hack, hvalue⟩
  · rw [Memory.dispatched, if_pos hack]
    exact if_pos hack
  · rw [Memory.dispatched, if_neg hack]
    exact (if_neg hack).trans (if_pos hvalue)

theorem exec_csum (s : State) :
    exec .csum s = withRead (Memory.sum s.fb s.len.toNat 0 0#16) fun v =>
      .next { s with csum := v, idx := s.len.setWidth 9, seq := 6#4 } := by
  change execCsum s = _
  rw [execCsum, State.lenIndex_toNat]
  rfl

/-- The six phases one after another. -/
theorem execAll_encoderPhases {s : State} (h : s.cfg.supports s.cmdRtype = true) :
    execAll encoderPhases s = withRead s.frame fun frame => .next (s.encoded frame) := by
  rw [encoderPhases, execAll_cons_next (exec_stamp s), execAll_cons_withRead (exec_dispatch_stamped h),
    State.frame, encodeFrame, withRead_bind]
  refine congrArg _ (funext fun n => ?_)
  rw [execAll_cons_withRead (i := .swap) rfl, withRead_bind]
  refine congrArg _ (funext fun swapped => ?_)
  rw [execAll_cons_withRead (i := .classAdvance) rfl, withRead_bind]
  refine congrArg _ (funext fun class' => ?_)
  rw [execAll_cons_withRead (exec_csum _), withRead_bind]
  refine congrArg _ (funext fun v => ?_)
  rw [execAll_cons_next (exec_append _)]
  rfl

/-- `Respond` on a supported type: the same frame, and its bytes. -/
theorem respond_supported {c : Config} {rtype : Byte} (h : c.supports rtype = true) (fb : Memory) (value : Word16)
    (u : Uid) (count : Byte) :
    respond c fb rtype value u count =
      encodeFrame c (Memory.dispatched c fb rtype value count) u >>= fun frame => do
        let sent ← Memory.bytes frame.2.2 (frame.1.toNat + 2) 0
        return (frame.2.2, some sent) := by
  have hfrom (m : Memory) : respondFrom c m u = encodeFrame c m u >>= fun frame => do
      let sent ← Memory.bytes frame.2.2 (frame.1.toNat + 2) 0
      return (frame.2.2, some sent) := by
    simp only [respondFrom, encodeFrame, bind_assoc, pure_bind]
  rcases Config.supports_cases h with hack | ⟨hack, hvalue⟩
  · rw [respond, if_pos hack, Memory.dispatched, if_pos hack]
    exact hfrom _
  · rw [respond, if_neg hack, if_pos hvalue, Memory.dispatched, if_neg hack]
    exact hfrom _

end Sys2Proof.Machine
end

section
/-! The bytes of the response frame (R126, R127, R144 to R150), and where the encoder stops (R80, R237). -/

namespace Sys2Proof.Machine

/-! The sum. -/

/-- The sum of bytes as 16-bit words, before it is reduced: at most 255 times 255 (R148). -/
theorem sum_bytes_lt (b : Nat → Byte) {n : Nat} (hn : n ≤ 255) : ((List.range n).map fun a => (b a).toNat).sum < 2 ^ 16 := by
  have hle : ((List.range n).map fun a => (b a).toNat).sum ≤ ((List.range n).map fun a => (b a).toNat).length • 255 :=
    List.sum_le_card_nsmul _ _ fun x hx => by
      obtain ⟨a, -, rfl⟩ := List.mem_map.1 hx
      exact Nat.le_of_lt_succ (b a).isLt
  rw [List.length_map, List.length_range, smul_eq_mul] at hle
  omega

/-- CSUM over bytes that have all been written (R146). -/
theorem Memory.sum_zero_of_read {m : Memory} {b : Nat → Byte} {n : Nat} (hb : ∀ a, a < n → Memory.read m a = some (b a)) :
    Memory.sum m n 0 0#16 = .ok (BitVec.ofNat 16 ((List.range n).map fun a => (b a).toNat).sum) := by
  rw [Memory.sum_of_read m b n 0 0#16 fun k hk => by rw [Nat.zero_add]; exact hb k hk, List.range_eq_range',
    BitVec.zero_add]

/-- Settles O26: the sum reduced to 16 bits is the sum, since it is below 2^16. -/
theorem csumIsTheSumOfTheMessage : Obligations.CsumIsTheSumOfTheMessage := by
  intro s b hb
  have hlt := sum_bytes_lt b (n := s.len.toNat) (Nat.le_of_lt_succ s.len.isLt)
  refine ⟨_, ?_, (BitVec.toNat_ofNat _ _).trans (Nat.mod_eq_of_lt hlt)⟩
  rw [exec_csum, Memory.sum_zero_of_read hb, withRead_ok]

/-! FB after DISPATCH. -/

section
variable {c : Config} {rtype : Byte}

theorem Memory.read_dispatched_ack (h : rtype = c.rtAck) (fb : Memory) (value : Word16) (count : Byte) (a : Nat) :
    Memory.read (Memory.dispatched c fb rtype value count) a =
      if a = c.offRt then some rtype else if a = c.offMc then some count else Memory.read fb a := by
  rw [Memory.dispatched, if_pos h, Memory.read_write, Memory.read_write, h]

theorem Memory.read_dispatched_value (hc : c.valid = true) (h : rtype ≠ c.rtAck) (fb : Memory) (value : Word16)
    (count : Byte) (a : Nat) :
    Memory.read (Memory.dispatched c fb rtype value count) a =
      if a = c.offMl then some c.valueLength else if a = c.offRt then some rtype
      else if a = c.offPdl then some 2#8 else if a = c.offPd then some (hi8 value)
      else if a = c.offPd + 1 then some (lo8 value) else if a = c.offMc then some count else Memory.read fb a := by
  rw [Memory.dispatched, if_neg h, Memory.read_storeValueResponse_of_valid hc, Memory.read_write]

theorem Memory.stores_dispatched (hc : c.valid = true) (fb : Memory) (value : Word16) (count : Byte) :
    Memory.Stores c fb (Memory.dispatched c fb rtype value count) := by
  have := Config.layout_of_valid hc
  have hstamp : Memory.Stores c fb (Memory.write fb c.offMc count) := .write .none _ _ (by omega)
  unfold Memory.dispatched
  split
  · exact hstamp.write _ _ (by omega)
  · exact hstamp.trans (.storeValueResponse hc _ _ _)

/-- The length byte after DISPATCH is the length `len` of R126. -/
theorem Memory.read_dispatched_length (hc : c.valid = true) (fb : Memory) (value : Word16) (count : Byte) :
    Memory.read (Memory.dispatched c fb rtype value count) c.offMl = responseLength c fb rtype := by
  have := Config.layout_of_valid hc
  unfold responseLength
  split
  · next h => rw [Memory.read_dispatched_ack h, if_neg (by omega), if_neg (by omega)]
  · next h => rw [Memory.read_dispatched_value hc h, if_pos rfl]

end

/-! The frame, where there is one. -/

/-- What SWAP, CLASS, CSUM and APPEND make of FB, phase by phase. -/
structure EncodesFrame (c : Config) (fb : Memory) (u : Uid) (len : Byte) (sum : Word16) (m : Memory) : Prop where
  length : Memory.read fb c.offMl = some len
  steps : ∃ swapped b, Memory.swapUid c u 6 0 fb = .ok swapped ∧ Memory.read swapped c.offCc = some b ∧
    Memory.sum (Memory.write swapped c.offCc (b + 1#8)) len.toNat 0 0#16 = .ok sum ∧
    m = Memory.write16be (Memory.write swapped c.offCc (b + 1#8)) len.toNat sum

theorem except_bind_ok {α β : Type} {r : Except Fault α} {f : α → Except Fault β} {b : β} (h : r >>= f = .ok b) :
    ∃ a, r = .ok a ∧ f a = .ok b := by
  cases r with
  | ok a => exact ⟨a, rfl, h⟩
  | error e => cases h

theorem encodesFrame_of_ok {c : Config} {fb : Memory} {u : Uid} {len : Byte} {sum : Word16} {m : Memory}
    (h : encodeFrame c fb u = .ok (len, sum, m)) : EncodesFrame c fb u len sum m := by
  obtain ⟨n, hn, h⟩ := except_bind_ok h
  obtain ⟨swapped, hswap, h⟩ := except_bind_ok h
  obtain ⟨b, hb, h⟩ := except_bind_ok h
  obtain ⟨v, hv, h⟩ := except_bind_ok h
  cases h
  exact ⟨(Memory.load_ok_iff _ _ _).1 hn, swapped, b, hswap, (Memory.load_ok_iff _ _ _).1 hb, hv, rfl⟩

theorem encodeFrame_of_steps {c : Config} {fb swapped : Memory} {u : Uid} {len b : Byte} {sum : Word16}
    (hlen : Memory.read fb c.offMl = some len) (hswap : Memory.swapUid c u 6 0 fb = .ok swapped)
    (hb : Memory.read swapped c.offCc = some b)
    (hsum : Memory.sum (Memory.write swapped c.offCc (b + 1#8)) len.toNat 0 0#16 = .ok sum) :
    encodeFrame c fb u = .ok (len, sum, Memory.write16be (Memory.write swapped c.offCc (b + 1#8)) len.toNat sum) := by
  rw [encodeFrame, Memory.load_of_read hlen]
  change (Memory.swapUid c u 6 0 fb >>= _) = _
  rw [hswap]
  change (Memory.load swapped c.offCc >>= _) = _
  rw [Memory.load_of_read hb]
  change (Memory.sum _ len.toNat 0 0#16 >>= _) = _
  rw [hsum]
  rfl

namespace EncodesFrame

variable {c : Config} {fb : Memory} {u : Uid} {len : Byte} {sum : Word16} {m : Memory}

/-- The checksum stands at LEN and LEN + 1, high byte first (R147). -/
theorem read_checksum (h : EncodesFrame c fb u len sum m) :
    Memory.read m len.toNat = some (hi8 sum) ∧ Memory.read m (len.toNat + 1) = some (lo8 sum) := by
  obtain ⟨-, swapped, b, -, -, -, rfl⟩ := h
  exact ⟨by rw [Memory.read_write16be, if_neg (by omega), if_pos rfl], by rw [Memory.read_write16be, if_pos rfl]⟩

/-- The checksum is the sum of the message as it is sent (R146). -/
theorem sum_eq (h : EncodesFrame c fb u len sum m) {b : Nat → Byte}
    (hb : ∀ a, a < len.toNat → Memory.read m a = some (b a)) :
    sum = BitVec.ofNat 16 ((List.range len.toNat).map fun a => (b a).toNat).sum := by
  obtain ⟨-, swapped, d, -, -, hsum, rfl⟩ := h
  refine Except.ok.inj (hsum.symm.trans (Memory.sum_zero_of_read fun a ha => ?_))
  have hread := hb a ha
  rwa [Memory.read_write16be, if_neg (by omega), if_neg (by omega)] at hread

/-- Every byte of the frame has been written. -/
theorem written (h : EncodesFrame c fb u len sum m) : ∀ a, a < len.toNat + 2 → ∃ b, Memory.read m a = some b := by
  intro a ha
  by_cases hlow : a < len.toNat
  · obtain ⟨-, swapped, b, -, -, hsum, rfl⟩ := h
    obtain ⟨d, hd⟩ := Memory.read_of_sum _ _ _ _ _ hsum a hlow
    rw [Nat.zero_add] at hd
    exact ⟨d, by rw [Memory.read_write16be, if_neg (by omega), if_neg (by omega), hd]⟩
  · obtain ⟨hhigh, hlow'⟩ := h.read_checksum
    by_cases hfirst : a = len.toNat
    · exact ⟨_, hfirst ▸ hhigh⟩
    · exact ⟨_, (show a = len.toNat + 1 by omega) ▸ hlow'⟩

/-- Apart from the checksum, the class and the two UIDs, FB is as DISPATCH left it (R150). -/
theorem read_eq (h : EncodesFrame c fb u len sum m) (hc : c.valid = true) {a : Nat} (ha : a ≠ len.toNat)
    (ha' : a ≠ len.toNat + 1) :
    Memory.read m a =
      if a = c.offCc then (Memory.read fb c.offCc).map (· + 1#8)
      else if c.offDst ≤ a ∧ a < c.offDst + 6 then Memory.read fb (c.offSrc + (a - c.offDst))
      else if c.offSrc ≤ a ∧ a < c.offSrc + 6 then some (uidByte u (a - c.offSrc)) else Memory.read fb a := by
  have hlayout := Config.layout_of_valid hc
  obtain ⟨-, swapped, b, hswap, hb, -, rfl⟩ := h
  have hread := Memory.read_swapUid (by omega) u 6 0 fb swapped (by decide) hswap
  simp only [Nat.add_zero] at hread
  rw [Memory.read_write16be, if_neg ha', if_neg ha, Memory.read_write]
  split
  · rw [hread, if_neg (by omega), if_neg (by omega)] at hb
    rw [hb, Option.map_some]
  · rw [hread]

theorem class_written (h : EncodesFrame c fb u len sum m) (hc : c.valid = true) : ∃ b, Memory.read fb c.offCc = some b := by
  have hlayout := Config.layout_of_valid hc
  obtain ⟨-, swapped, b, hswap, hb, -, -⟩ := h
  rw [Memory.read_swapUid (by omega) u 6 0 fb swapped (by decide) hswap, if_neg (by omega), if_neg (by omega)] at hb
  exact ⟨b, hb⟩

/-- A field that the four phases do not write, and on which the checksum does not land. -/
theorem read_kept (h : EncodesFrame c fb u len sum m) (hc : c.valid = true) {a : Nat} (ha : a ≠ len.toNat)
    (ha' : a ≠ len.toNat + 1) (hcc : a ≠ c.offCc) (hdst : a < c.offDst ∨ c.offDst + 6 ≤ a)
    (hsrc : a < c.offSrc ∨ c.offSrc + 6 ≤ a) : Memory.read m a = Memory.read fb a := by
  rw [h.read_eq hc ha ha', if_neg hcc, if_neg (by omega), if_neg (by omega)]

end EncodesFrame

/-- The frame is made where the header and the message have been written. -/
theorem encodeFrame_ok {c : Config} {fb : Memory} {len : Byte} (hc : c.valid = true) (u : Uid)
    (hlen : Memory.read fb c.offMl = some len) (hheader : ∀ a, a < c.minSize → ∃ b, Memory.read fb a = some b)
    (hmessage : ∀ a, a < len.toNat → ∃ b, Memory.read fb a = some b) :
    ∃ sum m, encodeFrame c fb u = .ok (len, sum, m) := by
  have hlayout := Config.layout_of_valid hc
  obtain ⟨swapped, hswap⟩ := Memory.swapUid_ok_of_read (by omega) u 6 0 fb (by decide) fun k hk =>
    hheader (c.offSrc + 0 + k) (by omega)
  have hstores := Memory.Stores.swapUid hc u 6 0 fb swapped (by decide) .none hswap
  obtain ⟨b, hb⟩ := hstores.written (hheader c.offCc (by omega))
  have hsummed := hstores.write c.offCc (b + 1#8) (by omega)
  choose d hd using fun a (ha : a < len.toNat) => hsummed.written (hmessage a ha)
  exact ⟨_, _, encodeFrame_of_steps hlen hswap hb
    (Memory.sum_zero_of_read (b := fun a => if h : a < len.toNat then d a h else 0#8) fun a ha => by
      rw [hd a ha, dif_pos ha])⟩

/-! The document's properties of the frame (R127). -/

section
variable {c : Config} {fb m : Memory} {rtype : Byte} {value : Word16} {u : Uid} {count len : Byte} {sum : Word16}

theorem lengthPolicy_of_encodesFrame (hc : c.valid = true)
    (h : EncodesFrame c (Memory.dispatched c fb rtype value count) u len sum m) (hml : len.toNat ≠ c.offMl)
    (hml' : len.toNat + 1 ≠ c.offMl) : LengthPolicy c fb m rtype value := by
  have hlayout := Config.layout_of_valid hc
  have hlength : Memory.read m c.offMl = responseLength c fb rtype := by
    rw [h.read_kept hc hml.symm hml'.symm (by omega) (by omega) (by omega), Memory.read_dispatched_length hc]
  have hlen := h.length
  rw [Memory.read_dispatched_length hc] at hlen
  unfold LengthPolicy
  unfold responseLength at hlength hlen
  split
  · next hack => rw [hlength, if_pos hack]
  · next hack =>
    rw [if_neg hack] at hlength hlen
    have hvalue : len.toNat = c.minSize + 2 := by rw [← Option.some.inj hlen, Config.valueLength_toNat hc]
    have hkept {a : Nat} (hlow : c.offPid + 2 ≤ a) (hhigh : a < c.minSize + 2) := h.read_kept hc (a := a) (by omega)
      (by omega) (by omega) (by omega) (by omega)
    refine ⟨hlength, ?_, ?_, ?_⟩
    · rw [Config.offPdl, hkept (by omega) (by omega), Memory.read_dispatched_value hc hack, if_neg (by omega),
        if_neg (by omega), if_pos rfl]
    · rw [Config.offPd, hkept (by omega) (by omega), Memory.read_dispatched_value hc hack, if_neg (by omega),
        if_neg (by omega), if_neg (by rw [Config.offPdl]; omega), if_pos rfl]
    · rw [Config.offPd, hkept (by omega) (by omega), Memory.read_dispatched_value hc hack, if_neg (by omega),
        if_neg (by omega), if_neg (by rw [Config.offPdl]; omega), if_neg (by rw [Config.offPd]; omega), if_pos rfl]

/-- What DISPATCH stores lies outside the UIDs and the class, so the other phases find them as they were. -/
theorem Memory.read_dispatched_kept (hc : c.valid = true) {a : Nat} (hmc : a ≠ c.offMc) (hrt : a ≠ c.offRt)
    (hvalue : rtype = c.rtAck ∨ (a ≠ c.offMl ∧ (a < c.minSize - 1 ∨ c.minSize + 1 < a))) :
    Memory.read (Memory.dispatched c fb rtype value count) a = Memory.read fb a := by
  have hlayout := Config.layout_of_valid hc
  by_cases hack : rtype = c.rtAck
  · rw [Memory.read_dispatched_ack hack, if_neg hrt, if_neg hmc]
  · obtain ⟨hml, hpd⟩ := hvalue.resolve_left hack
    rw [Memory.read_dispatched_value hc hack, if_neg hml, if_neg hrt, if_neg (by rw [Config.offPdl]; omega),
      if_neg (by rw [Config.offPd]; omega), if_neg (by rw [Config.offPd]; omega), if_neg hmc]

theorem uidSwapCorrect_of_encodesFrame (hc : c.valid = true)
    (h : EncodesFrame c (Memory.dispatched c fb rtype value count) u len sum m) (hmin : c.minSize ≤ len.toNat) :
    UidSwapCorrect c fb m u := by
  have hlayout := Config.layout_of_valid hc
  intro i hi
  rw [Config.uidSize] at hi
  refine ⟨?_, ?_⟩
  · rw [h.read_eq hc (by omega) (by omega), if_neg (by omega), if_pos (by omega), Nat.add_sub_cancel_left,
      Memory.read_dispatched_kept hc (by omega) (by omega) (.inr (by omega))]
  · rw [h.read_eq hc (by omega) (by omega), if_neg (by omega), if_neg (by omega), if_pos (by omega),
      Nat.add_sub_cancel_left]

theorem commandClassAdvanced_of_encodesFrame (hc : c.valid = true)
    (h : EncodesFrame c (Memory.dispatched c fb rtype value count) u len sum m) (hmin : c.minSize ≤ len.toNat) :
    CommandClassAdvanced c fb m := by
  have hlayout := Config.layout_of_valid hc
  obtain ⟨b, hb⟩ := h.class_written hc
  refine ⟨b, ?_, ?_⟩
  · rw [← hb, Memory.read_dispatched_kept hc (by omega) (by omega) (.inr (by omega))]
  · rw [h.read_eq hc (by omega) (by omega), if_pos rfl, hb, Option.map_some]

theorem responseType_of_encodesFrame (hc : c.valid = true)
    (h : EncodesFrame c (Memory.dispatched c fb rtype value count) u len sum m) (hmin : c.minSize ≤ len.toNat) :
    Memory.read m c.offRt = some rtype ∧ Memory.read m c.offMc = some count := by
  have hlayout := Config.layout_of_valid hc
  rw [h.read_kept hc (a := c.offRt) (by omega) (by omega) (by omega) (by omega) (by omega),
    h.read_kept hc (a := c.offMc) (by omega) (by omega) (by omega) (by omega) (by omega)]
  by_cases hack : rtype = c.rtAck
  · rw [Memory.read_dispatched_ack hack, Memory.read_dispatched_ack hack, if_pos rfl, if_neg (by omega), if_pos rfl]
    exact ⟨rfl, rfl⟩
  · rw [Memory.read_dispatched_value hc hack, Memory.read_dispatched_value hc hack, if_neg (by omega), if_pos rfl,
      if_neg (by omega), if_neg (by omega), if_neg (by rw [Config.offPdl]; omega), if_neg (by rw [Config.offPd]; omega),
      if_neg (by rw [Config.offPd]; omega), if_pos rfl]
    exact ⟨rfl, rfl⟩

end

end Sys2Proof.Machine
end

section
/-! The obligations on the encoder as a whole: it agrees with `Respond`, completes on a loaded frame, meets the document's
properties, and stops only on a byte that nothing has written. -/

namespace Sys2Proof.Machine

theorem execAll_encoderPhases_of_frame {s : State} {frame : Byte × Word16 × Memory}
    (hsup : s.cfg.supports s.cmdRtype = true) (h : s.frame = .ok frame) :
    execAll encoderPhases s = .next (s.encoded frame) := by
  rw [execAll_encoderPhases hsup, h, withRead_ok]

theorem encodesFrame_of_execAll {s t : State} (hsup : s.cfg.supports s.cmdRtype = true)
    (h : execAll encoderPhases s = .next t) :
    EncodesFrame s.cfg (Memory.dispatched s.cfg s.fb s.cmdRtype s.cmdValue s.pendingCount) s.ownUid t.len t.csum t.fb := by
  rw [execAll_encoderPhases hsup] at h
  obtain ⟨⟨len, sum, m⟩, hframe, ht⟩ := withRead_next h
  obtain rfl := Host.Outcome.next.inj ht
  exact encodesFrame_of_ok hframe

/-! `Respond`. -/

theorem respond_of_encodeFrame {c : Config} {fb m : Memory} {rtype len : Byte} {value sum : Word16} {u : Uid} {count : Byte}
    {sent : List Byte} (hsup : c.supports rtype = true)
    (hframe : encodeFrame c (Memory.dispatched c fb rtype value count) u = .ok (len, sum, m))
    (hsent : Memory.bytes m (len.toNat + 2) 0 = .ok sent) :
    respond c fb rtype value u count = .ok (m, some sent) := by
  rw [respond_supported hsup, hframe]
  change (Memory.bytes m (len.toNat + 2) 0 >>= _) = _
  rw [hsent]
  rfl

/-- Settles O29: both are the one function `encodeFrame` of FB as DISPATCH leaves it. -/
theorem encoderPhasesMatchRespond : Obligations.EncoderPhasesMatchRespond := by
  intro s hc hsup
  cases hframe : encodeFrame s.cfg (Memory.dispatched s.cfg s.fb s.cmdRtype s.cmdValue s.pendingCount) s.ownUid with
  | error e =>
    rw [respond_supported hsup, hframe]
    change execAll encoderPhases s = .fault e
    rw [execAll_encoderPhases hsup, State.frame, hframe, withRead_error]
  | ok frame =>
    obtain ⟨len, sum, m⟩ := frame
    obtain ⟨bytes, hbytes, hlength, hread⟩ := Memory.bytes_of_read m (len.toNat + 2) 0 fun k hk => by
      rw [Nat.zero_add]
      exact (encodesFrame_of_ok hframe).written k hk
    rw [respond_of_encodeFrame hsup hframe hbytes]
    refine ⟨s.encoded (len, sum, m), bytes, execAll_encoderPhases_of_frame hsup hframe, rfl, rfl, hlength, fun k hk => ?_⟩
    rw [hread k hk, Nat.zero_add]
    rfl

/-! A loaded frame (R80, R254). -/

/-- The length `len` of R126 over a loaded frame. -/
def State.frameLength (s : State) (n : Byte) : Byte := if s.cmdRtype = s.cfg.rtAck then n else s.cfg.valueLength

theorem responseLength_of_read {s : State} {n : Byte} (hn : Memory.read s.fb s.cfg.offMl = some n) :
    responseLength s.cfg s.fb s.cmdRtype = some (s.frameLength n) := by
  unfold responseLength State.frameLength
  split
  · exact hn
  · rfl

/-- What the host has loaded, and what DISPATCH adds to it on the paths with a value, is all that the phases read. -/
theorem State.frame_of_loaded {s : State} {n : Byte} (hc : s.cfg.valid = true) (hheader : s.written s.cfg.minSize)
    (hn : Memory.read s.fb s.cfg.offMl = some n) (hmessage : s.cmdRtype = s.cfg.rtAck → s.written n.toNat) :
    ∃ sum m, s.frame = .ok (s.frameLength n, sum, m) := by
  have hstores : Memory.Stores s.cfg s.fb (Memory.dispatched s.cfg s.fb s.cmdRtype s.cmdValue s.pendingCount) :=
    Memory.stores_dispatched hc _ _ _
  refine encodeFrame_ok hc s.ownUid ?_ (fun a ha => hstores.written (hheader a ha)) fun a ha => ?_
  · rw [Memory.read_dispatched_length hc, responseLength_of_read hn]
  · unfold State.frameLength at ha
    split at ha
    · next hack => exact hstores.written (hmessage hack a ha)
    · next hack =>
      rw [Config.valueLength_toNat hc] at ha
      by_cases hlow : a < s.cfg.minSize
      · exact hstores.written (hheader a hlow)
      · have hlayout := Config.layout_of_valid hc
        rw [Memory.read_dispatched_value hc hack, if_neg (by omega), if_neg (by omega), if_neg (by rw [Config.offPdl]; omega),
          Config.offPd]
        by_cases hfirst : a = s.cfg.minSize
        · exact ⟨_, if_pos hfirst⟩
        · exact ⟨_, (if_neg hfirst).trans (if_pos (by omega))⟩

/-- Settles O31: the frame exists, and it is all that the six phases write. -/
theorem encoderCompletesOnALoadedFrame : Obligations.EncoderCompletesOnALoadedFrame := by
  intro s n hc hsup hheader hn hmessage
  obtain ⟨sum, m, hframe⟩ := State.frame_of_loaded hc hheader hn hmessage
  exact ⟨m, sum, execAll_encoderPhases_of_frame hsup hframe⟩

/-! The document's properties. -/

/-- Settles O32: each property of the frame that `encodeFrame` makes. -/
theorem responseFrameMeetsTheDocumentsProperties : Obligations.ResponseFrameMeetsTheDocumentsProperties := by
  intro s t hc hsup hrun
  have hlayout := Config.layout_of_valid hc
  have h := encodesFrame_of_execAll hsup hrun
  obtain ⟨hhigh, hlow⟩ := h.read_checksum
  refine ⟨fun b hb => ⟨t.csum, ?_, hhigh, hlow⟩, (Memory.read_dispatched_length hc _ _ _).symm.trans h.length,
    fun hmin => ?_⟩
  · rw [h.sum_eq hb, BitVec.toNat_ofNat]
  · obtain ⟨hrt, hmc⟩ := responseType_of_encodesFrame hc h hmin
    exact ⟨uidSwapCorrect_of_encodesFrame hc h hmin, commandClassAdvanced_of_encodesFrame hc h hmin, hrt, hmc,
      lengthPolicy_of_encodesFrame hc h (by omega) (by omega),
      (h.read_kept hc (by omega) (by omega) (by omega) (by omega) (by omega)).trans h.length⟩

/-- The bytes FB[off ..] as a list, by their values. -/
theorem Memory.bytes_eq_map {m : Memory} {b : Nat → Byte} :
    ∀ (count off : Nat), (∀ a, off ≤ a → a < off + count → Memory.read m a = some (b a)) →
      Memory.bytes m count off = .ok ((List.range' off count).map b)
  | 0, _, _ => rfl
  | count + 1, off, h => by
    rw [Memory.bytes, Memory.load_of_read (h off (by omega) (by omega))]
    simp only [Memory.bytes_eq_map count (off + 1) fun a hlow hhigh => h a (by omega) (by omega), List.range'_succ,
      List.map_cons]

/-- The bytes sent are the message and its checksum. -/
theorem checksumCorrect_of_encodesFrame {c : Config} {fb m : Memory} {u : Uid} {len : Byte} {sum : Word16} {tx : List Byte}
    (h : EncodesFrame c fb u len sum m) (htx : Memory.bytes m (len.toNat + 2) 0 = .ok tx) : ChecksumCorrect len.toNat tx := by
  choose d hd using h.written
  have hb (a : Nat) (ha : a < len.toNat + 2) :
      Memory.read m a = some ((fun a => if h : a < len.toNat + 2 then d a h else 0#8) a) := by
    rw [hd a ha]
    exact congrArg some (dif_pos ha).symm
  generalize (fun a => if h : a < len.toNat + 2 then d a h else 0#8) = b at hb
  obtain ⟨hhigh, hlow⟩ := h.read_checksum
  have hhigh' : b len.toNat = hi8 sum := Option.some.inj ((hb _ (by omega)).symm.trans hhigh)
  have hlow' : b (len.toNat + 1) = lo8 sum := Option.some.inj ((hb _ (by omega)).symm.trans hlow)
  refine ⟨(List.range len.toNat).map b, sum, ?_, by rw [List.length_map, List.length_range], ?_⟩
  · rw [Memory.bytes_eq_map (b := b) _ _ fun a _ ha => hb a (by omega)] at htx
    rw [← Except.ok.inj htx, ← List.range_eq_range', List.range_succ, List.range_succ]
    simp [hhigh', hlow']
  · rw [h.sum_eq fun a ha => hb a (by omega), BitVec.toNat_ofNat, List.map_map]
    rfl

/-- Settles O33: `Respond` sends bytes only for a supported type, and then it has made the same frame. -/
theorem respondMeetsTheDocumentsProperties : Obligations.RespondMeetsTheDocumentsProperties := by
  intro c before fb rtype value u count tx hc hrespond
  cases hsup : c.supports rtype with
  | false =>
    rw [respond_unsupported hsup] at hrespond
    cases hrespond
  | true =>
    rw [respond_supported hsup] at hrespond
    obtain ⟨⟨len, sum, m⟩, hframe, hrest⟩ := except_bind_ok hrespond
    obtain ⟨sent, hsent, hpair⟩ := except_bind_ok hrest
    cases hpair
    have h := encodesFrame_of_ok hframe
    exact ⟨len, (Memory.read_dispatched_length hc _ _ _).symm.trans h.length, checksumCorrect_of_encodesFrame h hsent,
      fun hmin => ⟨uidSwapCorrect_of_encodesFrame hc h hmin, commandClassAdvanced_of_encodesFrame hc h hmin⟩,
      lengthPolicy_of_encodesFrame hc h⟩

/-- Settles O35: the offsets named are none of those that a phase stores to. -/
theorem encoderPassesTheOtherBytesThrough : Obligations.EncoderPassesTheOtherBytesThrough := by
  intro s t a hc hsup hrun hhigh hlow ha
  have hlayout := Config.layout_of_valid hc
  have h := encodesFrame_of_execAll hsup hrun
  have hlen : s.cmdRtype = s.cfg.rtAck ∨ t.len.toNat = s.cfg.minSize + 2 := by
    by_cases hack : s.cmdRtype = s.cfg.rtAck
    · exact .inl hack
    · have hlength := h.length
      rw [Memory.read_dispatched_length hc, responseLength, if_neg hack] at hlength
      exact .inr (by rw [← Option.some.inj hlength, Config.valueLength_toNat hc])
  have hplace : a ≠ s.cfg.offCc ∧ (a < s.cfg.offDst ∨ s.cfg.offDst + 6 ≤ a) ∧ (a < s.cfg.offSrc ∨ s.cfg.offSrc + 6 ≤ a) ∧
      a ≠ s.cfg.offMc ∧ a ≠ s.cfg.offRt ∧
      (s.cmdRtype = s.cfg.rtAck ∨ (a ≠ s.cfg.offMl ∧ (a < s.cfg.minSize - 1 ∨ s.cfg.minSize + 1 < a))) := by
    rcases ha with hheader | ⟨hack, hpdl⟩ | ⟨hmin, hpast⟩
    · simp only [List.mem_cons, List.not_mem_nil, or_false] at hheader
      omega
    · rw [Config.offPdl] at hpdl
      exact ⟨by omega, by omega, by omega, by omega, by omega, .inl hack⟩
    · exact ⟨by omega, by omega, by omega, by omega, by omega, hlen.imp id fun hvalue => by omega⟩
  obtain ⟨hcc, hdst, hsrc, hmc, hrt, hvalue⟩ := hplace
  rw [h.read_kept hc hhigh hlow hcc hdst hsrc, Memory.read_dispatched_kept hc hmc hrt hvalue]

/-! What a phase does not read. -/

theorem exec_respondAck_of_idle {s : State} (value : Word16) (h : s.busy = false) :
    exec (.respondAck value) s =
      .next { s with cmdRtype := s.cfg.rtAck, cmdValue := value, status := statusStarted, seq := 1#4 } :=
  congrArg Host.Outcome.next (State.startCommand_idle s s.cfg.rtAck value h)

/-- Settles O36: on the ACK path FB after DISPATCH does not depend on VALUE. -/
theorem ackIgnoresItsValue : Obligations.AckIgnoresItsValue := by
  intro s v w hidle _
  have hrun (x : Word16) : mapNext (fun t => { t with cmdValue := 0#16 }) (execAll (.respondAck x :: encoderPhases) s) =
      withRead (encodeFrame s.cfg (Memory.dispatched s.cfg s.fb s.cfg.rtAck 0#16 s.pendingCount) s.ownUid) fun frame =>
        .next { s with cmdRtype := s.cfg.rtAck, cmdValue := 0#16, status := statusStarted, fb := frame.2.2,
                       len := frame.1, csum := frame.2.1, idx := frame.1.setWidth 9, seq := 7#4 } := by
    have hdispatched : Memory.dispatched s.cfg s.fb s.cfg.rtAck x s.pendingCount =
        Memory.dispatched s.cfg s.fb s.cfg.rtAck 0#16 s.pendingCount := by
      rw [Memory.dispatched, Memory.dispatched, if_pos rfl, if_pos rfl]
    rw [execAll_cons_next (exec_respondAck_of_idle x hidle), execAll_encoderPhases (Config.supports_of_ack rfl),
      mapNext_withRead, ← hdispatched]
    rfl
  rw [hrun v, hrun w]

end Sys2Proof.Machine
end

section
/-! Where a phase stops (R80, R237), and what it does not depend on (R74, R269): PENDING_COUNT, but for STAMP, and the
moves still to come. -/

namespace Sys2Proof.Machine

/-! The fault `UnwrittenRead`. -/

/-- A phase stops on a byte that nothing has written. -/
def Instr.stopsIn (i : Instr) (s : State) : Prop := ∃ a, exec i s = .fault (.unwrittenRead a)

theorem Instr.not_stopsIn {i : Instr} {s t : State} (h : exec i s = .next t) : ¬ Instr.stopsIn i s := by
  rintro ⟨a, ha⟩
  cases ha.symm.trans h

theorem withRead_of_error {α : Type} {r : Except Fault α} {e : Fault} (h : r = .error e) (k : α → Result) :
    withRead r k = .fault e := by
  rw [h, withRead_error]

theorem offerByte_of_none {s : State} (h : Memory.read s.fb s.idx.toNat = none) :
    offerByte s = .fault (.unwrittenRead s.idx.toNat) := by
  rw [offerByte, Memory.load_of_none h, withRead_error]

theorem handOver_of_none {s : State} (h : Memory.read s.fb s.idx.toNat = none) :
    handOver s = .fault (.unwrittenRead s.idx.toNat) := by
  rw [handOver, Memory.load_of_none h, withRead_error]

theorem dispatch_stopsIn_iff {s : State} (hc : s.cfg.valid = true) :
    Instr.stopsIn .dispatch s ↔ s.cmdRtype = s.cfg.rtAck ∧ Memory.read s.fb s.cfg.offMl = none := by
  cases hsup : s.cfg.supports s.cmdRtype with
  | false =>
    have hack := (Config.supports_eq_false_iff.1 hsup).1
    exact iff_of_false (Instr.not_stopsIn (exec_dispatch_unsupported hsup)) fun h => hack h.1
  | true =>
    rcases Config.supports_cases hsup with hack | ⟨hack, hvalue⟩
    · cases hn : Memory.read s.fb s.cfg.offMl with
      | some n => exact iff_of_false (Instr.not_stopsIn (exec_dispatch_ack hc hack hn)) nofun
      | none =>
        have hnone : Memory.read (Memory.write s.fb s.cfg.offRt s.cfg.rtAck) s.cfg.offMl = none := by
          have := Config.layout_of_valid hc
          rw [Memory.read_write, if_neg (by omega), hn]
        refine iff_of_true ⟨s.cfg.offMl, (if_pos hack).trans ?_⟩ ⟨hack, rfl⟩
        exact withRead_of_error (Memory.load_of_none hnone) _
    · exact iff_of_false (Instr.not_stopsIn (exec_dispatch_value hc hvalue)) fun h => hack h.1

theorem swap_stopsIn_iff {s : State} (hc : s.cfg.valid = true) :
    Instr.stopsIn .swap s ↔ ∃ i, i < 6 ∧ Memory.read s.fb (s.cfg.offSrc + i) = none := by
  have hlayout := Config.layout_of_valid hc
  by_cases h : ∃ i, i < 6 ∧ Memory.read s.fb (s.cfg.offSrc + i) = none
  · refine iff_of_true ?_ h
    obtain ⟨i, hi, hnone⟩ := h
    obtain ⟨a, ha⟩ := Memory.swapUid_of_none (by omega) s.ownUid 6 0 s.fb (by decide) ⟨i, by omega, by omega, hnone⟩
    exact ⟨a, withRead_of_error ha _⟩
  · refine iff_of_false ?_ h
    obtain ⟨m, hm⟩ := Memory.swapUid_ok_of_read (by omega) s.ownUid 6 0 s.fb (by decide) fun k hk =>
      Option.ne_none_iff_exists'.1 fun hnone => h ⟨k, hk, hnone⟩
    exact Instr.not_stopsIn (exec_swap_of_swapUid hm)

theorem classAdvance_stopsIn_iff {s : State} : Instr.stopsIn .classAdvance s ↔ Memory.read s.fb s.cfg.offCc = none := by
  cases hb : Memory.read s.fb s.cfg.offCc with
  | none => exact iff_of_true ⟨_, withRead_of_error (Memory.load_of_none hb) _⟩ rfl
  | some b => exact iff_of_false (Instr.not_stopsIn (exec_classAdvance_of_read hb)) nofun

theorem csum_stopsIn_iff {s : State} :
    Instr.stopsIn .csum s ↔ ∃ a, a < s.len.toNat ∧ Memory.read s.fb a = none := by
  by_cases h : ∃ a, a < s.len.toNat ∧ Memory.read s.fb a = none
  · refine iff_of_true ?_ h
    obtain ⟨a, ha, hnone⟩ := h
    obtain ⟨e, he⟩ := Memory.sum_of_none s.fb s.len.toNat 0 0#16 ⟨a, by omega, by omega, hnone⟩
    exact ⟨e, (exec_csum s).trans (withRead_of_error he _)⟩
  · refine iff_of_false ?_ h
    have hwritten (a : Nat) (ha : a < s.len.toNat) : ∃ b, Memory.read s.fb a = some b :=
      Option.ne_none_iff_exists'.1 fun hnone => h ⟨a, ha, hnone⟩
    choose d hd using hwritten
    have hsum := Memory.sum_zero_of_read (b := fun a => if h : a < s.len.toNat then d a h else 0#8) fun a ha => by
      rw [hd a ha, dif_pos ha]
    have hexec := exec_csum s
    rw [hsum, withRead_ok] at hexec
    exact Instr.not_stopsIn hexec

theorem send_stopsIn_iff_of_entry {s : State} (ha : s.txActive = false) :
    Instr.stopsIn .send s ↔ Memory.read s.fb 0 = none := by
  have hexec := exec_send_entry ha
  cases hb : Memory.read s.fb 0 with
  | none => exact iff_of_true ⟨0, hexec.trans (offerByte_of_none hb)⟩ rfl
  | some b => exact iff_of_false (Instr.not_stopsIn (hexec.trans (offerByte_of_read hb))) nofun

/-- A hand-over stops on the byte it hands over, or on the next. -/
theorem handOver_stops_iff {s : State} (hi : s.idx.toNat < s.len.toNat + 2) :
    (∃ a, handOver s = .fault (.unwrittenRead a)) ↔ Memory.read s.fb s.idx.toNat = none ∨
      (s.idx.toNat + 1 < s.len.toNat + 2 ∧ Memory.read s.fb (s.idx.toNat + 1) = none) := by
  cases hb : Memory.read s.fb s.idx.toNat with
  | none => exact iff_of_true ⟨_, handOver_of_none hb⟩ (.inl rfl)
  | some b =>
    rw [or_iff_right (Option.some_ne_none b)]
    by_cases hmore : s.idx.toNat + 1 < s.len.toNat + 2
    · cases hc : Memory.read s.fb (s.idx.toNat + 1) with
      | none => exact iff_of_true ⟨_, handOver_unwritten hmore hb hc⟩ ⟨hmore, rfl⟩
      | some c =>
        rw [handOver_more hmore hb hc]
        exact iff_of_false nofun nofun
    · rw [handOver_last (by omega) hb]
      exact iff_of_false nofun fun h => hmore h.1

theorem send_stopsIn_iff_of_active {s : State} (ha : s.txActive = true) :
    Instr.stopsIn .send s ↔ s.idx.toNat < s.len.toNat + 2 ∧ (s.txValid = true → s.txReady = true) ∧
      (Memory.read s.fb s.idx.toNat = none ∨
        (s.txValid = true ∧ s.idx.toNat + 1 < s.len.toNat + 2 ∧ Memory.read s.fb (s.idx.toNat + 1) = none)) := by
  by_cases hi : s.idx.toNat < s.len.toNat + 2
  · have hexec := exec_send_of_lt ha hi
    unfold Instr.stopsIn
    rw [hexec]
    cases hv : s.txValid with
    | false =>
      rw [if_pos rfl]
      cases hb : Memory.read s.fb s.idx.toNat with
      | none => exact iff_of_true ⟨_, offerByte_of_none hb⟩ ⟨hi, nofun, .inl rfl⟩
      | some b =>
        rw [offerByte_of_read hb]
        exact iff_of_false nofun fun h => by simpa using h.2.2
    | true =>
      rw [if_neg Bool.false_ne_true.symm]
      cases hr : s.txReady with
      | false => exact iff_of_false nofun fun h => by simpa using h.2.1 rfl
      | true =>
        rw [if_pos rfl, handOver_stops_iff hi]
        simp [hi]
  · have hexec := exec_send_of_le ha (Nat.not_lt.1 hi)
    refine iff_of_false (fun hstop => ?_) fun h => hi h.1
    cases hx : s.txIdle <;> rw [hx] at hexec <;> exact Instr.not_stopsIn hexec hstop

/-! No phase is refused. -/

theorem withRead_ne_refused {α : Type} {r : Except Fault α} {k : α → Result} {e : Refusal}
    (h : ∀ a, k a ≠ .refused e) : withRead r k ≠ .refused e := by
  cases r with
  | ok a => exact h a
  | error f => exact nofun

theorem offerByte_ne_refused (s : State) (e : Refusal) : offerByte s ≠ .refused e :=
  withRead_ne_refused fun _ => nofun

theorem handOver_ne_refused (s : State) (e : Refusal) : handOver s ≠ .refused e := by
  refine withRead_ne_refused fun b => ?_
  split
  · exact offerByte_ne_refused _ e
  · exact nofun

theorem execDispatch_ne_refused (s : State) (e : Refusal) : execDispatch s ≠ .refused e := by
  unfold execDispatch
  split
  · exact withRead_ne_refused fun _ => nofun
  · split
    · exact withRead_ne_refused fun _ => nofun
    · exact nofun

theorem execSend_ne_refused (s : State) (e : Refusal) : execSend s ≠ .refused e := by
  unfold execSend
  split
  · exact offerByte_ne_refused _ e
  · split
    · split
      · exact offerByte_ne_refused _ e
      · split
        · exact handOver_ne_refused _ e
        · exact nofun
    · split <;> exact nofun

theorem execGate_answers (s : State) : ∃ t, execGate s = .next t := by
  unfold execGate
  split
  · exact ⟨_, rfl⟩
  · split <;> exact ⟨_, rfl⟩

theorem execSettle_answers (s : State) : ∃ t, execSettle s = .next t := by
  unfold execSettle
  split <;> exact ⟨_, rfl⟩

theorem exec_ne_refused (i : Instr) (s : State) (e : Refusal) : exec i s ≠ .refused e := by
  cases i with
  | dispatch => exact execDispatch_ne_refused s e
  | swap => exact withRead_ne_refused fun _ => nofun
  | classAdvance => exact withRead_ne_refused fun _ => nofun
  | csum => exact withRead_ne_refused fun _ => nofun
  | gate =>
    obtain ⟨t, ht⟩ := execGate_answers s
    exact fun h => by cases ht.symm.trans h
  | send => exact execSend_ne_refused s e
  | settle =>
    obtain ⟨t, ht⟩ := execSettle_answers s
    exact fun h => by cases ht.symm.trans h
  | _ => exact nofun

/-- Settles O28: phase by phase. -/
theorem phasesFaultExactlyOnUnwrittenBytes : Obligations.PhasesFaultExactlyOnUnwrittenBytes := by
  intro s hc
  refine ⟨dispatch_stopsIn_iff hc, swap_stopsIn_iff hc, classAdvance_stopsIn_iff, csum_stopsIn_iff,
    send_stopsIn_iff_of_entry, send_stopsIn_iff_of_active, fun i r => exec_ne_refused i s r, fun i hi => ?_⟩
  rcases hi with rfl | rfl | rfl | rfl | rfl | rfl | rfl
  · exact ⟨s, rfl⟩
  · exact ⟨_, exec_stamp s⟩
  · exact ⟨_, exec_append s⟩
  · exact execGate_answers s
  · exact ⟨_, rfl⟩
  · exact execSettle_answers s
  · exact ⟨_, rfl⟩

/-! What no instruction but STAMP depends on. -/

/-- The state with another PENDING_COUNT and other moves still to come. -/
def State.around (s : State) (count : Byte) (schedule : List Move) : State :=
  { s with pendingCount := count, schedule := schedule }

section
variable (s : State) (c : Byte) (l : List Move)

theorem offerByte_around : offerByte (s.around c l) = mapNext (·.around c l) (offerByte s) := by
  rw [offerByte, offerByte, mapNext_withRead]
  rfl

theorem handOver_around : handOver (s.around c l) = mapNext (·.around c l) (handOver s) := by
  rw [handOver, handOver, mapNext_withRead]
  refine congrArg _ (funext fun b => ?_)
  rw [apply_ite (mapNext _), ← offerByte_around]
  rfl

theorem startCommand_around (rtype : Byte) (value : Word16) :
    State.startCommand (s.around c l) rtype value = (State.startCommand s rtype value).around c l := by
  rw [State.startCommand, State.startCommand, apply_ite (State.around · c l)]
  rfl

theorem awaitDelay_around (phase : SeqCode) :
    State.awaitDelay (s.around c l) phase = (State.awaitDelay s phase).around c l := by
  rw [State.awaitDelay, State.awaitDelay, apply_ite (State.around · c l)]
  rfl

theorem beginDelay_around (n : Nat) (phase : SeqCode) :
    State.beginDelay (s.around c l) n phase = (State.beginDelay s n phase).around c l := by
  rw [State.beginDelay, State.beginDelay, apply_ite (State.around · c l)]
  rfl

theorem latchLength_around : latchLength (s.around c l) = mapNext (·.around c l) (latchLength s) := by
  rw [latchLength, latchLength, mapNext_withRead]
  rfl

theorem execDispatch_around : execDispatch (s.around c l) = mapNext (·.around c l) (execDispatch s) := by
  rw [execDispatch, execDispatch, apply_ite (mapNext _), apply_ite (mapNext _), ← latchLength_around,
    ← latchLength_around]
  rfl

theorem execSwap_around : execSwap (s.around c l) = mapNext (·.around c l) (execSwap s) := by
  rw [execSwap, execSwap, mapNext_withRead]
  rfl

theorem execClass_around : execClass (s.around c l) = mapNext (·.around c l) (execClass s) := by
  rw [execClass, execClass, mapNext_withRead]
  rfl

theorem execCsum_around : execCsum (s.around c l) = mapNext (·.around c l) (execCsum s) := by
  rw [execCsum, execCsum, mapNext_withRead]
  rfl

theorem execGate_around : execGate (s.around c l) = mapNext (·.around c l) (execGate s) := by
  rw [execGate, execGate, apply_ite (mapNext _), apply_ite (mapNext _), awaitDelay_around, beginDelay_around,
    beginDelay_around]
  rfl

theorem execSettle_around : execSettle (s.around c l) = mapNext (·.around c l) (execSettle s) := by
  rw [execSettle, execSettle, apply_ite (mapNext _), awaitDelay_around, beginDelay_around]
  rfl

theorem execSend_around : execSend (s.around c l) = mapNext (·.around c l) (execSend s) := by
  simp only [execSend, apply_ite (mapNext _), ← offerByte_around, ← handOver_around]
  rfl

/-- No instruction reads the moves still to come, and none but STAMP reads PENDING_COUNT. -/
theorem exec_around (i : Instr) (hi : i = .stamp → c = s.pendingCount) :
    exec i (s.around c l) = mapNext (·.around c l) (exec i s) := by
  have start (r : Byte) (v : Word16) := congrArg (Host.Outcome.next : State → Result) (startCommand_around s c l r v)
  cases i with
  | respondAck v => exact start s.cfg.rtAck v
  | respondAckTimer v => exact start s.cfg.rtAckTimer v
  | respondNack v => exact start s.cfg.rtNackReason v
  | respondRaw r v => exact start r v
  | idle => rfl
  | stamp =>
    obtain rfl := hi rfl
    rfl
  | dispatch => exact execDispatch_around s c l
  | swap => exact execSwap_around s c l
  | classAdvance => exact execClass_around s c l
  | csum => exact execCsum_around s c l
  | append => rfl
  | gate => exact execGate_around s c l
  | dirOut => rfl
  | send => exact execSend_around s c l
  | settle => exact execSettle_around s c l
  | dirIn => rfl

end

theorem mapNext_mapNext (f g : State → State) (r : Result) : mapNext f (mapNext g r) = mapNext (fun t => f (g t)) r := by
  cases r <;> rfl

/-- Settles O37: an instruction depends on PENDING_COUNT no more than on the moves still to come, which it keeps. -/
theorem pendingCountIsReadByStampAlone : Obligations.PendingCountIsReadByStampAlone := by
  intro i s c hi
  have hkept : exec i s = mapNext (·.around s.pendingCount s.schedule) (exec i s) :=
    exec_around s s.pendingCount s.schedule i fun _ => rfl
  rw [hkept, mapNext_mapNext]
  exact exec_around s c s.schedule i fun h => absurd h hi

end Sys2Proof.Machine
end

section
/-! Runs as lists of moves. No move depends on the moves that follow it, so a run over a schedule is a run over its moves
one after another. -/

namespace Sys2Proof.Machine

/-- What one agent's move does, whatever moves follow. -/
def Move.act (m : Move) (s : State) : Result :=
  match fetchMove m s with
  | .run i t => exec i t
  | .moved r => r

/-- The state with the moves `l` still to come. -/
def State.awaiting (s : State) (l : List Move) : State := { s with schedule := l }

/-- A step is the next agent's move. -/
theorem step_awaiting (s : State) (m : Move) (l : List Move) : step (s.awaiting (m :: l)) = m.act (s.awaiting l) := rfl

theorem act_sequencer {s : State} {i : Instr} (h : decodeSeq s.seq = .ok i) : Move.act .sequencer s = exec i s := by
  rw [Move.act, fetchMove, fetchPhase_of_decode h]

/-! The moves still to come play no part in a move. -/

section
variable (s : State) (l : List Move)

/-- What keeps PENDING_COUNT and the moves to come in any state keeps each of them alone. -/
theorem awaiting_of_around {F : State → Result}
    (h : ∀ l, F (s.around s.pendingCount l) = mapNext (·.around s.pendingCount l) (F s)) :
    F (s.awaiting l) = mapNext (·.awaiting l) (F s) := by
  have hkept : F s = mapNext (·.around s.pendingCount s.schedule) (F s) := h s.schedule
  rw [hkept, mapNext_mapNext]
  exact h l

theorem exec_awaiting (i : Instr) : exec i (s.awaiting l) = mapNext (·.awaiting l) (exec i s) :=
  awaiting_of_around s l fun l => exec_around s s.pendingCount l i fun _ => rfl

theorem takeOffered_awaiting : takeOffered (s.awaiting l) = mapNext (·.awaiting l) (takeOffered s) := by
  have hover : handOver (s.awaiting l) = mapNext (·.awaiting l) (handOver s) :=
    awaiting_of_around s l fun l => handOver_around s s.pendingCount l
  rw [takeOffered, takeOffered, apply_ite (mapNext _), ← hover]
  rfl

theorem seeReport_awaiting : State.seeReport (s.awaiting l) = (State.seeReport s).awaiting l := by
  rw [State.seeReport, State.seeReport, apply_ite (State.awaiting · l)]
  rfl

theorem countTick_awaiting : countTick (s.awaiting l) = mapNext (·.awaiting l) (countTick s) := by
  rw [countTick, countTick, takeOffered_awaiting, mapNext_mapNext, mapNext_mapNext]
  simp only [seeReport_awaiting]
  rfl

theorem driveReady_awaiting (level : Bool) :
    driveReady (s.awaiting l) level = mapNext (·.awaiting l) (driveReady s level) := by
  cases level with
  | true => rfl
  | false =>
    rw [driveReady, driveReady, if_neg Bool.false_ne_true, if_neg Bool.false_ne_true, takeOffered_awaiting,
      mapNext_mapNext, mapNext_mapNext]
    rfl

theorem driveIdle_awaiting (level : Bool) :
    State.driveIdle (s.awaiting l) level = (State.driveIdle s level).awaiting l := by
  cases level with
  | true => rfl
  | false =>
    rw [State.driveIdle, State.driveIdle, if_neg Bool.false_ne_true, if_neg Bool.false_ne_true, seeReport_awaiting]
    rfl

theorem idleWrite_awaiting (t : State) :
    State.idleWrite (s.awaiting l) (t.awaiting l) = (State.idleWrite s t).awaiting l := by
  rw [State.idleWrite, State.idleWrite, apply_ite (State.awaiting · l)]
  rfl

theorem readFbByte_awaiting (off : Nat) : State.readFbByte (s.awaiting l) off = (State.readFbByte s off).awaiting l := by
  cases hb : s.busy with
  | true =>
    rw [State.readFbByte_unspecified (.inl hb)]
    exact State.readFbByte_unspecified (s := s.awaiting l) (.inl hb)
  | false =>
    cases hr : Memory.read s.fb off with
    | none =>
      rw [State.readFbByte_unspecified (.inr hr)]
      exact State.readFbByte_unspecified (s := s.awaiting l) (.inr hr)
    | some b =>
      rw [State.readFbByte_of_read hb hr]
      exact State.readFbByte_of_read (s := s.awaiting l) hb hr

theorem perform_awaiting (a : HostAccess) : a.perform (s.awaiting l) = mapNext (·.awaiting l) (a.perform s) := by
  cases a with
  | start w => exact exec_awaiting s l (decodeCmd s.cfg w)
  | wrFb off b =>
    by_cases ho : off < s.cfg.fbSize
    · rw [HostAccess.perform_wrFb ho]
      exact (HostAccess.perform_wrFb (s := s.awaiting l) ho).trans (congrArg _ (idleWrite_awaiting s l (State.storeFb s off b)))
    · rw [HostAccess.perform_wrFb_outside (Nat.not_lt.1 ho)]
      exact HostAccess.perform_wrFb_outside (s := s.awaiting l) (Nat.not_lt.1 ho)
  | rdFb off =>
    by_cases ho : off < s.cfg.fbSize
    · rw [HostAccess.perform_rdFb ho]
      exact (HostAccess.perform_rdFb (s := s.awaiting l) ho).trans (congrArg _ (readFbByte_awaiting s l off))
    · rw [HostAccess.perform_rdFb_outside (Nat.not_lt.1 ho)]
      exact HostAccess.perform_rdFb_outside (s := s.awaiting l) (Nat.not_lt.1 ho)
  | wrUid u => exact congrArg Host.Outcome.next (idleWrite_awaiting s l { s with ownUid := u })
  | wrRxEnd v =>
    exact congrArg Host.Outcome.next (idleWrite_awaiting s l { s with rxEndTs := tickTrunc s.cfg.timeWidth v })
  | rxEndCap => exact congrArg Host.Outcome.next (idleWrite_awaiting s l { s with rxEndTs := s.now })
  | forbiddenWrite index =>
    by_cases hi : index < 8
    · rw [HostAccess.perform_forbiddenWrite hi, HostAccess.perform_forbiddenWrite hi]
      rfl
    · rw [HostAccess.perform_forbiddenWrite_outside (Nat.not_lt.1 hi),
        HostAccess.perform_forbiddenWrite_outside (Nat.not_lt.1 hi)]
      rfl
  | forbiddenRead index =>
    by_cases hi : index < 8
    · rw [HostAccess.perform_forbiddenRead hi, HostAccess.perform_forbiddenRead hi]
      rfl
    · rw [HostAccess.perform_forbiddenRead_outside (Nat.not_lt.1 hi),
        HostAccess.perform_forbiddenRead_outside (Nat.not_lt.1 hi)]
      rfl
  | _ => rfl

theorem act_sequencer_awaiting :
    Move.act .sequencer (s.awaiting l) = mapNext (·.awaiting l) (Move.act .sequencer s) := by
  cases hd : decodeSeq s.seq with
  | ok i => rw [act_sequencer hd, act_sequencer (s := s.awaiting l) hd, exec_awaiting]
  | rejected e =>
    cases e with
    | unreachableSeqCode code =>
      have hrefused (t : State) (ht : t.seq = s.seq) : Move.act .sequencer t = .refused (.unreachableSeqCode code) := by
        rw [Move.act, fetchMove, fetchPhase, ht, hd]
      rw [hrefused s rfl, hrefused (s.awaiting l) rfl]
      rfl

theorem act_awaiting (m : Move) : m.act (s.awaiting l) = mapNext (·.awaiting l) (m.act s) := by
  cases m with
  | sequencer => exact act_sequencer_awaiting s l
  | tick => exact countTick_awaiting s l
  | host a => exact perform_awaiting s l a
  | regWrite index v => exact perform_awaiting s l (HostAccess.ofWrite s.cfg index v)
  | regRead index => exact perform_awaiting s l (HostAccess.ofRead index)
  | pendingCount c => rfl
  | txReady level => exact driveReady_awaiting s l level
  | txIdle level => exact congrArg _ (driveIdle_awaiting s l level)
  | reset => rfl

end

/-! Runs. -/

/-- The moves `l` one after another. -/
inductive Runs : List Move → State → State → Prop where
  | nil (s : State) : Runs [] s s
  | cons {m : Move} {l : List Move} {s t u : State} (h : m.act s = .next t) (hrest : Runs l t u) : Runs (m :: l) s u

theorem Runs.append {l l' : List Move} {s t u : State} (h : Runs l s t) (h' : Runs l' t u) : Runs (l ++ l') s u := by
  induction h with
  | nil => exact h'
  | cons hact _ ih => exact .cons hact (ih h')

/-- A run over a schedule that is just its moves. -/
theorem Runs.runSteps {l : List Move} {s t : State} (h : Runs l s t) :
    runSteps l.length (s.awaiting l) = .next (t.awaiting []) := by
  induction h with
  | nil s => rfl
  | @cons m l s t u hact _ ih =>
    have hstep : step (s.awaiting (m :: l)) = .next (t.awaiting l) := by
      rw [step_awaiting, act_awaiting, hact]
      rfl
    exact (runSteps_cons hstep _).trans ih

end Sys2Proof.Machine
end

section
/-! A running command: over a loaded frame every move inside the contract is answered, and it leaves the command running
or ends it (R80, R121, R254). -/

namespace Sys2Proof.Machine

/-! What has been written. -/

/-- What of FB has been written in each phase of a command: what the host has loaded (R80); from SWAP on the header and
the message; from GATE on the whole frame. -/
structure State.Loaded (s : State) : Prop where
  atStart : 1 ≤ s.seq.toNat → s.seq.toNat ≤ 2 → s.cfg.supports s.cmdRtype = true → s.written s.cfg.minSize ∧
    ∃ n : Byte, Memory.read s.fb s.cfg.offMl = some n ∧ (s.cmdRtype = s.cfg.rtAck → s.written n.toNat)
  supported : 3 ≤ s.seq.toNat → s.cfg.supports s.cmdRtype = true
  encoding : 3 ≤ s.seq.toNat → s.seq.toNat ≤ 6 → s.written s.cfg.minSize ∧ s.written s.len.toNat
  complete : 7 ≤ s.seq.toNat → s.written (s.len.toNat + 2)

namespace State.Loaded

variable {s t : State}

theorem of_encoding (hs : 3 ≤ t.seq.toNat ∧ t.seq.toNat ≤ 6) (hsup : t.cfg.supports t.cmdRtype = true)
    (hheader : t.written t.cfg.minSize) (hmessage : t.written t.len.toNat) : t.Loaded where
  atStart _ _ := by omega
  supported _ := hsup
  encoding _ _ := ⟨hheader, hmessage⟩
  complete _ := by omega

theorem of_complete (hs : 7 ≤ t.seq.toNat) (hsup : t.cfg.supports t.cmdRtype = true)
    (hframe : t.written (t.len.toNat + 2)) : t.Loaded where
  atStart _ _ := by omega
  supported _ := hsup
  encoding _ _ := by omega
  complete _ := hframe

theorem of_idle (hs : t.seq = 0#4) : t.Loaded := by
  have hs : t.seq.toNat = 0 := by rw [hs]; rfl
  constructor <;> intros <;> omega

/-- The bus phases read the frame and leave it as it is. -/
theorem of_bus (h : s.Loaded) (hs : 7 ≤ s.seq.toNat) (hfb : t.fb = s.fb) (hlen : t.len = s.len) (hcfg : t.cfg = s.cfg)
    (hrtype : t.cmdRtype = s.cmdRtype) (ht : 7 ≤ t.seq.toNat) : t.Loaded :=
  of_complete ht (by rw [hcfg, hrtype]; exact h.supported (by omega))
    fun a ha => by rw [hfb]; exact h.complete hs a (by rw [← hlen]; exact ha)

theorem congr (h : s.Loaded) (ht : t = { s with now := t.now, answers := t.answers, draws := t.draws,
                                                pendingCount := t.pendingCount, txReady := t.txReady, txIdle := t.txIdle }) :
    t.Loaded := by
  obtain ⟨hstart, hsup, hencoding, hcomplete⟩ := h
  rw [ht]
  exact ⟨hstart, hsup, hencoding, hcomplete⟩

end State.Loaded

section
variable {s t : State}

theorem execStamp_loaded (hc : s.cfg.valid = true) (h : s.Loaded) (hs : s.seq = 1#4) (hx : execStamp s = .next t) :
    t.Loaded := by
  have hlayout := Config.layout_of_valid hc
  obtain rfl := execStamp_next hx
  have hstores : Memory.Stores s.cfg s.fb (Memory.write s.fb s.cfg.offMc s.pendingCount) := .write .none _ _ (by omega)
  refine ⟨fun _ _ hsup => ?_, fun h3 => absurd h3 (show ¬ 3 ≤ (2#4).toNat by decide),
    fun h3 => absurd h3 (show ¬ 3 ≤ (2#4).toNat by decide), fun h7 => absurd h7 (show ¬ 7 ≤ (2#4).toNat by decide)⟩
  obtain ⟨hheader, n, hn, hmessage⟩ := h.atStart (by rw [hs]; decide) (by rw [hs]; decide) hsup
  refine ⟨fun a ha => hstores.written (hheader a ha), n, ?_, fun hack a ha => hstores.written (hmessage hack a ha)⟩
  change Memory.read (Memory.write s.fb s.cfg.offMc s.pendingCount) s.cfg.offMl = some n
  rw [Memory.read_write, if_neg (by omega), hn]

theorem execDispatch_loaded (hc : s.cfg.valid = true) (h : s.Loaded) (hs : s.seq = 2#4) (hx : execDispatch s = .next t) :
    t.Loaded := by
  have hlayout := Config.layout_of_valid hc
  rcases execDispatch_next hx with ⟨hack, n, hn, rfl⟩ | ⟨-, hvalue, n, hn, rfl⟩ | ⟨-, rfl⟩
  · have hsup := Config.supports_of_ack hack
    obtain ⟨hheader, k, hk, hmessage⟩ := h.atStart (by rw [hs]; decide) (by rw [hs]; decide) hsup
    rw [Memory.read_write, if_neg (by omega), hk] at hn
    obtain rfl := Option.some.inj hn
    have hstores : Memory.Stores s.cfg s.fb (Memory.write s.fb s.cfg.offRt s.cfg.rtAck) := .write .none _ _ (by omega)
    exact .of_encoding (show 3 ≤ (3#4).toNat ∧ (3#4).toNat ≤ 6 by decide) hsup
      (fun a ha => hstores.written (hheader a ha)) fun a ha => hstores.written (hmessage hack a ha)
  · have hsup := Config.supports_of_value hvalue
    obtain ⟨hheader, -⟩ := h.atStart (by rw [hs]; decide) (by rw [hs]; decide) hsup
    rw [Memory.read_storeValueResponse_length hc] at hn
    obtain rfl := Option.some.inj hn
    have hstores := Memory.Stores.storeValueResponse hc s.fb s.cmdRtype s.cmdValue
    refine .of_encoding (show 3 ≤ (3#4).toNat ∧ (3#4).toNat ≤ 6 by decide) hsup
      (fun a ha => hstores.written (hheader a ha)) fun a (ha : a < s.cfg.valueLength.toNat) => ?_
    rw [Config.valueLength_toNat hc] at ha
    by_cases hlow : a < s.cfg.minSize
    · exact hstores.written (hheader a hlow)
    · change ∃ b, Memory.read (Memory.storeValueResponse s.cfg s.fb s.cmdRtype s.cmdValue) a = some b
      rw [Memory.read_storeValueResponse]
      by_cases hlast : a = s.cfg.minSize + 1
      · exact ⟨_, if_pos hlast⟩
      · exact ⟨_, (if_neg hlast).trans (if_pos (by omega))⟩
  · exact .of_idle rfl

theorem execSwap_loaded (hc : s.cfg.valid = true) (h : s.Loaded) (hs : s.seq = 3#4) (hx : execSwap s = .next t) :
    t.Loaded := by
  obtain ⟨m, hm, rfl⟩ := execSwap_next hx
  obtain ⟨hheader, hmessage⟩ := h.encoding (by rw [hs]; decide) (by rw [hs]; decide)
  have hstores := Memory.Stores.swapUid hc s.ownUid 6 0 s.fb m (by decide) .none hm
  exact .of_encoding (show 3 ≤ (4#4).toNat ∧ (4#4).toNat ≤ 6 by decide) (h.supported (by rw [hs]; decide))
    (fun a ha => hstores.written (hheader a ha)) fun a ha => hstores.written (hmessage a ha)

theorem execClass_loaded (hc : s.cfg.valid = true) (h : s.Loaded) (hs : s.seq = 4#4) (hx : execClass s = .next t) :
    t.Loaded := by
  have hlayout := Config.layout_of_valid hc
  obtain ⟨b, -, rfl⟩ := execClass_next hx
  obtain ⟨hheader, hmessage⟩ := h.encoding (by rw [hs]; decide) (by rw [hs]; decide)
  have hstores : Memory.Stores s.cfg s.fb (Memory.write s.fb s.cfg.offCc (b + 1#8)) := .write .none _ _ (by omega)
  exact .of_encoding (show 3 ≤ (5#4).toNat ∧ (5#4).toNat ≤ 6 by decide) (h.supported (by rw [hs]; decide))
    (fun a ha => hstores.written (hheader a ha)) fun a ha => hstores.written (hmessage a ha)

theorem execCsum_loaded (h : s.Loaded) (hs : s.seq = 5#4) (hx : execCsum s = .next t) : t.Loaded := by
  obtain ⟨v, -, rfl⟩ := execCsum_next hx
  obtain ⟨hheader, hmessage⟩ := h.encoding (by rw [hs]; decide) (by rw [hs]; decide)
  exact .of_encoding (show 3 ≤ (6#4).toNat ∧ (6#4).toNat ≤ 6 by decide) (h.supported (by rw [hs]; decide)) hheader
    hmessage

theorem execAppend_loaded (h : s.Loaded) (hs : s.seq = 6#4) (hx : execAppend s = .next t) : t.Loaded := by
  obtain rfl := execAppend_next hx
  obtain ⟨-, hmessage⟩ := h.encoding (by rw [hs]; decide) (by rw [hs]; decide)
  refine .of_complete (show 7 ≤ (7#4).toNat by decide) (h.supported (by rw [hs]; decide)) fun a ha => ?_
  change a < s.len.toNat + 2 at ha
  change ∃ b, Memory.read (Memory.write16be s.fb s.len.toNat s.csum) a = some b
  rw [Memory.read_write16be]
  by_cases hlast : a = s.len.toNat + 1
  · exact ⟨_, if_pos hlast⟩
  · by_cases hfirst : a = s.len.toNat
    · exact ⟨_, (if_neg hlast).trans (if_pos hfirst)⟩
    · rw [if_neg hlast, if_neg hfirst]
      exact hmessage a (by omega)

end

/-! What a change leaves of the command's operands. -/

theorem Sends.command_eq {s t : State} (hx : Sends s t) :
    t.fb = s.fb ∧ t.len = s.len ∧ t.cmdRtype = s.cmdRtype ∧ t.cmdValue = s.cmdValue := by
  cases hx with
  | nothing => exact ⟨rfl, rfl, rfl, rfl⟩
  | byte _ _ ht =>
    obtain ⟨b, -, hframe⟩ := handOver_frame ht
    rw [hframe]
    exact ⟨rfl, rfl, rfl, rfl⟩
  | done _ _ _ => exact ⟨rfl, rfl, rfl, rfl⟩

theorem PhaseChange.command_eq {s t : State} (hx : PhaseChange s t) :
    t.cfg = s.cfg ∧ t.cmdRtype = s.cmdRtype ∧ t.cmdValue = s.cmdValue := by
  cases hx <;> exact ⟨rfl, rfl, rfl⟩

/-- From GATE on a phase leaves the frame alone and goes on, but for DIR_IN. -/
theorem PhaseChange.bus_frame {s t : State} (hx : PhaseChange s t) (hs : 7 ≤ s.seq.toNat) :
    t.fb = s.fb ∧ t.len = s.len ∧ (t.seq = 0#4 ∨ 7 ≤ t.seq.toNat) := by
  cases hx with
  | encoded m n v i c h _ _ _ => omega
  | aborted hs' _ => exact ⟨rfl, rfl, .inl rfl⟩
  | gateSkipped _ _ _ => exact ⟨rfl, rfl, .inr (show 7 ≤ (8#4).toNat by decide)⟩
  | delayEnded c hs' hc _ _ =>
    refine ⟨rfl, rfl, .inr (show 7 ≤ c.toNat from ?_)⟩
    rcases hs' with hs' | hs' <;> rw [hc, hs'] <;> decide
  | dirOut _ => exact ⟨rfl, rfl, .inr (show 7 ≤ (9#4).toNat by decide)⟩
  | settleSkipped _ _ => exact ⟨rfl, rfl, .inr (show 7 ≤ (11#4).toNat by decide)⟩
  | dirIn _ => exact ⟨rfl, rfl, .inl rfl⟩
  | _ => exact ⟨rfl, rfl, .inr hs⟩

theorem Sends.loaded {s t : State} (hx : Sends s t) (h : s.Inv) (hl : s.Loaded) : t.Loaded := by
  obtain ⟨hfb, hlen, hrtype, -⟩ := hx.command_eq
  cases hx with
  | nothing => exact hl
  | byte hv _ ht =>
    obtain ⟨hactive, -⟩ := h.offered hv
    have hs := h.txActiveSend hactive
    exact hl.of_bus (by rw [hs]; decide) hfb hlen (Sends.byte hv ‹_› ht).cfg_eq hrtype
      (by rw [h.handOver_seq hv ht]; decide)
  | done hactive _ _ =>
    exact hl.of_bus (by rw [h.txActiveSend hactive]; decide) rfl rfl rfl rfl (show 7 ≤ (10#4).toNat by decide)

/-- A phase over a loaded frame leaves a loaded frame. -/
theorem exec_loaded {i : Instr} {s t : State} (h : s.Inv) (hl : s.Loaded) (hd : decodeSeq s.seq = .ok i)
    (hx : exec i s = .next t) : t.Loaded := by
  have hc := h.cfgValid
  have hbus (hs : 7 ≤ s.seq.toNat) : t.Loaded := by
    rcases exec_phase_change hd hx with hphase | ⟨-, -, hsends⟩
    · obtain ⟨hfb, hlen, hidle | hlate⟩ := hphase.bus_frame hs
      · exact .of_idle hidle
      · exact hl.of_bus hs hfb hlen hphase.command_eq.1 hphase.command_eq.2.1 hlate
    · exact hsends.loaded h hl
  cases i with
  | respondAck v => exact absurd hd (not_decodeSeq_cmd rfl)
  | respondAckTimer v => exact absurd hd (not_decodeSeq_cmd rfl)
  | respondNack v => exact absurd hd (not_decodeSeq_cmd rfl)
  | respondRaw r v => exact absurd hd (not_decodeSeq_cmd rfl)
  | idle =>
    obtain rfl : s = t := Host.Outcome.next.inj hx
    exact hl
  | stamp => exact execStamp_loaded hc hl (seq_eq_of_decode hd rfl) hx
  | dispatch => exact execDispatch_loaded hc hl (seq_eq_of_decode hd rfl) hx
  | swap => exact execSwap_loaded hc hl (seq_eq_of_decode hd rfl) hx
  | classAdvance => exact execClass_loaded hc hl (seq_eq_of_decode hd rfl) hx
  | csum => exact execCsum_loaded hl (seq_eq_of_decode hd rfl) hx
  | append => exact execAppend_loaded hl (seq_eq_of_decode hd rfl) hx
  | gate => exact hbus (by rw [seq_eq_of_decode hd rfl]; decide)
  | dirOut => exact hbus (by rw [seq_eq_of_decode hd rfl]; decide)
  | send => exact hbus (by rw [seq_eq_of_decode hd rfl]; decide)
  | settle => exact hbus (by rw [seq_eq_of_decode hd rfl]; decide)
  | dirIn => exact hbus (by rw [seq_eq_of_decode hd rfl]; decide)

/-! Every move is answered. -/

/-- A phase that does not stop answers a next state. -/
theorem exec_answers {i : Instr} {s : State} (h : ¬ Instr.stopsIn i s) : ∃ t, exec i s = .next t := by
  cases hx : exec i s with
  | next t => exact ⟨t, rfl⟩
  | fault e =>
    cases e with
    | unwrittenRead a => exact absurd ⟨a, hx⟩ h
  | refused e => exact absurd hx (exec_ne_refused i s e)

theorem read_ne_none_of_written {s : State} {n a : Nat} (h : s.written n) (ha : a < n) : Memory.read s.fb a ≠ none :=
  Option.ne_none_iff_exists'.2 (h a ha)

/-- Over a loaded frame no phase stops. -/
theorem not_stopsIn_of_loaded {i : Instr} {s : State} (h : s.Inv) (hl : s.Loaded) (hd : decodeSeq s.seq = .ok i) :
    ¬ Instr.stopsIn i s := by
  have hc := h.cfgValid
  have hlayout := Config.layout_of_valid hc
  obtain ⟨-, -, -, -, -, -, -, hanswers⟩ := phasesFaultExactlyOnUnwrittenBytes s hc
  have answered (hi : i = .idle ∨ i = .stamp ∨ i = .append ∨ i = .gate ∨ i = .dirOut ∨ i = .settle ∨ i = .dirIn) :
      ¬ Instr.stopsIn i s := by
    obtain ⟨t, ht⟩ := hanswers i hi
    exact Instr.not_stopsIn ht
  cases i with
  | respondAck v => exact absurd hd (not_decodeSeq_cmd rfl)
  | respondAckTimer v => exact absurd hd (not_decodeSeq_cmd rfl)
  | respondNack v => exact absurd hd (not_decodeSeq_cmd rfl)
  | respondRaw r v => exact absurd hd (not_decodeSeq_cmd rfl)
  | dispatch =>
    have hs := seq_eq_of_decode hd rfl
    rw [dispatch_stopsIn_iff hc]
    rintro ⟨hack, hnone⟩
    obtain ⟨-, n, hn, -⟩ := hl.atStart (by rw [hs]; decide) (by rw [hs]; decide) (Config.supports_of_ack hack)
    cases hnone.symm.trans hn
  | swap =>
    have hs := seq_eq_of_decode hd rfl
    rw [swap_stopsIn_iff hc]
    rintro ⟨i, hi, hnone⟩
    have hheader := (hl.encoding (by rw [hs]; decide) (by rw [hs]; decide)).1
    exact read_ne_none_of_written hheader (by omega) hnone
  | classAdvance =>
    have hs := seq_eq_of_decode hd rfl
    rw [classAdvance_stopsIn_iff]
    have hheader := (hl.encoding (by rw [hs]; decide) (by rw [hs]; decide)).1
    exact read_ne_none_of_written hheader (by omega)
  | csum =>
    have hs := seq_eq_of_decode hd rfl
    rw [csum_stopsIn_iff]
    rintro ⟨a, ha, hnone⟩
    have hmessage := (hl.encoding (by rw [hs]; decide) (by rw [hs]; decide)).2
    exact read_ne_none_of_written hmessage ha hnone
  | send =>
    have hframe := hl.complete (by rw [seq_eq_of_decode hd rfl]; decide)
    cases ha : s.txActive with
    | false =>
      rw [send_stopsIn_iff_of_entry ha]
      exact read_ne_none_of_written hframe (by omega)
    | true =>
      rw [send_stopsIn_iff_of_active ha]
      rintro ⟨hi, -, hnone | ⟨-, hmore, hnone⟩⟩
      · exact read_ne_none_of_written hframe hi hnone
      · exact read_ne_none_of_written hframe hmore hnone
  | _ => exact answered (by simp)

/-- Over a loaded frame an offered byte can be taken. -/
theorem takeOffered_answers {s : State} (h : s.Inv) (hl : s.Loaded) : ∃ t, takeOffered s = .next t := by
  by_cases hv : s.txValid = true ∧ s.txReady = true
  · obtain ⟨hactive, hi, -⟩ := h.offered hv.1
    have hs := h.txActiveSend hactive
    have hd : decodeSeq s.seq = .ok .send := by rw [hs]; rfl
    obtain ⟨t, ht⟩ := exec_answers (not_stopsIn_of_loaded h hl hd)
    rw [exec_send_handOver hactive hi hv.1 hv.2] at ht
    exact ⟨t, (takeOffered_ready hv.1 hv.2).trans ht⟩
  · exact ⟨s, if_neg hv⟩

theorem mapNext_answers {f : State → State} {r : Result} (h : ∃ t, r = .next t) : ∃ t, mapNext f r = .next t := by
  obtain ⟨t, rfl⟩ := h
  exact ⟨f t, rfl⟩

theorem HostAccess.inRange_of_inContract {c : Config} {a : HostAccess} (h : (Move.host a).inContract c = true) :
    a.inRange c := by
  cases a with
  | wrFb off b => exact of_decide_eq_true (p := off < c.fbSize) h
  | rdFb off => exact of_decide_eq_true (p := off < c.fbSize) h
  | forbiddenWrite index => exact of_decide_eq_true (p := index < 8) h
  | forbiddenRead index => exact of_decide_eq_true (p := index < 8) h
  | _ => trivial

theorem decodeSeq_of_lt {code : SeqCode} (h : code.toNat < 12) : ∃ i, decodeSeq code = .ok i := by
  have hall : ∀ c : SeqCode, c.toNat < 12 → ∃ i ∈ ([.idle, .stamp, .dispatch, .swap, .classAdvance, .csum, .append, .gate,
      .dirOut, .send, .settle, .dirIn] : List Instr), decodeSeq c = .ok i := by decide
  obtain ⟨i, -, hi⟩ := hall code h
  exact ⟨i, hi⟩

/-- Over a loaded frame every move inside the contract is answered (R80, R210). -/
theorem act_answers {m : Move} {s : State} (h : s.Inv) (hl : s.Loaded) (hm : m.inContract s.cfg = true) :
    ∃ t, m.act s = .next t := by
  cases m with
  | sequencer =>
    obtain ⟨i, hd⟩ := decodeSeq_of_lt h.seqCode
    rw [act_sequencer hd]
    exact exec_answers (not_stopsIn_of_loaded h hl hd)
  | tick => exact mapNext_answers (takeOffered_answers h hl)
  | host a => exact HostAccess.perform_answers a s (HostAccess.inRange_of_inContract hm)
  | regWrite index v =>
    exact HostAccess.perform_answers _ s (HostAccess.ofWrite_inRange (of_decide_eq_true hm) s.cfg v)
  | regRead index => exact HostAccess.perform_answers _ s (HostAccess.ofRead_inRange (of_decide_eq_true hm) s.cfg)
  | txReady level =>
    refine mapNext_answers ?_
    cases level with
    | true => exact ⟨s, rfl⟩
    | false => exact takeOffered_answers h hl
  | _ => exact ⟨_, rfl⟩

end Sys2Proof.Machine
end

section
/-! What a move does while a command runs, and how it brings the command nearer to its end (R121, R171, R236). -/

namespace Sys2Proof.Machine

/-! The moves of a running command. -/

/-- Move `m` changes NOW to `now`, `tx_ready` to `ready` and `tx_idle` to `idle`, and the block sees nothing of it: no
byte is taken, and no report is seen. -/
structure State.HeldBy (s : State) (m : Move) (now : Nat) (ready idle : Bool) : Prop where
  now_eq : now = if m = .tick then tickSucc s.cfg.timeWidth s.now else s.now
  raisesReady : m = .txReady true → ready = true
  raisesIdle : m = .txIdle true → idle = true
  /-- An offered byte is not taken (R178). -/
  notTaken : s.txValid = true → s.txReady = true → m ≠ .tick ∧ ready = true
  /-- A report is not seen (R45). -/
  notReported : s.txActive = true → s.txValid = false → s.len.toNat + 2 ≤ s.idx.toNat → s.txIdle = true →
    m ≠ .tick ∧ idle = true
  sequencer : m = .sequencer → s.txActive = true

/-- What move `m` of any agent but the reset input does while a command runs. -/
inductive Turn (s : State) (m : Move) : State → Prop where
  | phase {i : Instr} {t : State} (hm : m = .sequencer) (hd : decodeSeq s.seq = .ok i) (hx : exec i s = .next t)
      (h : PhaseChange s t) : Turn s m t
  /-- A byte is taken (R178). -/
  | byte {u : State} (hv : s.txValid = true) (hr : s.txReady = true) (hu : handOver s = .next u) (now : Nat)
      (answers : List HostAnswer) (draws : Nat) (count : Byte) (ready idle : Bool) :
      Turn s m { u with now := now, answers := answers, draws := draws, pendingCount := count, txReady := ready,
                        txIdle := idle }
  /-- The report of the end is seen (R45). -/
  | done (ha : s.txActive = true) (hi : s.len.toNat + 2 ≤ s.idx.toNat) (hx : s.txIdle = true) (now : Nat)
      (hnow : now = s.now ∨ now = tickSucc s.cfg.timeWidth s.now) (idle : Bool) :
      Turn s m { s with txActive := false, txValid := false, t0 := s.now, dly := s.cfg.dirSwitch, delaying := true,
                        trace := s.trace ++ [Event.txDone s.now], seq := 10#4, now := now, txIdle := idle }
  | held (now : Nat) (answers : List HostAnswer) (draws : Nat) (count : Byte) (ready idle : Bool)
      (h : s.HeldBy m now ready idle) :
      Turn s m { s with now := now, answers := answers, draws := draws, pendingCount := count, txReady := ready,
                        txIdle := idle }

section
variable {s t : State} {m : Move}

/-- An answer to the host or a new PENDING_COUNT. -/
theorem Turn.answered (htick : m ≠ .tick) (hseq : m ≠ .sequencer) (hready : m ≠ .txReady true) (hidle : m ≠ .txIdle true)
    (answers : List HostAnswer) (draws : Nat) (count : Byte) :
    Turn s m { s with answers := answers, draws := draws, pendingCount := count } :=
  .held s.now answers draws count s.txReady s.txIdle
    { now_eq := (if_neg htick).symm
      raisesReady := fun h => absurd h hready
      raisesIdle := fun h => absurd h hidle
      notTaken := fun _ hr => ⟨htick, hr⟩
      notReported := fun _ _ _ hx => ⟨htick, hx⟩
      sequencer := fun h => absurd h hseq }

/-- While a command runs a host access leaves an answer or a new PENDING_COUNT (R210). -/
theorem perform_turn {a : HostAccess} (hb : s.busy = true) (htick : m ≠ .tick) (hseq : m ≠ .sequencer)
    (hready : m ≠ .txReady true) (hidle : m ≠ .txIdle true) (hx : a.perform s = .next t) : Turn s m t := by
  by_cases hset : ∃ c, a = .setCnt c
  · obtain ⟨c, rfl⟩ := hset
    obtain rfl := Host.Outcome.next.inj ((HostAccess.perform_setCnt c s).symm.trans hx)
    exact .answered htick hseq hready hidle _ _ c
  · rw [HostAccess.perform_of_busy hb (not_exists.1 hset) hx]
    exact .answered htick hseq hready hidle _ _ _

theorem sequencer_turn (h : s.Inv) (hx : Move.act .sequencer s = .next t) : Turn s .sequencer t := by
  obtain ⟨i, hd⟩ := decodeSeq_of_lt h.seqCode
  rw [act_sequencer hd] at hx
  rcases exec_phase_change hd hx with hphase | ⟨-, ha, hsends⟩
  · exact .phase rfl hd hx hphase
  · cases hsends with
    | nothing =>
      exact .held _ _ _ _ _ _
        { now_eq := rfl
          raisesReady := nofun
          raisesIdle := nofun
          notTaken := fun _ hr => ⟨nofun, hr⟩
          notReported := fun _ _ _ hx => ⟨nofun, hx⟩
          sequencer := fun _ => ha }
    | byte hv hr hu => exact .byte hv hr hu _ _ _ _ _ _
    | done ha hi hidle => exact .done ha hi hidle _ (.inl rfl) _

theorem tick_turn (hx : Move.act .tick s = .next t) : Turn s .tick t := by
  rcases countTick_next hx with ⟨hv, hr, u, hu, rfl⟩ | ⟨ha, -, hi, hidle, rfl⟩ | ⟨hheld, hunseen, rfl⟩
  · exact .byte hv hr hu _ _ _ _ _ _
  · exact .done ha hi hidle _ (.inr rfl) _
  · exact .held _ _ _ _ _ _
      { now_eq := rfl
        raisesReady := nofun
        raisesIdle := nofun
        notTaken := fun hv hr => by simp [hheld hv] at hr
        notReported := fun ha hv hi hx => by simp [hunseen ha hv hi] at hx
        sequencer := nofun }

theorem txReady_turn {level : Bool} (hx : Move.act (.txReady level) s = .next t) : Turn s (.txReady level) t := by
  rcases driveReady_next hx with ⟨-, hv, hr, u, hu, rfl⟩ | ⟨hheld, rfl⟩
  · exact .byte hv hr hu _ _ _ _ _ _
  · refine .held _ _ _ _ _ _
      { now_eq := rfl
        raisesReady := Move.txReady.inj
        raisesIdle := nofun
        notTaken := fun hv hr => ⟨nofun, ?_⟩
        notReported := fun _ _ _ hx => ⟨nofun, hx⟩
        sequencer := nofun }
    cases level with
    | true => rfl
    | false => simp [hheld rfl hv] at hr

theorem txIdle_turn {level : Bool} (hx : Move.act (.txIdle level) s = .next t) : Turn s (.txIdle level) t := by
  obtain rfl := Host.Outcome.next.inj hx
  have held (hseen : s.txActive = true → s.txValid = false → s.len.toNat + 2 ≤ s.idx.toNat → s.txIdle = true →
      level = true) : Turn s (.txIdle level) { s with txIdle := level } :=
    .held _ _ _ _ _ _
      { now_eq := rfl
        raisesReady := nofun
        raisesIdle := Move.txIdle.inj
        notTaken := fun _ hr => ⟨nofun, hr⟩
        notReported := fun ha hv hi hx => ⟨nofun, hseen ha hv hi hx⟩
        sequencer := nofun }
  cases level with
  | true => exact held fun _ _ _ _ => rfl
  | false =>
    change Turn s (.txIdle false) { State.seeReport s with txIdle := false }
    rcases State.seeReport_cases s with ⟨ha, -, hi, hidle, hsee⟩ | ⟨hunseen, hsee⟩ <;> rw [hsee]
    · exact .done ha hi hidle _ (.inl rfl) _
    · exact held fun ha hv hi hx => by simp [hunseen ha hv hi] at hx

/-- While a command runs every move but the reset input's is a turn. -/
theorem act_turn (h : s.Inv) (hs : s.seq ≠ 0#4) (hm : m ≠ .reset) (hx : m.act s = .next t) : Turn s m t := by
  have hb := h.busy_of_seq hs
  cases m with
  | sequencer => exact sequencer_turn h hx
  | tick => exact tick_turn hx
  | host a => exact perform_turn hb nofun nofun nofun nofun hx
  | regWrite index v => exact perform_turn (a := HostAccess.ofWrite s.cfg index v) hb nofun nofun nofun nofun hx
  | regRead index => exact perform_turn (a := HostAccess.ofRead index) hb nofun nofun nofun nofun hx
  | pendingCount c =>
    rw [← Host.Outcome.next.inj hx]
    exact Turn.answered (m := .pendingCount c) nofun nofun nofun nofun s.answers s.draws c
  | txReady level => exact txReady_turn hx
  | txIdle level => exact txIdle_turn hx
  | reset => exact absurd rfl hm

end

/-! What a turn keeps. -/

namespace Turn

variable {s t : State} {m : Move}

theorem command_eq (hx : Turn s m t) : t.cfg = s.cfg ∧ t.cmdRtype = s.cmdRtype ∧ t.cmdValue = s.cmdValue := by
  cases hx with
  | phase _ _ _ h => exact h.command_eq
  | byte hv hr hu now answers draws count ready idle =>
    have hsends := Sends.byte hv hr hu
    exact ⟨hsends.cfg_eq, hsends.command_eq.2.2⟩
  | done _ _ _ _ _ _ => exact ⟨rfl, rfl, rfl⟩
  | held _ _ _ _ _ _ _ => exact ⟨rfl, rfl, rfl⟩

theorem loaded (hx : Turn s m t) (h : s.Inv) (hl : s.Loaded) : t.Loaded := by
  cases hx with
  | phase _ hd hx _ => exact exec_loaded h hl hd hx
  | byte hv hr hu now answers draws count ready idle => exact ((Sends.byte hv hr hu).loaded h hl).congr rfl
  | done ha hi hx now _ idle => exact ((Sends.done ha hi hx).loaded h hl).congr rfl
  | held now answers draws count ready idle _ => exact hl.congr rfl

/-- A command that returns has been aborted, as its type is not supported, or has restored the line. -/
theorem status_of_returned (hx : Turn s m t) (h : s.Inv) (hl : s.Loaded) (hs : s.seq ≠ 0#4) (ht : t.seq = 0#4) :
    t.status = if s.cfg.supports s.cmdRtype = true then 0b0110#4 else 0b1010#4 := by
  have hst := h.status_of_busy (h.busy_of_seq hs)
  cases hx with
  | phase _ _ _ hphase =>
    cases hphase with
    | aborted _ hsup =>
      rw [if_neg (by simp [hsup])]
      exact congrArg statusAborted hst
    | dirIn hs =>
      rw [if_pos (hl.supported (by rw [hs]; decide))]
      exact congrArg statusSent hst
    | encoded m n v i c hs hc _ _ =>
      have hnext := seq_succ_toNat hc hs.2
      have hzero : c.toNat = 0 := congrArg BitVec.toNat ht
      omega
    | delayEnded c hs hc _ _ =>
      have hzero : c = 0#4 := ht
      rcases hs with hs | hs <;> rw [hs, hzero] at hc <;> exact absurd hc (by decide)
    | gateSkipped _ _ _ => exact absurd ht (by change ¬ (8#4 = 0#4); decide)
    | dirOut _ => exact absurd ht (by change ¬ (9#4 = 0#4); decide)
    | settleSkipped _ _ => exact absurd ht (by change ¬ (11#4 = 0#4); decide)
    | _ => exact absurd ht hs
  | byte hv _ hu _ _ _ _ _ _ => exact absurd ((h.handOver_seq hv hu).symm.trans ht) (by decide)
  | done _ _ _ _ _ _ => exact absurd ht (by change ¬ (10#4 = 0#4); decide)
  | held _ _ _ _ _ _ _ => exact absurd ht hs

end Turn

/-! What a running command waits for. -/

/-- The move that the command waits for, after a number that falls as it goes on within a phase: a tick while a delay
runs; in SEND, the serialiser ready, then a tick in which a byte is taken or the report is seen; else the sequencer. -/
def State.hold (s : State) : Nat × Move :=
  if s.delaying then (2 ^ s.cfg.timeWidth - s.waited, .tick)
  else if s.txActive then
    if s.idx.toNat < s.len.toNat + 2 then
      if s.txReady then (2 * (s.len.toNat + 2 - s.idx.toNat), .tick)
      else (2 * (s.len.toNat + 2 - s.idx.toNat) + 1, .txReady true)
    else if s.txIdle then (0, .tick)
    else (1, .txIdle true)
  else (2 ^ s.cfg.timeWidth + 1001, .sequencer)

namespace State

variable {s : State}

theorem hold_of_delaying (hd : s.delaying = true) : s.hold = (2 ^ s.cfg.timeWidth - s.waited, .tick) := by
  rw [hold, if_pos hd]

theorem hold_of_inactive (hd : s.delaying = false) (ha : s.txActive = false) :
    s.hold = (2 ^ s.cfg.timeWidth + 1001, .sequencer) := by
  simp [hold, hd, ha]

theorem hold_of_offered (hd : s.delaying = false) (ha : s.txActive = true) (hi : s.idx.toNat < s.len.toNat + 2) :
    s.hold = if s.txReady then (2 * (s.len.toNat + 2 - s.idx.toNat), .tick)
      else (2 * (s.len.toNat + 2 - s.idx.toNat) + 1, .txReady true) := by
  simp [hold, hd, ha, hi]

theorem hold_of_over (hd : s.delaying = false) (ha : s.txActive = true) (hi : s.len.toNat + 2 ≤ s.idx.toNat) :
    s.hold = if s.txIdle then (0, .tick) else (1, .txIdle true) := by
  simp [hold, hd, ha, Nat.not_lt.2 hi]

theorem hold_le_of_active (hd : s.delaying = false) (ha : s.txActive = true) :
    s.hold.1 ≤ 2 * (s.len.toNat + 2 - s.idx.toNat) + 1 := by
  by_cases hi : s.idx.toNat < s.len.toNat + 2
  · rw [hold_of_offered hd ha hi]
    split <;> simp
  · rw [hold_of_over hd ha (Nat.not_lt.1 hi)]
    split <;> simp

theorem Inv.not_delaying_of_active (h : s.Inv) (ha : s.txActive = true) : s.delaying = false := by
  have hs := h.txActiveSend ha
  exact h.not_delaying (by rw [hs]; decide) (by rw [hs]; decide)

/-- Move `m` takes the command to a later phase, or nearer to the end of its phase, or was not the one it waits for. -/
def Advances (s : State) (m : Move) (t : State) : Prop :=
  s.seq.toNat < t.seq.toNat ∨ t.seq = s.seq ∧ (t.hold.1 < s.hold.1 ∨ t.hold = s.hold ∧ m ≠ s.hold.2)

end State

section
variable {s t : State} {m : Move}

theorem PhaseChange.advances (hx : PhaseChange s t) (h : s.Inv) (hs : s.seq ≠ 0#4) :
    t.seq = 0#4 ∨ s.Advances .sequencer t := by
  cases hx with
  | idle hs' => exact absurd hs' hs
  | encoded m n v i c hs hc _ _ =>
    have hnext := seq_succ_toNat hc hs.2
    exact .inr (.inl (show s.seq.toNat < c.toNat by omega))
  | aborted _ _ => exact .inl rfl
  | gateBegun hs hd _ =>
    refine .inr (.inr ⟨rfl, .inl ?_⟩)
    rw [State.hold_of_delaying rfl, State.hold_of_inactive hd (h.inactive (by rw [hs]; decide))]
    exact (Nat.sub_le _ _).trans_lt (Nat.lt_add_of_pos_right (by decide))
  | gateSkipped hs _ _ => exact .inr (.inl (show s.seq.toNat < (8#4).toNat by rw [hs]; decide))
  | delayHeld _ hd _ => exact .inr (.inr ⟨rfl, .inr ⟨rfl, by rw [State.hold_of_delaying hd]; nofun⟩⟩)
  | delayEnded c hs hc _ _ =>
    refine .inr (.inl (show s.seq.toNat < c.toNat from ?_))
    rcases hs with hs | hs <;> rw [hc, hs] <;> decide
  | dirOut hs => exact .inr (.inl (show s.seq.toNat < (9#4).toNat by rw [hs]; decide))
  | sendBegun hs ha b _ =>
    have hd := h.not_delaying (by rw [hs]; decide) (by rw [hs]; decide)
    refine .inr (.inr ⟨rfl, .inl ?_⟩)
    rw [State.hold_of_inactive hd ha]
    refine (State.hold_le_of_active (s := { s with idx := 0#9, txActive := true, txData := b, txValid := true }) hd rfl).trans_lt ?_
    change 2 * (s.len.toNat + 2 - 0) + 1 < 2 ^ s.cfg.timeWidth + 1001
    have := s.len.isLt
    have := Nat.two_pow_pos s.cfg.timeWidth
    omega
  | sendOffered _ ha hi hv b _ => simp [h.offering ha hi] at hv
  | sendHeld _ ha hi _ hr =>
    refine .inr (.inr ⟨rfl, .inr ⟨rfl, ?_⟩⟩)
    rw [State.hold_of_offered (h.not_delaying_of_active ha) ha hi, hr]
    nofun
  | sendWaits _ ha hi hx =>
    refine .inr (.inr ⟨rfl, .inr ⟨rfl, ?_⟩⟩)
    rw [State.hold_of_over (h.not_delaying_of_active ha) ha hi, hx]
    nofun
  | settleBegun hs hd => simp [h.settleBegun hs] at hd
  | settleSkipped hs hd => simp [h.settleBegun hs] at hd
  | dirIn _ => exact .inl rfl

/-- A move of which the block sees nothing counts a delay on, raises a level that is waited for, or was not waited for. -/
theorem State.HeldBy.advances {now : Nat} {ready idle : Bool} (hm : s.HeldBy m now ready idle) (h : s.Inv)
    (hwrap : s.delaying = true → m = .tick → s.waited + 1 < 2 ^ s.cfg.timeWidth)
    (answers : List HostAnswer) (draws : Nat) (count : Byte) :
    s.Advances m { s with now := now, answers := answers, draws := draws, pendingCount := count, txReady := ready,
                          txIdle := idle } := by
  refine .inr ⟨rfl, ?_⟩
  have hnow := hm.now_eq
  dsimp only [State.hold]
  by_cases hd : s.delaying = true
  · rw [if_pos hd, if_pos hd]
    by_cases htick : m = .tick
    · rw [if_pos htick] at hnow
      have hwaited := State.waited_ticked h (hwrap hd htick)
      rw [← hnow] at hwaited
      refine .inl (show 2 ^ s.cfg.timeWidth - State.waited { s with now := now } < 2 ^ s.cfg.timeWidth - s.waited from ?_)
      have := hwrap hd htick
      omega
    · rw [if_neg htick] at hnow
      rw [hnow]
      exact .inr ⟨rfl, htick⟩
  rw [if_neg hd, if_neg hd]
  by_cases ha : s.txActive = true
  · rw [if_pos ha, if_pos ha]
    by_cases hi : s.idx.toNat < s.len.toNat + 2
    · rw [if_pos hi, if_pos hi]
      cases hr : s.txReady with
      | true =>
        obtain ⟨htick, rfl⟩ := hm.notTaken (h.offering ha hi) hr
        exact .inr ⟨rfl, htick⟩
      | false =>
        cases ready with
        | true => exact .inl (Nat.lt_succ_self _)
        | false => exact .inr ⟨rfl, fun hraise => absurd (hm.raisesReady hraise) Bool.false_ne_true⟩
    · rw [if_neg hi, if_neg hi]
      have hv : s.txValid = false := Bool.eq_false_iff.2 fun hv => hi (h.offered hv).2.1
      cases hx : s.txIdle with
      | true =>
        obtain ⟨htick, rfl⟩ := hm.notReported ha hv (Nat.not_lt.1 hi) hx
        exact .inr ⟨rfl, htick⟩
      | false =>
        cases idle with
        | true => exact .inl Nat.zero_lt_one
        | false => exact .inr ⟨rfl, fun hraise => absurd (hm.raisesIdle hraise) Bool.false_ne_true⟩
  · rw [if_neg ha, if_neg ha]
    exact .inr ⟨rfl, fun hseq => ha (hm.sequencer hseq)⟩

/-- Every turn ends the command or advances it. -/
theorem Turn.advances (hx : Turn s m t) (h : s.Inv) (hs : s.seq ≠ 0#4)
    (hwrap : s.delaying = true → m = .tick → s.waited + 1 < 2 ^ s.cfg.timeWidth) : t.seq = 0#4 ∨ s.Advances m t := by
  cases hx with
  | phase hm _ _ hphase =>
    rw [hm]
    exact hphase.advances h hs
  | byte hv hr hu now answers draws count ready idle =>
    obtain ⟨ha, hi, -⟩ := h.offered hv
    have hd := h.not_delaying_of_active ha
    obtain ⟨b, -, hframe⟩ := handOver_frame hu
    rw [hframe]
    refine .inr (.inr ⟨rfl, .inl ?_⟩)
    rw [State.hold_of_offered hd ha hi, if_pos hr]
    refine (State.hold_le_of_active ?_ ?_).trans_lt ?_
    · exact hd
    · exact ha
    change 2 * (s.len.toNat + 2 - (s.idx + 1#9).toNat) + 1 < 2 * (s.len.toNat + 2 - s.idx.toNat)
    rw [State.idx_succ_toNat hi]
    omega
  | done ha _ _ now _ idle => exact .inr (.inl (show s.seq.toNat < (10#4).toNat by rw [h.txActiveSend ha]; decide))
  | held now answers draws count ready idle hm => exact .inr (hm.advances h hwrap answers draws count)

end

end Sys2Proof.Machine
end

section
/-! Every command that starts returns (R121, R171, R236). -/

namespace Sys2Proof.Machine

/-! An endless sequence of moves, and its moves after the first. -/

theorem firstMoves_succ (moves : Nat → Move) (n : Nat) :
    firstMoves moves (n + 1) = moves 0 :: firstMoves (fun j => moves (j + 1)) n := by
  rw [firstMoves, List.range_succ_eq_map, List.map_cons, List.map_map]
  rfl

theorem ticksAmong_rest (moves : Nat → Move) (k n : Nat) :
    ticksAmong (fun j => moves (j + 1)) k n = ticksAmong moves (k + 1) n := by
  simp only [ticksAmong, Nat.add_right_comm k]

theorem ticksAmong_succ (moves : Nat → Move) (n : Nat) :
    ticksAmong moves 0 (n + 1) = (if moves 0 = .tick then 1 else 0) + ticksAmong (fun j => moves (j + 1)) 0 n := by
  simp only [ticksAmong, Nat.zero_add, List.range_succ_eq_map, List.filter_cons, List.filter_map, decide_eq_true_eq]
  split
  · rw [List.length_cons, List.length_map, Nat.add_comm]
    rfl
  · rw [List.length_map, Nat.zero_add]
    rfl

namespace Fair

variable {c : Config} {moves : Nat → Move}

theorem rest (hf : Fair c moves) : Fair c fun j => moves (j + 1) := by
  have later {m : Move} (h : ∀ k, ∃ n, k ≤ n ∧ moves n = m) (k : Nat) : ∃ n, k ≤ n ∧ moves (n + 1) = m := by
    obtain ⟨n, hn, hm⟩ := h (k + 1)
    obtain ⟨n, rfl⟩ := Nat.exists_eq_add_of_lt hn
    exact ⟨k + n, Nat.le_add_right k n, hm⟩
  refine ⟨later hf.clock, later hf.takes, later hf.finishes, fun k => ?_, fun n => hf.noReset _, fun n => hf.contract _⟩
  obtain ⟨n, hm, hn⟩ := hf.sequencer (k + 1)
  refine ⟨n, ?_, (ticksAmong_rest moves k n).symm ▸ hn⟩
  rw [Nat.add_right_comm]
  exact hm

/-- The move that a command waits for comes. -/
theorem hold_comes (hf : Fair c moves) (s : State) : ∃ d, moves d = s.hold.2 := by
  have tick : ∃ d, moves d = .tick := (hf.clock 0).imp fun _ h => h.2
  unfold State.hold
  split_ifs
  · exact tick
  · exact tick
  · exact (hf.takes 0).imp fun _ h => h.2
  · exact tick
  · exact (hf.finishes 0).imp fun _ h => h.2
  · obtain ⟨n, hn, -⟩ := hf.sequencer 0
    exact ⟨0 + n, hn⟩

end Fair

/-! The sequencer sees every delay end before NOW has gone once round. -/

/-- Of the moves to come, one is the sequencer's before the ticks waited wrap. -/
def State.DelaySeen (moves : Nat → Move) (s : State) : Prop :=
  s.delaying = true → ∃ n, moves n = .sequencer ∧ s.waited + ticksAmong moves 0 n < 2 ^ s.cfg.timeWidth

section
variable {s t : State} {moves : Nat → Move}

/-- A delay that is not longer than the longest, and not over, is seen to its end. -/
theorem Fair.delaySeen (hf : Fair s.cfg moves) (h : s.delaying = true → s.waited < max s.cfg.spacing s.cfg.dirSwitch) :
    s.DelaySeen moves := by
  intro hd
  obtain ⟨n, hm, hn⟩ := hf.sequencer 0
  have hwaited := h hd
  exact ⟨n, by rw [← hm, Nat.zero_add], by omega⟩

theorem State.DelaySeen.waited_lt (hk : s.DelaySeen moves) (hd : s.delaying = true) (htick : moves 0 = .tick) :
    s.waited + 1 < 2 ^ s.cfg.timeWidth := by
  obtain ⟨n, hm, hn⟩ := hk hd
  cases n with
  | zero => cases htick.symm.trans hm
  | succ n =>
    rw [ticksAmong_succ, if_pos htick] at hn
    omega

theorem max_pos_of_valid {c : Config} (h : c.valid = true) : 1 < max c.spacing c.dirSwitch := by
  obtain ⟨-, hspacing, -, -⟩ := Config.times_of_valid h
  omega

/-- A phase leaves a delay that is not over, or none. -/
theorem PhaseChange.waited_lt (hx : PhaseChange s t) (h : s.Inv) (hd : t.delaying = true) :
    t.waited < max t.cfg.spacing t.cfg.dirSwitch := by
  have hmax := max_pos_of_valid h.cfgValid
  have begun : tickSub s.cfg.timeWidth s.now s.now < max s.cfg.spacing s.cfg.dirSwitch := by
    rw [tickSub_self]
    omega
  have elsewhere (hs : s.seq ≠ 7#4 ∧ s.seq ≠ 10#4) (hdelaying : s.delaying = true) :
      t.waited < max t.cfg.spacing t.cfg.dirSwitch := by
    simp [h.not_delaying hs.1 hs.2] at hdelaying
  cases hx with
  | idle hs => exact elsewhere (by rw [hs]; decide) hd
  | encoded m n v i c hs _ _ _ => exact elsewhere ⟨State.seq_ne (show _ ≠ 7 by omega), State.seq_ne (show _ ≠ 10 by omega)⟩ hd
  | aborted hs _ => exact elsewhere (by rw [hs]; decide) hd
  | gateBegun _ _ _ => exact begun
  | gateSkipped _ hnot _ => exact absurd hd (Bool.eq_false_iff.1 hnot)
  | delayHeld hs _ hw =>
    rcases hs with hs | hs
    · obtain ⟨-, hdly⟩ := h.gateDelay hd hs
      omega
    · have hdly := h.settleDelay hs
      omega
  | delayEnded _ _ _ _ _ => exact absurd hd Bool.false_ne_true
  | dirOut hs => exact elsewhere (by rw [hs]; decide) hd
  | sendBegun hs _ _ _ => exact elsewhere (by rw [hs]; decide) hd
  | sendOffered hs _ _ _ _ _ => exact elsewhere (by rw [hs]; decide) hd
  | sendHeld hs _ _ _ _ => exact elsewhere (by rw [hs]; decide) hd
  | sendWaits hs _ _ _ => exact elsewhere (by rw [hs]; decide) hd
  | settleBegun _ _ => exact begun
  | settleSkipped _ hnot => exact absurd hd (Bool.eq_false_iff.1 hnot)
  | dirIn hs => exact elsewhere (by rw [hs]; decide) hd

/-- A move of which the block sees nothing, and that is not the sequencer's, leaves the sequencer's to come. -/
theorem State.HeldBy.delaySeen {now : Nat} {ready idle : Bool} (hm : s.HeldBy (moves 0) now ready idle) (h : s.Inv)
    (hk : s.DelaySeen moves) (answers : List HostAnswer) (draws : Nat) (count : Byte) :
    State.DelaySeen (fun j => moves (j + 1))
      { s with now := now, answers := answers, draws := draws, pendingCount := count, txReady := ready,
               txIdle := idle } := by
  intro (hd : s.delaying = true)
  obtain ⟨n, hseq, hn⟩ := hk hd
  have hnow := hm.now_eq
  cases n with
  | zero => simp [h.not_delaying_of_active (hm.sequencer hseq)] at hd
  | succ n =>
    refine ⟨n, hseq, ?_⟩
    change tickSub s.cfg.timeWidth now s.t0 + _ < 2 ^ s.cfg.timeWidth
    rw [ticksAmong_succ] at hn
    by_cases htick : moves 0 = .tick
    · rw [if_pos htick] at hn hnow
      have hwaited : tickSub s.cfg.timeWidth now s.t0 = s.waited + 1 := hnow ▸ State.waited_ticked h (by omega)
      omega
    · rw [if_neg htick] at hn hnow
      have hwaited : tickSub s.cfg.timeWidth now s.t0 = s.waited := hnow ▸ rfl
      omega

theorem Turn.delaySeen (hx : Turn s (moves 0) t) (h : s.Inv) (hf : Fair s.cfg moves) (hk : s.DelaySeen moves) :
    t.DelaySeen fun j => moves (j + 1) := by
  have hcfg := hx.command_eq.1
  cases hx with
  | phase _ _ _ hphase => exact Fair.delaySeen (hcfg ▸ hf.rest) (hphase.waited_lt h)
  | byte hv _ hu now answers draws count ready idle =>
    obtain ⟨b, -, hframe⟩ := handOver_frame hu
    rw [hframe]
    obtain ⟨ha, -⟩ := h.offered hv
    intro (hd : s.delaying = true)
    simp [h.not_delaying_of_active ha] at hd
  | done ha hi hidle now hnow idle =>
    refine Fair.delaySeen hf.rest fun _ => ?_
    change tickSub s.cfg.timeWidth now s.now < max s.cfg.spacing s.cfg.dirSwitch
    have hmax := max_pos_of_valid h.cfgValid
    have hself := tickSub_self s.cfg.timeWidth s.now
    rcases hnow with rfl | rfl
    · omega
    · obtain ⟨-, hspacing, hwidth, -⟩ := Config.times_of_valid h.cfgValid
      rw [tickSub_tickSucc h.nowBound h.nowBound (by omega), hself]
      exact hmax
  | held now answers draws count ready idle hm => exact hm.delaySeen h hk answers draws count

end

/-! The command from its start to its end. -/

/-- The command that started in `s₀` runs in `s`, with `moves` to come. -/
structure State.Underway (s₀ : State) (moves : Nat → Move) (s : State) : Prop where
  inv : s.Inv
  running : s.seq ≠ 0#4
  loaded : s.Loaded
  cfg_eq : s.cfg = s₀.cfg
  cmdRtype_eq : s.cmdRtype = s₀.cmdRtype
  cmdValue_eq : s.cmdValue = s₀.cmdValue
  trace : s.CommandTrace s₀.trace
  delaySeen : s.DelaySeen moves

/-- The command that started in `s₀` has returned in `t`. -/
structure State.Returned (s₀ t : State) : Prop where
  idle : t.seq = 0#4
  dir : t.dir = .input
  cmdRtype_eq : t.cmdRtype = s₀.cmdRtype
  cmdValue_eq : t.cmdValue = s₀.cmdValue
  status : t.status = if s₀.cfg.supports s₀.cmdRtype = true then 0b0110#4 else 0b1010#4
  trace : t.CommandTrace s₀.trace

/-- A move is the step that has it next. -/
theorem step_of_act {m : Move} {s t : State} (hx : m.act s = .next t) : step (s.awaiting (m :: s.schedule)) = .next t :=
  hx

section
variable {s₀ s : State} {moves : Nat → Move}

/-- The next move of a command that is underway ends it or advances it. -/
theorem State.Underway.next (h : s₀.Underway moves s) (hf : Fair s₀.cfg moves) :
    ∃ t, (moves 0).act s = .next t ∧
      (s₀.Returned t ∨ (s₀.Underway (fun j => moves (j + 1)) t ∧ s.Advances (moves 0) t)) := by
  obtain ⟨hinv, hs, hloaded, hcfg, hrtype, hvalue, htrace, hseen⟩ := h
  obtain ⟨t, hx⟩ := act_answers hinv hloaded (hcfg ▸ hf.contract 0)
  have hturn := act_turn hinv hs (hf.noReset 0) hx
  have hinv' : t.Inv := everyStepKeepsTheInvariant (s.awaiting (moves 0 :: s.schedule)) t { hinv with } (step_of_act hx)
  have htrace' : t.CommandTrace s₀.trace :=
    commandAddsTheEventsOfR183 s₀.trace (s.awaiting (moves 0 :: s.schedule)) t { hinv with } (hinv.busy_of_seq hs)
      (fun h => hf.noReset 0 (Option.some.inj h)) ⟨htrace.1, htrace.2, htrace.3, htrace.4, htrace.5⟩ (step_of_act hx)
  obtain ⟨hcfg', hrtype', hvalue'⟩ := hturn.command_eq
  refine ⟨t, hx, ?_⟩
  by_cases hidle : t.seq = 0#4
  · refine .inl ⟨hidle, hinv'.dir_input (by rw [hidle]; decide), hrtype'.trans hrtype, hvalue'.trans hvalue, ?_, htrace'⟩
    rw [← hcfg, ← hrtype]
    exact hturn.status_of_returned hinv hloaded hs hidle
  · refine .inr ⟨⟨hinv', hidle, hturn.loaded hinv hloaded, hcfg'.trans hcfg, hrtype'.trans hrtype, hvalue'.trans hvalue,
      htrace', hturn.delaySeen hinv (hcfg ▸ hf) hseen⟩, ?_⟩
    exact (hturn.advances hinv hs hseen.waited_lt).resolve_left hidle

end

/-- A command that is underway returns: by the phases left, then by what is left of its phase, then by the moves until
the one it waits for. -/
theorem State.Underway.returns {s₀ : State} (d : Nat) (moves : Nat → Move) (s : State) (h : s₀.Underway moves s)
    (hf : Fair s₀.cfg moves) (hd : moves d = s.hold.2) :
    ∃ n t, Runs (firstMoves moves n) s t ∧ s₀.Returned t := by
  obtain ⟨t, hx, hreturned | ⟨h', hadvance⟩⟩ := h.next hf
  · refine ⟨1, t, ?_, hreturned⟩
    rw [firstMoves_succ]
    exact .cons hx (.nil t)
  · have hrest : ∃ n u, Runs (firstMoves (fun j => moves (j + 1)) n) t u ∧ s₀.Returned u := by
      have hlast := h'.inv.seqCode
      obtain ⟨e, he⟩ := hf.rest.hold_comes t
      rcases hadvance with hphase | ⟨hsame, hless | ⟨hhold, hne⟩⟩
      · exact h'.returns e _ t hf.rest he
      · exact h'.returns e _ t hf.rest he
      · have hpos : d ≠ 0 := fun h0 => hne (h0 ▸ hd)
        exact h'.returns (d - 1) _ t hf.rest (by rw [hhold, ← hd, Nat.sub_add_cancel (Nat.pos_of_ne_zero hpos)])
    obtain ⟨n, u, hruns, hreturned⟩ := hrest
    refine ⟨n + 1, u, ?_, hreturned⟩
    rw [firstMoves_succ]
    exact .cons hx hruns
termination_by (12 - s.seq.toNat, s.hold.1, d)
decreasing_by
  · exact Prod.Lex.left _ _ (by omega)
  · rw [hsame]
    exact Prod.Lex.right _ (Prod.Lex.left _ _ hless)
  · rw [hsame, hhold]
    exact Prod.Lex.right _ (Prod.Lex.right _ (Nat.sub_one_lt hpos))

/-- A command returns from its start. -/
theorem fair_returns {s : State} {moves : Nat → Move} (h : s.Inv) (hs : s.seq = 1#4) (hf : Fair s.cfg moves)
    (hloaded : s.cfg.supports s.cmdRtype = true → s.written s.cfg.minSize ∧
      ∃ n : Byte, Memory.read s.fb s.cfg.offMl = some n ∧ (s.cmdRtype = s.cfg.rtAck → s.written n.toNat)) :
    ∃ n t, Runs (firstMoves moves n) s t ∧ s.Returned t := by
  have hone : s.seq.toNat = 1 := congrArg BitVec.toNat hs
  obtain ⟨d, hd⟩ := hf.hold_comes s
  refine State.Underway.returns d moves s ?_ hf hd
  exact
    { inv := h
      running := by rw [hs]; decide
      loaded := ⟨fun _ _ => hloaded, fun h3 => by omega, fun h3 => by omega, fun h7 => by omega⟩
      cfg_eq := rfl
      cmdRtype_eq := rfl
      cmdValue_eq := rfl
      trace := .of_early hone.ge (by omega) rfl
      delaySeen := fun hdelaying => by simp [h.not_delaying (by rw [hs]; decide) (by rw [hs]; decide)] at hdelaying }

/-- Settles O52: the run of the first moves of the sequence is a run of their schedule. -/
theorem fairCommandReturns : Obligations.FairCommandReturns := by
  intro s moves h hs hf hloaded
  obtain ⟨n, t, hruns, hreturned⟩ := fair_returns h hs hf hloaded
  have hrun := hruns.runSteps
  rw [firstMoves, List.length_map, List.length_range] at hrun
  obtain ⟨hidle, hdir, hrtype, hvalue, hstatus, -⟩ := hreturned
  exact ⟨n, t.awaiting [], hrun, hidle, hdir, hrtype, hvalue, hstatus⟩

/-! A world of the block's own moves. -/

/-- The clock and the serialiser take turns, and the sequencer moves after each of them. -/
def blockMoves (n : Nat) : Move :=
  if n % 2 = 0 then .sequencer
  else if n % 6 = 1 then .txReady true
  else if n % 6 = 3 then .txIdle true
  else .tick

theorem blockMoves_of_even {n : Nat} (h : n % 2 = 0) : blockMoves n = .sequencer := if_pos h

theorem blockMoves_of_mod (k : Nat) :
    blockMoves (6 * k + 1) = .txReady true ∧ blockMoves (6 * k + 3) = .txIdle true ∧ blockMoves (6 * k + 5) = .tick := by
  refine ⟨?_, ?_, ?_⟩ <;> simp [blockMoves] <;> omega

theorem blockMoves_cases (n : Nat) :
    blockMoves n = .sequencer ∨ blockMoves n = .txReady true ∨ blockMoves n = .txIdle true ∨ blockMoves n = .tick := by
  unfold blockMoves
  split_ifs <;> simp

theorem blockMoves_fair {c : Config} (hc : c.valid = true) : Fair c blockMoves := by
  obtain ⟨-, -, hspacing, hswitch⟩ := Config.times_of_valid hc
  refine ⟨fun k => ⟨6 * k + 5, by omega, (blockMoves_of_mod k).2.2⟩, fun k => ⟨6 * k + 1, by omega, (blockMoves_of_mod k).1⟩,
    fun k => ⟨6 * k + 3, by omega, (blockMoves_of_mod k).2.1⟩, fun k => ?_, fun n => ?_, fun n => ?_⟩
  · refine ⟨k % 2, blockMoves_of_even (by omega), ?_⟩
    have hticks : ticksAmong blockMoves k (k % 2) ≤ k % 2 :=
      (List.length_filter_le _ _).trans (by rw [List.length_range])
    omega
  · rcases blockMoves_cases n with hm | hm | hm | hm <;> rw [hm] <;> nofun
  · rcases blockMoves_cases n with hm | hm | hm | hm <;> rw [hm] <;> rfl

theorem blockMoves_ofTheBlock (n : Nat) : (blockMoves n).ofTheBlock = true := by
  rcases blockMoves_cases n with hm | hm | hm | hm <;> rw [hm] <;> rfl

/-- The first events of a response send its bytes (R177). -/
theorem State.ResponseEvents.length_sentBytes {s : State} {n : Nat} {evs : List Event} (h : s.ResponseEvents n evs) :
    (sentBytes evs).length = n := by
  obtain ⟨t, sent, rfl, rfl, hsent⟩ := h
  have hall : ∀ e ∈ sent, e.txByte.isSome = true := by
    intro e he
    obtain ⟨k, hk, rfl⟩ := List.mem_iff_getElem.1 he
    obtain ⟨u, b, hget, -⟩ := hsent k hk
    rw [List.getElem?_eq_getElem hk, Option.some.injEq] at hget
    rw [hget]
    rfl
  change (sent.filterMap Event.txByte).length = sent.length
  exact List.filterMap_length_eq_length.2 hall

/-- A command that has returned with SENT has sent LEN + 2 bytes (R183). -/
theorem State.Returned.length_sentBytes {s₀ t : State} (h : s₀.Returned t) (hsup : s₀.cfg.supports s₀.cmdRtype = true) :
    (sentBytes t.trace).length = (sentBytes s₀.trace).length + t.len.toNat + 2 := by
  have hstatus : t.status = 0b0110#4 := h.status.trans (if_pos hsup)
  obtain ⟨evs, u, v, htrace, hevs⟩ := h.trace.returned h.idle (by rw [State.sent, hstatus]; rfl)
  have hsent := hevs.length_sentBytes
  rw [sentBytes] at hsent
  rw [htrace, sentBytes, List.filterMap_append, List.filterMap_append, List.length_append, List.length_append, hsent]
  rfl

/-- Settles O51: the moves of `blockMoves` are fair and the block's own. -/
theorem startedCommandCanReturn : Obligations.StartedCommandCanReturn := by
  intro s n h hs hsup hheader hn hmessage
  obtain ⟨k, t, hruns, hreturned⟩ :=
    fair_returns h hs (blockMoves_fair h.cfgValid) fun _ => ⟨hheader, n, hn, hmessage⟩
  refine ⟨firstMoves blockMoves k, _, t.awaiting [], fun m hm => ?_, hruns.runSteps, hreturned.idle,
    hreturned.status.trans (if_pos hsup), hreturned.dir, hreturned.cmdRtype_eq, hreturned.cmdValue_eq,
    hreturned.length_sentBytes hsup⟩
  obtain ⟨j, -, rfl⟩ := List.mem_map.1 hm
  exact blockMoves_ofTheBlock j

end Sys2Proof.Machine
end
